-- ==== Sys2Proof/Word.lean ====
section
/-! DEFINITION. The word types of the IS-PRBG block: 32-bit bus words (20_memory R51) and bytes (00_scope R12). -/

namespace Sys2Proof

/-- One bus word: every register access moves exactly 32 bits (20_memory R59). -/
abbrev Word := BitVec 32

/-- One byte of a byte string (00_scope R12). -/
abbrev Byte := BitVec 8

end Sys2Proof
end

