-- ==== Sys2Proof/Config.lean ====
section
/-! DEFINITION. The named constants (00_scope R8, 10_state R38), the configuration record (R7, R9, R41) and the
opaque functions and free values the spec leaves to the outside (R9, 10_state R42). -/

namespace Sys2Proof

/-! ## Constants (00_scope R8) -/

/-- Multiplier of the QCG recurrence, "a=1664525". -/
def Config.qcgA : Nat := 1664525
/-- Linear coefficient of the QCG recurrence, "b=1". -/
def Config.qcgB : Nat := 1
/-- Increment of the QCG recurrence, "c=1013904223". -/
def Config.qcgC : Nat := 1013904223
/-- Modulus of the QCG recurrence, "m=2^32 - 1" (93_implementation_defined U1: not 2^32). -/
def Config.qcgM : Nat := 4294967295
/-- Reset value of CFG_PG, the default `Pg`. -/
def Config.defaultPg : Word := 10#32
/-- Reset value of CFG_PT, the default `Pt`. -/
def Config.defaultPt : Word := 20#32
/-- Reset value of CFG_TRIALS, the default number of Miller-Rabin rounds. -/
def Config.defaultTrials : Word := 5#32
/-- Reset value of CFG_CONST: 1.82138636 in units of 10^-8 (10_state R27). -/
def Config.defaultConst : Word := 182138636#32
/-- The square of the unit of CFG_CONST: (10^8)^2 (43_stat_tests R142). -/
def Config.constScaleSq : Nat := 10 ^ 16
/-- The primes of the trial division, in the order they are tried (40_prime R95). -/
def Config.smallPrimes : List Nat := [2, 3, 5, 7, 11, 13, 17, 19, 23, 29, 31]
/-- The number of rounds of the default hash chain, "3-round hash chain" (42_yarrow R124). -/
def Config.chainRounds : Nat := 3
/-- The BBS prime length of the reference use, written to ARG0 by BBSREF (30_encoding R81). -/
def Config.referencePrimeBits : Word := 160#32
/-- The identification constant, the ASCII bytes "ISP1" (10_state R38). -/
def Config.idValue : Word := 0x49535031#32

/-! ## The configuration (00_scope R7, R9) -/

/-- What one implementation fixes: the structural parameters of R7, the convention of 43_stat_tests R148, and which
of the replaceable functions of R9 it uses. Plain data, so that a state can carry it (log 7). A `none` in the four
`alt` fields takes the spec's default function; `some c` takes the opaque alternative number `c` (log 9).
`cipherTable` and `hashTable` list answers of EncryptBlock and H that are known; elsewhere they are opaque (log 4). -/
structure Params where
  /-- `W`, width in bits of a bignum register. -/
  w : Nat
  /-- `LMAX`, capacity in bits of BBUF. -/
  lmax : Nat
  /-- `K`, key length in bytes. -/
  k : Nat
  /-- `CW`, counter width in bits. -/
  cw : Nat
  /-- `BLK`, width in bits of a cipher block. -/
  blk : Nat
  /-- `DIG`, digest length in bytes. -/
  dig : Nat
  /-- `ELEN`, length in bytes of an entropy sample. -/
  elen : Nat
  /-- `EXC_L_CLOSING`: whether the appended closing 0 counts in L. -/
  excLClosing : Bool
  /-- `FitBlock`: the default of 42_yarrow R134, or an alternative. -/
  altFitBlock : Option Nat
  /-- `FitDigest`: the default of 42_yarrow R134, or an alternative. -/
  altFitDigest : Option Nat
  /-- `PoolInit`, `PoolAccum`, `PoolOut`: the defaults of 42_yarrow R125, or an alternative. -/
  altPool : Option Nat
  /-- `Chain3`: the default of 42_yarrow R124, or an alternative. -/
  altChain : Option Nat
  /-- Known answers of EncryptBlock: ((key, counter), block). -/
  cipherTable : List ((List Byte × Nat) × Nat)
  /-- Known answers of H: (message, digest as a big-endian number). -/
  hashTable : List (List Byte × Nat)
  deriving DecidableEq, Repr

/-- The configuration State.reset carries: the defaults of R7 for W, LMAX and EXC_L_CLOSING, the default functions, and
for the OPEN sizes the ones of the spec's worked example (95_test_vectors section 2.5).
DESIGN CHOICE (unsafe): the spec gives K, CW, BLK, DIG, ELEN no default; see log 7. -/
def Params.standard : Params where
  w := 512
  lmax := 1048576
  k := 2
  cw := 16
  blk := 16
  dig := 2
  elen := 2
  excLClosing := false
  altFitBlock := none
  altFitDigest := none
  altPool := none
  altChain := none
  cipherTable := []
  hashTable := []

/-! ## External functions and free values: no body, so nothing can be proved of their values -/

/-- `EncryptBlock` where the configuration's table is silent: key and counter to a number, of which the block is the
residue modulo 2^BLK (00_scope R9). -/
opaque Config.encryptBlock : Params → List Byte → Nat → Nat

/-- `H` where the configuration's table is silent: a message to a number, whose last DIG bytes are the digest (R9). -/
opaque Config.hash : Params → List Byte → Nat

/-- An alternative `FitBlock`, by number: a block to a number, whose last K bytes are the key (R9, R11). -/
opaque Config.otherFitBlock : Nat → Params → Nat → Nat

/-- An alternative `FitDigest`, by number: a digest to a number, whose last K bytes are the key (R9, R11). -/
opaque Config.otherFitDigest : Nat → Params → List Byte → Nat

/-- An alternative `PoolInit`, by number (R9). -/
opaque Config.otherPoolInit : Nat → Params → List Byte

/-- An alternative `PoolAccum`, by number (R9). -/
opaque Config.otherPoolAccum : Nat → Params → List Byte → List Byte → List Byte

/-- An alternative `PoolOut`, by number: a pool to a number, whose last ELEN bytes are folded in (R9). -/
opaque Config.otherPoolOut : Nat → Params → List Byte → Nat

/-- The messages an alternative `Chain3` hashes, in order, given the key and the entropy (R9, R14). -/
opaque Config.otherChainMessages : Nat → Params → List Byte → List Byte → List (List Byte)

/-- The result of an alternative `Chain3`: a number, whose last DIG bytes are the chain's output (R9). -/
opaque Config.otherChainResult : Nat → Params → List Byte → List Byte → Nat

/-- The unspecified value a host read of an unwritten location returns, by the number of the read: it may differ from
one read to the next (10_state R42). Free value, log 8. -/
opaque Config.unspecified : Nat → Word

end Sys2Proof
end

