-- ==== Sys2Proof/Machine/State.lean ====
section
/-! DEFINITION. The state of the block as plain data (10_state R20 to R44), with the fields the model adds to it: the
configuration, the external answers, the host's pending actions and what it has read. -/

namespace Sys2Proof.Machine

/-- Sparse cells by index: an index that is not listed is unwritten and holds no value (10_state R42). -/
abbrev Memory (α : Type) := List (Nat × α)

/-- The eight bignum registers (10_state R33). -/
inductive Bn where
  | a | e | n | r | p | q | nmod | x
  deriving DecidableEq, Repr

/-- The bignum bank (10_state R33). Each register is its written limbs of 32 bits by limb index, least significant limb
first (20_memory R56). -/
structure BnBank where
  a : Memory Word
  e : Memory Word
  n : Memory Word
  r : Memory Word
  p : Memory Word
  q : Memory Word
  nmod : Memory Word
  x : Memory Word
  deriving DecidableEq, Repr

/-- The fields of STATUS (10_state R22). -/
structure Status where
  /-- Bit 0: a command is in execution. -/
  busy : Bool
  /-- Bit 1: the last command started has completed. -/
  done : Bool
  /-- Bit 2: the pass/fail flag of the last STAT or MRTEST command. -/
  verdict : Bool
  /-- Bit 3: the result bank holds a computed statistic. -/
  rvalid : Bool
  /-- Bit 4: copy of Y_VALID. -/
  yvalid : Bool
  /-- Bits 11:8: error code of the last completed command. -/
  err : BitVec 4
  deriving DecidableEq, Repr

/-- The fields of a live Yarrow handle (10_state R34). Y_VALID is 1 exactly when the state holds one (log 5). -/
structure Handle where
  /-- Y_KEY, K bytes. -/
  key : List Byte
  /-- Y_CTR, below 2^CW. -/
  ctr : Nat
  /-- Y_POOL, the accumulator as a byte string. -/
  pool : List Byte
  /-- Y_PGREM. -/
  pgRem : Word
  /-- Y_PTREM. -/
  ptRem : Word
  /-- Y_PG. -/
  pg : Word
  /-- Y_PT. -/
  pt : Word
  deriving DecidableEq, Repr

/-- The result bank (10_state R36, R37); `none` is unwritten. The three arrays are written whole, by EXCUR only. -/
structure Bank where
  n : Option Word
  ones : Option Word
  vn : Option Word
  l : Option Word
  num : Option (BitVec 64)
  den2 : Option (BitVec 64)
  theta : Option (Vector Word 18)
  numj : Option (Vector Word 18)
  den2j : Option (Vector Word 18)
  deriving DecidableEq, Repr

/-- One invocation of an external primitive with its arguments and answer (00_scope R14). -/
inductive Event where
  | encryptBlock (key : List Byte) (ctr : Nat) (block : Nat)
  | hash (message : List Byte) (digest : List Byte)
  | entropyBytes (count : Nat) (bytes : List Byte)
  | randBits (bits : Nat) (value : Nat)
  | randRange (lo hi : Nat) (value : Nat)
  deriving DecidableEq, Repr

/-- The external side of the block: what the primitives will answer, and what they have answered. -/
structure Ports where
  /-- The answers the draws will get, oldest first; when it is empty no draw is ever answered (00_scope R10; log 3). -/
  answers : List Nat
  /-- How many more cipher and hash invocations are answered; `none`: all of them (20_memory R65; log 4). -/
  repliesLeft : Option Nat
  /-- The event history, oldest first (00_scope R14); an invocation that is never answered leaves no event (log 13). -/
  history : List Event
  deriving DecidableEq, Repr

/-- One thing the host, or whoever applies reset, does. -/
inductive HostAct where
  /-- `MemRead(REG, addr, bytes)` (20_memory R51). -/
  | read (addr bytes : Nat)
  /-- `MemWrite(REG, addr, bytes, value)` (20_memory R51). -/
  | write (addr bytes : Nat) (value : Word)
  /-- Reset from outside (70_reset_and_hazards R190, R191); `answered` draws of an abandoned command had been answered. -/
  | reset (answered : Nat)
  /-- The host's conditional stop of 30_encoding R81: when STATUS.VERDICT = 0 it skips its next `skip` actions. -/
  | stopUnlessVerdict (skip : Nat)
  deriving DecidableEq, Repr

/-- A pending host action. `early`: it does not wait for BUSY to fall (20_memory R61; log 2). -/
structure HostItem where
  act : HostAct
  early : Bool
  deriving DecidableEq, Repr

/-- An operand a command reads that may be unwritten (10_state R42). -/
inductive Operand where
  | arg0
  | seed
  | bn (reg : Bn)
  | bbuf (cell : Nat)
  | pbuf (cell : Nat)
  deriving DecidableEq, Repr

/-- Why the machine stops with a fault. -/
inductive Fault where
  /-- A command reads an operand that holds no value. Raised by MODEXP, MRTEST, QCG, BBS, FREQ, RUNS, EXCUR, PACK and
  UNPACK (10_state R42: "the model gives it a fault, not a value"; 60_exceptions R176; 92_eei_decisions D8;
93_implementation_defined I1; 70_reset_and_hazards R193: "otherwise the command faults"). Safe: the machine stops where the spec promises no result. -/
  | unwrittenOperand (o : Operand)
  deriving DecidableEq, Repr

/-- Why a step is refused. -/
inductive Refusal where
  /-- A command with no meaning yet, by its mnemonic. Raised by exec's arms only. Safe. -/
  | notModelled (mnemonic : String)
  /-- A host access that is misaligned, not 4 bytes wide, or to an unmapped offset (20_memory R51, R53). Raised by host
  reads and writes. Safe: the spec admits no such access. -/
  | busAccessNotAdmitted (addr : Nat)
  /-- A host access other than a read of STATUS, ERRLOG, ID or CMD while BUSY = 1 (20_memory R61). Raised by host reads and
  writes. Safe: the spec calls its effect undefined and refuses the run. -/
  | accessWhileBusy (addr : Nat)
  /-- A command in a configuration that is not admitted (00_scope R11). Raised by the sequencer. Safe: the spec gives no
  command a meaning there. -/
  | configurationNotAdmitted
  deriving DecidableEq, Repr

/-- The state of the block (10_state R20), and the model's own fields `params`, `ext` but for its history, `host`,
`reads`, `freeIx` (logs 2, 3, 4, 7, 8) and `waiting` (log 6). ID is a constant (R38). -/
structure State where
  /-- The configuration; no step changes it (10_state R41; log 7). -/
  params : Params
  /-- CMD (R21). -/
  cmd : Word
  /-- STATUS (R22). -/
  status : Status
  /-- ERRLOG (R23). -/
  errlog : Word
  /-- ARG0 (R24). `none` is unwritten, the value the reset table gives it (R42, R44). -/
  arg0 : Option Word
  /-- CFG_PG (R25). -/
  cfgPg : Word
  /-- CFG_PT (R25). -/
  cfgPt : Word
  /-- CFG_TRIALS (R26). -/
  cfgTrials : Word
  /-- CFG_CONST (R27). -/
  cfgConst : Word
  /-- CFG_RETRY (R28). -/
  cfgRetry : Word
  /-- SEED (R29). `none` is unwritten, the value R29 and the reset table give it at reset (R42, R44). -/
  seed : Option Word
  /-- BLEN (R30). -/
  blen : Word
  /-- PLEN (R30). -/
  plen : Word
  /-- BBUF (R31). -/
  bbuf : Memory Bool
  /-- PBUF (R32). -/
  pbuf : List Host.Cell
  /-- The bignum bank (R33). -/
  bn : BnBank
  /-- The Yarrow handle, `none` while Y_VALID = 0 (R34). -/
  handle : Option Handle
  /-- The result bank (R36, R37). -/
  bank : Bank
  /-- The external primitives and the event history (00_scope R9, R10, R14). -/
  ext : Ports
  /-- The command in execution has invoked a primitive that does not answer (20_memory R65). -/
  waiting : Bool
  /-- The host's pending actions (10_state R39; log 2). -/
  host : List HostItem
  /-- What the host's reads returned, oldest first: offset and word (log 2). -/
  reads : List (Nat × Word)
  /-- Number of the next host read, for the free value of an unwritten location (R42; log 8). -/
  freeIx : Nat
  deriving DecidableEq, Repr

/-- Every bignum register unwritten (10_state R44). -/
def BnBank.unwritten : BnBank := ⟨[], [], [], [], [], [], [], []⟩

/-- The whole result bank unwritten (10_state R36, R44). -/
def Bank.unwritten : Bank := ⟨none, none, none, none, none, none, none, none, none⟩

/-- STATUS after reset: all fields 0 (10_state R44). -/
def Status.reset : Status := ⟨false, false, false, false, false, 0#4⟩

/-- The reset table of 10_state R44 for a block built with configuration `p`. -/
def State.initial (p : Params) : State where
  params := p
  cmd := 0#32
  status := Status.reset
  errlog := 0#32
  arg0 := none
  cfgPg := Config.defaultPg
  cfgPt := Config.defaultPt
  cfgTrials := Config.defaultTrials
  cfgConst := Config.defaultConst
  cfgRetry := 0#32
  seed := none
  blen := 0#32
  plen := 0#32
  bbuf := []
  pbuf := []
  bn := BnBank.unwritten
  handle := none
  bank := Bank.unwritten
  ext := ⟨[], none, []⟩
  waiting := false
  host := []
  reads := []
  freeIx := 0

/-- The machine right after reset (10_state R44, 70_reset_and_hazards R190), in the standard configuration, with no host
action pending and no answer to come (logs 2, 3, 7). -/
def State.reset : State := State.initial Params.standard

end Sys2Proof.Machine
end

