-- ==== Sys2Proof/Machine/Flags.lean ====
section
/-! DEFINITION. STATUS and ERRLOG: the word the host reads, what starting and completing a command write
(10_state R22, R23; 30_encoding R77, R78; 60_exceptions R170, R178), and the comparisons behind VERDICT (43_stat_tests R142). -/

namespace Sys2Proof.Machine

/-- The error classes (60_exceptions R170). No command raises `arithmeticDomainError` (R174). -/
inductive ErrCode where
  | invalidParameter
  | degenerateInput
  | primeSearchExhausted
  | arithmeticDomainError
  deriving DecidableEq, Repr

/-- The number of an error class (60_exceptions R170). -/
def ErrCode.code : ErrCode → Nat
  | .invalidParameter => 1
  | .degenerateInput => 2
  | .primeSearchExhausted => 3
  | .arithmeticDomainError => 4

/-- The word a read of STATUS returns; the reserved bits are 0 (10_state R22). -/
def Status.word (t : Status) : Word :=
  BitVec.ofNat 32 (t.busy.toNat + 2 * t.done.toNat + 4 * t.verdict.toNat + 8 * t.rvalid.toNat + 16 * t.yvalid.toNat
    + 256 * t.err.toNat)

/-- STATUS when a command starts (30_encoding R77): YVALID alone is kept. -/
def statusStarted (t : Status) : Status :=
  { busy := true, done := false, verdict := false, rvalid := false, yvalid := t.yvalid, err := 0#4 }

/-- STATUS when a command ends without an error (30_encoding R78). -/
def statusCompleted (verdict rvalid yValid : Bool) : Status :=
  { busy := false, done := true, verdict := verdict, rvalid := rvalid, yvalid := yValid, err := 0#4 }

/-- STATUS when a command ends with error `e` (60_exceptions R178). -/
def statusRaised (e : ErrCode) (yValid : Bool) : Status :=
  { busy := false, done := true, verdict := false, rvalid := false, yvalid := yValid, err := BitVec.ofNat 4 e.code }

/-- STATUS of a command that does not end (70_reset_and_hazards R196). -/
def statusHung (t : Status) : Status :=
  { t with busy := true, done := false }

/-- ERRLOG with the sticky bit of error `e` set (10_state R23). -/
def errlogWith (log : Word) (e : ErrCode) : Word :=
  log ||| BitVec.ofNat 32 (2 ^ e.code)

/-- `num / sqrt(den2) ≤ CONST` on integers, `num ≥ 0` (43_stat_tests R142). -/
def leConst (cfgConst : Word) (num den2 : Nat) : Bool :=
  decide (num ^ 2 * Config.constScaleSq ≤ cfgConst.toNat ^ 2 * den2)

/-- `num / sqrt(den2) < CONST` on integers (43_stat_tests R142). -/
def ltConst (cfgConst : Word) (num : Int) (den2 : Nat) : Bool :=
  decide (num ≤ 0) || decide (num.natAbs ^ 2 * Config.constScaleSq < cfgConst.toNat ^ 2 * den2)

end Sys2Proof.Machine
end

