-- ==== Sys2Proof/Machine/Ops.lean ====
section
/-! DEFINITION. The named operations every command and host access is built from: cells, bit and byte order, the bignum
bank, starting and ending a command, raising an error, reset. -/

namespace Sys2Proof.Machine

/-! ## Cells (10_state R31, R32, R42) -/

/-- The value of a cell, `none` when it is unwritten. -/
def Memory.get? {α : Type} (m : Memory α) (i : Nat) : Option α :=
  match m with
  | [] => none
  | (j, v) :: rest => if j = i then some v else Memory.get? rest i

/-- A run of values as cells, from index `start` on. -/
def Memory.cells {α : Type} (start : Nat) (xs : List α) : Memory α :=
  match xs with
  | [] => []
  | v :: rest => (start, v) :: Memory.cells (start + 1) rest

/-- Writes the values `xs` to the cells from `start` on; every other cell is unchanged. -/
def Memory.write {α : Type} (m : Memory α) (start : Nat) (xs : List α) : Memory α :=
  m.filter (fun c => decide (c.1 < start)) ++ (Memory.cells start xs
    ++ m.filter (fun c => decide (start + xs.length ≤ c.1)))

/-- The `count` cells from `start` on, or the index of the first unwritten one. -/
def Memory.readRun {α : Type} (m : Memory α) (start : Nat) : Nat → Except Nat (List α)
  | 0 => .ok []
  | count + 1 =>
    match Memory.get? m start with
    | none => .error start
    | some v =>
      match Memory.readRun m (start + 1) count with
      | .ok vs => .ok (v :: vs)
      | .error i => .error i

/-- The canonical form: indices strictly rising. -/
def Memory.wf {α : Type} : Memory α → Bool
  | [] => true
  | (i, _) :: rest => rest.all (fun c => decide (i < c.1)) && Memory.wf rest

/-- Every listed index is below `bound`. -/
def Memory.within {α : Type} (bound : Nat) (m : Memory α) : Bool :=
  m.all (fun c => decide (c.1 < bound))

/-! ## Bit and byte order (00_scope R12) -/

/-- The number whose bits are `bits`, most significant first. -/
def natOfBits (bits : List Bool) : Nat :=
  bits.foldl (fun acc b => 2 * acc + b.toNat) 0

/-- The `width` low bits of `v`, most significant first. -/
def bitsOfNat (width v : Nat) : List Bool :=
  (List.range width).map (fun t => v.testBit (width - 1 - t))

/-- `int(s)`: the number a byte string holds, most significant byte first. -/
def natOfBytes (bytes : List Byte) : Nat :=
  bytes.foldl (fun acc b => 256 * acc + b.toNat) 0

/-- `BE(v, k)`: the `k` low bytes of `v`, most significant first. -/
def bytesOfNat (k v : Nat) : List Byte :=
  (List.range k).map (fun j => BitVec.ofNat 8 (v / 256 ^ (k - 1 - j)))

/-! ## The bignum bank (10_state R33, 20_memory R56) -/

/-- One register of the bank. -/
def BnBank.get (b : BnBank) : Bn → Memory Word
  | .a => b.a
  | .e => b.e
  | .n => b.n
  | .r => b.r
  | .p => b.p
  | .q => b.q
  | .nmod => b.nmod
  | .x => b.x

/-- The bank with one register replaced. -/
def BnBank.set (b : BnBank) (reg : Bn) (m : Memory Word) : BnBank :=
  match reg with
  | .a => { b with a := m }
  | .e => { b with e := m }
  | .n => { b with n := m }
  | .r => { b with r := m }
  | .p => { b with p := m }
  | .q => { b with q := m }
  | .nmod => { b with nmod := m }
  | .x => { b with x := m }

/-- The number of limbs of a bignum register, W/32. -/
def limbCount (p : Params) : Nat := p.w / 32

/-- `count` limbs of a number, least significant first. -/
def limbsOfNat (count v : Nat) : List Word :=
  match count with
  | 0 => []
  | c + 1 => BitVec.ofNat 32 v :: limbsOfNat c (v / 2 ^ 32)

/-- The number a list of limbs holds, least significant first. -/
def natOfLimbs : List Word → Nat
  | [] => 0
  | w :: rest => w.toNat + 2 ^ 32 * natOfLimbs rest

/-- The value of a bignum register: written only when all its limbs are (20_memory R56). -/
def State.bnValue (s : State) (reg : Bn) : Option Nat :=
  match Memory.readRun (s.bn.get reg) 0 (limbCount s.params) with
  | .ok limbs => some (natOfLimbs limbs)
  | .error _ => none

/-- The limbs of a number, as the cells of a bignum register. -/
def bnCells (p : Params) (v : Nat) : Memory Word :=
  Memory.cells 0 (limbsOfNat (limbCount p) v)

/-- A command's write of a whole bignum register. -/
def State.setBn (s : State) (reg : Bn) (v : Nat) : State :=
  { s with bn := s.bn.set reg (bnCells s.params v) }

/-- The four result registers of BBS (41_generators R116). -/
def State.setBbsResults (s : State) (p q nmod x : Nat) : State :=
  { s with bn :=
    { s.bn with
      p := bnCells s.params p
      q := bnCells s.params q
      nmod := bnCells s.params nmod
      x := bnCells s.params x } }

/-- A command's making a bignum register unwritten. -/
def State.dropBn (s : State) (reg : Bn) : State :=
  { s with bn := s.bn.set reg [] }

/-! ## Capacity, handle and configuration -/

/-- `PMAX = LMAX / 8` (00_scope R7). -/
def pbufCapacity (p : Params) : Nat := p.lmax / 8

/-- Y_VALID (10_state R34). -/
def State.yValid (s : State) : Bool := s.handle.isSome

/-- Whether a configuration is admitted: the constraints of 00_scope R7, and a size adaptor that is defined
(R11, 42_yarrow R134). -/
def configAdmitted (p : Params) : Bool :=
  decide (p.w % 32 = 0 ∧ 64 ≤ p.w ∧ p.w ≤ 2048)
    && decide (p.lmax % 32 = 0 ∧ 32 ≤ p.lmax ∧ p.lmax ≤ 2 ^ 20)
    && decide (1 ≤ p.k ∧ 1 ≤ p.cw ∧ p.cw ≤ 256 ∧ 1 ≤ p.blk ∧ 1 ≤ p.dig ∧ 1 ≤ p.elen)
    && (p.altFitBlock.isSome || decide (p.blk % 8 = 0 ∧ 8 * p.k ≤ p.blk))
    && (p.altFitDigest.isSome || decide (p.k ≤ p.dig))

/-! ## A bit sequence or a byte string written whole -/

/-- Writes the bit sequence a generator or UNPACK produced: `BBUF[0..]` and BLEN (10_state R30, R31). -/
def State.setSequence (s : State) (bits : List Bool) : State :=
  { s with bbuf := Memory.write s.bbuf 0 bits, blen := BitVec.ofNat 32 bits.length }

/-- Writes the bytes PACK produced: `PBUF[0..]` and PLEN (10_state R30, R32). -/
def State.setBytes (s : State) (bytes : List Byte) : State :=
  { s with pbuf := Memory.write s.pbuf 0 bytes, plen := BitVec.ofNat 32 bytes.length }

/-! ## Starting and ending a command -/

/-- A CMD write while BUSY = 0 latches the word and starts the command (30_encoding R77). -/
def startCommand (w : Word) (s : State) : State :=
  { s with cmd := w, status := statusStarted s.status }

/-- Completion of a command that did not raise (30_encoding R78). -/
def completeCommand (verdict rvalid : Bool) (s : State) : State :=
  { s with status := statusCompleted verdict rvalid s.yValid }

/-- Which results PrimeSearchExhausted makes unwritten (60_exceptions R178). -/
inductive Results where
  | nothing
  | prime
  | bbs
  deriving DecidableEq, Repr

/-- The destinations of a command left without a value (60_exceptions R178 (c)). -/
def dropResults (d : Results) (s : State) : State :=
  match d with
  | .nothing => s
  | .prime => s.dropBn .r
  | .bbs =>
    { s with
      bn := { s.bn with p := [], q := [], nmod := [], x := [] }
      blen := 0#32
      bbuf := [] }

/-- Taking an error: everything `raise e` does, for a command whose results are `d` (60_exceptions R178). There is no
return from it and nothing to restore: the next CMD write clears ERR, `startCommand` (R179). -/
def raiseError (e : ErrCode) (d : Results) (s : State) : State :=
  let t := if e = .primeSearchExhausted then dropResults d s else s
  { t with status := statusRaised e t.yValid, errlog := errlogWith t.errlog e }

/-- A command that does not end: BUSY stays 1, no write of the command is visible, and only the event history shows how
far it came (70_reset_and_hazards R196, 20_memory R65; log 6). -/
def hang (x : Ports) (s : State) : State :=
  { s with ext := x, waiting := true, status := statusHung s.status }

/-- How a command's pseudocode ends. -/
inductive Ending where
  /-- It ends without `raise`, with these flags. -/
  | completes (verdict rvalid : Bool) (s : State)
  /-- It executes `raise e`, having made the writes of `s`. -/
  | raises (e : ErrCode) (d : Results) (s : State)
  /-- It reads an operand that holds no value (10_state R42). -/
  | faults (o : Operand)
  /-- An invoked primitive does not answer (20_memory R65). -/
  | hangs (x : Ports) (s : State)

/-- The outcome of a command from how its pseudocode ended. -/
def finish : Ending → Host.Outcome State Fault Refusal
  | .completes verdict rvalid s => .next (completeCommand verdict rvalid s)
  | .raises e d s => .next (raiseError e d s)
  | .faults o => .fault (.unwrittenOperand o)
  | .hangs x s => .next (hang x s)

/-- An InvalidParameter check that fails before anything was written (60_exceptions R171, R178 (a)). -/
def invalidParameter (s : State) : Ending :=
  .raises .invalidParameter .nothing s

/-! ## Reset (70_reset_and_hazards R190 to R192) -/

/-- Reset from outside. The configuration, the host's plans and readings and the counter of free values are not the
block's state and stay; `answered` draws of an abandoned command are not given back (R191).
DESIGN CHOICE (safe): `repliesLeft` stays whole. R191 does not say whether a cipher or hash port counts the replies it gave
to an abandoned command, nor whether one that fell silent answers again after reset (logs 4, 6). -/
def resetBlock (answered : Nat) (s : State) : State :=
  { State.initial s.params with
    ext := { answers := s.ext.answers.drop answered, repliesLeft := s.ext.repliesLeft, history := [] },
    host := s.host, reads := s.reads, freeIx := s.freeIx }

end Sys2Proof.Machine
end

