-- ==== Sys2Proof/Machine/Ports.lean ====
section
/-! DEFINITION. Invoking the external primitives, each answered invocation recorded in the event history in the order it is made
(00_scope R9, R10, R14; 20_memory R65). -/

namespace Sys2Proof.Machine

/-- What a stretch of a command's pseudocode that may invoke primitives comes to. -/
inductive Run (α : Type) where
  /-- It yields a value. -/
  | yields (a : α) (x : Ports)
  /-- It raises PrimeSearchExhausted (40_prime R97). -/
  | exhausted (x : Ports)
  /-- A primitive it invoked does not answer (20_memory R65). -/
  | waits (x : Ports)
  deriving DecidableEq, Repr

/-- Goes on with what was yielded. -/
def Run.andThen {α β : Type} (r : Run α) (f : α → Ports → Run β) : Run β :=
  match r with
  | .yields a x => f a x
  | .exhausted x => .exhausted x
  | .waits x => .waits x

/-- Appends one event to the history. -/
def Ports.record (x : Ports) (e : Event) : Ports :=
  { x with history := x.history ++ [e] }

/-- A draw: takes the next answer, brings it into the draw's range by `fit`, and records it (00_scope R10, R14).
DESIGN CHOICE (unsafe): a draw that is never answered leaves no event; R14 records every invocation, but as a triple with its
answer, and does not say what becomes of one that has none (log 13). -/
def draw {α : Type} (fit : Nat → α) (event : α → Event) (x : Ports) : Run α :=
  match x.answers with
  | [] => .waits x
  | r :: rest => .yields (fit r) (Ports.record { x with answers := rest } (event (fit r)))

/-- A number in `[lo, hi]`: `r` itself when it lies there (00_scope R10; log 3). -/
def inRange (lo hi r : Nat) : Nat :=
  if lo ≤ r ∧ r ≤ hi then r else lo + r % (hi - lo + 1)

/-- `draw RandBits(b)`: an integer in [0, 2^b - 1]. -/
def randBits (bits : Nat) (x : Ports) : Run Nat :=
  draw (fun r => r % 2 ^ bits) (fun v => .randBits bits v) x

/-- `draw RandRange(lo, hi)`: an integer in [lo, hi]. -/
def randRange (lo hi : Nat) (x : Ports) : Run Nat :=
  draw (inRange lo hi) (fun v => .randRange lo hi v) x

/-- `draw EntropyBytes(k)`: k bytes. -/
def entropyBytes (k : Nat) (x : Ports) : Run (List Byte) :=
  draw (bytesOfNat k) (fun b => .entropyBytes k b) x

/-- An invocation of a primitive that is a function: its answer is the function's, if it answers at all (log 4).
DESIGN CHOICE (unsafe): one that is never answered leaves no event, as in `draw` (log 13). -/
def invoke {α : Type} (answer : α) (event : Event) (x : Ports) : Run α :=
  match x.repliesLeft with
  | none => .yields answer (Ports.record x event)
  | some 0 => .waits x
  | some (n + 1) => .yields answer (Ports.record { x with repliesLeft := some n } event)

/-- The first entry of a table under a key. -/
def tableLookup {κ : Type} [DecidableEq κ] (table : List (κ × Nat)) (key : κ) : Option Nat :=
  match table with
  | [] => none
  | (k, v) :: rest => if k = key then some v else tableLookup rest key

/-- The function `EncryptBlock` of the configuration: a BLK-bit block (00_scope R9). -/
def cipherBlock (p : Params) (key : List Byte) (ctr : Nat) : Nat :=
  (tableLookup p.cipherTable (key, ctr)).getD (Config.encryptBlock p key ctr) % 2 ^ p.blk

/-- The function `H` of the configuration: DIG bytes (00_scope R9). -/
def hashBytes (p : Params) (message : List Byte) : List Byte :=
  bytesOfNat p.dig ((tableLookup p.hashTable message).getD (Config.hash p message))

/-- `invoke EncryptBlock(key, ctr)`. -/
def invokeCipher (p : Params) (key : List Byte) (ctr : Nat) (x : Ports) : Run Nat :=
  invoke (cipherBlock p key ctr) (.encryptBlock key ctr (cipherBlock p key ctr)) x

/-- `invoke H(message)`. -/
def invokeHash (p : Params) (message : List Byte) (x : Ports) : Run (List Byte) :=
  invoke (hashBytes p message) (.hash message (hashBytes p message)) x

end Sys2Proof.Machine
end

