-- ==== Sys2Proof/Machine/Operands.lean ====
section
/-! DEFINITION. Reading a command's implicit operands (30_encoding R76): a value, or a fault when the operand is unwritten,
at the statement that names it (10_state R42, 60_exceptions R176). -/

namespace Sys2Proof.Machine

/-- Goes on with the value of a bignum operand (10_state R33; unwritten it is a fault, R42, 40_prime R98, 70 R193). -/
def withBn (reg : Bn) (s : State) (f : Nat → Ending) : Ending :=
  match s.bnValue reg with
  | none => .faults (.bn reg)
  | some v => f v

/-- Goes on with ARG0 (10_state R24; unwritten it is a fault, R42, 70_reset_and_hazards R193). -/
def withArg0 (s : State) (f : Nat → Ending) : Ending :=
  match s.arg0 with
  | none => .faults .arg0
  | some v => f v.toNat

/-- Goes on with SEED (10_state R29; 41_generators R111: "a reading of unwritten `SEED` is a fault"). -/
def withSeed (s : State) (f : Nat → Ending) : Ending :=
  match s.seed with
  | none => .faults .seed
  | some v => f v.toNat

/-- Goes on with the bits `BBUF[0..count-1]` (10_state R31; an unwritten one is a fault, R42, 43_stat_tests R143). -/
def withBits (count : Nat) (s : State) (f : List Bool → Ending) : Ending :=
  match Memory.readRun s.bbuf 0 count with
  | .error i => .faults (.bbuf i)
  | .ok bits => f bits

/-- Goes on with the bytes `PBUF[0..count-1]` (10_state R32; an unwritten one is a fault, R42, 44_packing R161). -/
def withBytes (count : Nat) (s : State) (f : List Byte → Ending) : Ending :=
  match Memory.readRun s.pbuf 0 count with
  | .error i => .faults (.pbuf i)
  | .ok bytes => f bytes

/-- The length checks of the generator commands (41_generators R111, R116; 42_yarrow R128). -/
def lengthAdmitted (length : Nat) (s : State) : Bool :=
  decide (1 ≤ length) && decide (length ≤ s.params.lmax)

/-- Ends a command from what its stretch with invocations came to: `results` are made unwritten on exhaustion. -/
def endRun {α : Type} (r : Run α) (results : Results) (s : State) (f : α → State → Ending) : Ending :=
  match r with
  | .yields a x => f a { s with ext := x }
  | .exhausted x => .raises .primeSearchExhausted results { s with ext := x }
  | .waits x => .hangs x s

end Sys2Proof.Machine
end

