-- ==== Sys2Proof/Machine/Bus.lean ====
section
/-! DEFINITION. The host's side: the address map of REG, bus reads and writes, what is admitted while a command executes,
reset from outside, and whose turn it is (20_memory R50 to R64; 70_reset_and_hazards R190 to R194). -/

namespace Sys2Proof.Machine

/-- The places of the address map (20_memory R52). -/
inductive Reg where
  | id | cmd | status | errlog | arg0 | cfgPg | cfgPt | cfgTrials | cfgConst | cfgRetry | seed | blen | plen
  | yPgrem | yPtrem | yPg | yPt
  | yCtr (limb : Nat)
  | tN | tOnes | tVn | tL
  | tNum (high : Bool)
  | tDen2 (high : Bool)
  | tTheta (i : Nat)
  | tNumj (i : Nat)
  | tDen2j (i : Nat)
  | bn (reg : Bn) (limb : Nat)
  | bbuf (word : Nat)
  | pbuf (word : Nat)
  deriving DecidableEq, Repr

/-! ## The address map (20_memory R52, R53) -/

/-- The bignum registers in address order (20_memory R52). -/
def bnIndex : Bn → Nat
  | .a => 0
  | .e => 1
  | .n => 2
  | .r => 3
  | .p => 4
  | .q => 5
  | .nmod => 6
  | .x => 7

/-- The bignum register at a place of the address order. -/
def bnAt : Nat → Bn
  | 0 => .a
  | 1 => .e
  | 2 => .n
  | 3 => .r
  | 4 => .p
  | 5 => .q
  | 6 => .nmod
  | _ => .x

/-- The offset of a place (20_memory R52). -/
def Reg.offset : Reg → Nat
  | .id => 0x000
  | .cmd => 0x004
  | .status => 0x008
  | .errlog => 0x00C
  | .arg0 => 0x010
  | .cfgPg => 0x014
  | .cfgPt => 0x018
  | .cfgTrials => 0x01C
  | .cfgConst => 0x020
  | .cfgRetry => 0x024
  | .seed => 0x028
  | .blen => 0x02C
  | .plen => 0x030
  | .yPgrem => 0x040
  | .yPtrem => 0x044
  | .yPg => 0x048
  | .yPt => 0x04C
  | .yCtr i => 0x080 + 4 * i
  | .tN => 0x0A0
  | .tOnes => 0x0A4
  | .tVn => 0x0A8
  | .tL => 0x0AC
  | .tNum high => 0x0B0 + 4 * high.toNat
  | .tDen2 high => 0x0B8 + 4 * high.toNat
  | .tTheta i => 0x100 + 4 * i
  | .tNumj i => 0x180 + 4 * i
  | .tDen2j i => 0x200 + 4 * i
  | .bn reg i => 0x400 + 0x100 * bnIndex reg + 4 * i
  | .bbuf i => 0x10000 + 4 * i
  | .pbuf i => 0x40000 + 4 * i

/-- Whether a place exists in a configuration: the index ranges of 20_memory R52. -/
def Reg.mapped (p : Params) : Reg → Bool
  | .yCtr i => decide (i < 8)
  | .tTheta i => decide (i < 18)
  | .tNumj i => decide (i < 18)
  | .tDen2j i => decide (i < 18)
  | .bn _ i => decide (i < limbCount p)
  | .bbuf i => decide (i < p.lmax / 32)
  | .pbuf i => decide (i < pbufCapacity p / 4)
  | _ => true

/-- The places below 0x0C0, by word number (20_memory R52). -/
def lowReg : Nat → Option Reg
  | 0 => some .id
  | 1 => some .cmd
  | 2 => some .status
  | 3 => some .errlog
  | 4 => some .arg0
  | 5 => some .cfgPg
  | 6 => some .cfgPt
  | 7 => some .cfgTrials
  | 8 => some .cfgConst
  | 9 => some .cfgRetry
  | 10 => some .seed
  | 11 => some .blen
  | 12 => some .plen
  | 16 => some .yPgrem
  | 17 => some .yPtrem
  | 18 => some .yPg
  | 19 => some .yPt
  | 32 => some (.yCtr 0)
  | 33 => some (.yCtr 1)
  | 34 => some (.yCtr 2)
  | 35 => some (.yCtr 3)
  | 36 => some (.yCtr 4)
  | 37 => some (.yCtr 5)
  | 38 => some (.yCtr 6)
  | 39 => some (.yCtr 7)
  | 40 => some .tN
  | 41 => some .tOnes
  | 42 => some .tVn
  | 43 => some .tL
  | 44 => some (.tNum false)
  | 45 => some (.tNum true)
  | 46 => some (.tDen2 false)
  | 47 => some (.tDen2 true)
  | _ => none

/-- The place that would stand at word number `w` were every index in range. -/
def placeAt (w : Nat) : Option Reg :=
  if w < 0x40 then lowReg w
  else if w < 0x60 then some (.tTheta (w - 0x40))
  else if w < 0x80 then some (.tNumj (w - 0x60))
  else if w < 0x100 then some (.tDen2j (w - 0x80))
  else if w < 0x300 then some (.bn (bnAt ((w - 0x100) / 0x40)) ((w - 0x100) % 0x40))
  else if w < 0x4000 then none
  else if w < 0x10000 then some (.bbuf (w - 0x4000))
  else some (.pbuf (w - 0x10000))

/-- The place an aligned offset names, if the map lists it (20_memory R52, R53). -/
def regAt (p : Params) (addr : Nat) : Option Reg :=
  match placeAt (addr / 4) with
  | none => none
  | some r => if r.mapped p then some r else none

/-- The place a bus access reaches: it is 4 bytes wide, aligned and mapped (20_memory R51, R53). -/
def accessed (p : Params) (addr bytes : Nat) : Option Reg :=
  if bytes = 4 ∧ addr % 4 = 0 then regAt p addr else none

/-! ## Reading (20_memory R54 to R59) -/

/-- The bits of BBUF word `i`, an unwritten cell giving the bit of `free` in its place (20_memory R54). -/
def bbufWord (m : Memory Bool) (free : Word) (i : Nat) : Word :=
  BitVec.ofNat 32 (natOfBits ((List.range 32).map
    (fun t => (Memory.get? m (32 * i + t)).getD (free.toNat.testBit (31 - t)))))

/-- The bytes of PBUF word `i`, an unwritten cell giving the byte of `free` in its place (20_memory R55). -/
def pbufWord (m : Memory Byte) (free : Word) (i : Nat) : Word :=
  BitVec.ofNat 32 (natOfBytes ((List.range 4).map
    (fun t => (Memory.get? m (4 * i + t)).getD (BitVec.ofNat 8 (free.toNat / 256 ^ (3 - t))))))

/-- One half of a 64-bit result (20_memory R57). -/
def half64 (high : Bool) (v : BitVec 64) : Word :=
  if high then v.extractLsb' 32 32 else v.extractLsb' 0 32

/-- One limb of a number: its bits 32·i + 31 to 32·i (20_memory R56). -/
def limb (i v : Nat) : Word :=
  BitVec.ofNat 32 (v / 2 ^ (32 * i))

/-- What a register holds for the host; `none` when it is unwritten (10_state R21 to R38, R42).
DESIGN CHOICE (safe): a limb of a bignum register that does not count as written (20_memory R56) is an unwritten location,
also where that limb has been written; the spec does not say whether the location is the limb or the register (log 12). -/
def State.regValue (s : State) : Reg → Option Word
  | .id => some Config.idValue
  | .cmd => some s.cmd
  | .status => some s.status.word
  | .errlog => some s.errlog
  | .arg0 => s.arg0
  | .cfgPg => some s.cfgPg
  | .cfgPt => some s.cfgPt
  | .cfgTrials => some s.cfgTrials
  | .cfgConst => some s.cfgConst
  | .cfgRetry => some s.cfgRetry
  | .seed => s.seed
  | .blen => some s.blen
  | .plen => some s.plen
  | .yPgrem => s.handle.map (·.pgRem)
  | .yPtrem => s.handle.map (·.ptRem)
  | .yPg => s.handle.map (·.pg)
  | .yPt => s.handle.map (·.pt)
  | .yCtr i => s.handle.map (fun h => limb i h.ctr)
  | .tN => s.bank.n
  | .tOnes => s.bank.ones
  | .tVn => s.bank.vn
  | .tL => s.bank.l
  | .tNum high => s.bank.num.map (half64 high)
  | .tDen2 high => s.bank.den2.map (half64 high)
  | .tTheta i => s.bank.theta.bind (fun v => v[i]?)
  | .tNumj i => s.bank.numj.bind (fun v => v[i]?)
  | .tDen2j i => s.bank.den2j.bind (fun v => v[i]?)
  | .bn reg i => (s.bnValue reg).map (limb i)
  | .bbuf _ => none
  | .pbuf _ => none

/-- The word a host read returns; `free` stands for what is unwritten (10_state R42, 20_memory R54, R55, R59). -/
def State.readWord (s : State) (free : Word) : Reg → Word
  | .bbuf i => bbufWord s.bbuf free i
  | .pbuf i => pbufWord s.pbuf free i
  | r => (s.regValue r).getD free

/-- A host read: its word is noted among the host's readings, and nothing of the block changes (20_memory R59). -/
def noteRead (addr : Nat) (r : Reg) (s : State) : State :=
  { s with reads := s.reads ++ [(addr, s.readWord (Config.unspecified s.freeIx) r)], freeIx := s.freeIx + 1 }

/-! ## Writing (20_memory R52, R59) -/

/-- The read-only bignum registers (10_state R33). -/
def bnWritable : Bn → Bool
  | .a => true
  | .e => true
  | .n => true
  | _ => false

/-- A host write while BUSY = 0: a write to CMD starts a command; a write to a read-only place is ignored (R59). -/
def State.writeReg (s : State) (v : Word) : Reg → State
  | .cmd => startCommand v s
  | .arg0 => { s with arg0 := some v }
  | .cfgPg => { s with cfgPg := v }
  | .cfgPt => { s with cfgPt := v }
  | .cfgTrials => { s with cfgTrials := v }
  | .cfgConst => { s with cfgConst := v }
  | .cfgRetry => { s with cfgRetry := v }
  | .seed => { s with seed := some v }
  | .blen => { s with blen := v }
  | .plen => { s with plen := v }
  | .bn reg i =>
    if bnWritable reg then { s with bn := s.bn.set reg (Memory.write (s.bn.get reg) i [v]) } else s
  | .bbuf i => { s with bbuf := Memory.write s.bbuf (32 * i) (bitsOfNat 32 v.toNat) }
  | .pbuf i => { s with pbuf := Memory.write s.pbuf (4 * i) (bytesOfNat 4 v.toNat) }
  | _ => s

/-- Whether the sequencer moves: a command is in execution and not waiting for ever (30_encoding R77, 20_memory R65). -/
def sequencerRuns (s : State) : Bool :=
  s.status.busy && !s.waiting

/-! ## The host's actions -/

/-- Whether the host may read a place while BUSY = 1 (20_memory R61). -/
def readableWhileBusy : Reg → Bool
  | .status => true
  | .errlog => true
  | .id => true
  | .cmd => true
  | _ => false

/-- A host read (20_memory R51, R53, R61). -/
def hostRead (addr bytes : Nat) (s : State) : Host.Outcome State Fault Refusal :=
  match accessed s.params addr bytes with
  | none => .refused (.busAccessNotAdmitted addr)
  | some r =>
    if s.status.busy && !readableWhileBusy r then .refused (.accessWhileBusy addr)
    else .next (noteRead addr r s)

/-- A host write (20_memory R51, R53, R61). -/
def hostWrite (addr bytes : Nat) (v : Word) (s : State) : Host.Outcome State Fault Refusal :=
  match accessed s.params addr bytes with
  | none => .refused (.busAccessNotAdmitted addr)
  | some r =>
    if s.status.busy then .refused (.accessWhileBusy addr)
    else .next (s.writeReg v r)

/-- The conditional stop of a BATTERY line: a decision of the host on STATUS.VERDICT (30_encoding R81). -/
def stopUnlessVerdict (skip : Nat) (s : State) : State :=
  if s.status.verdict then s else { s with host := s.host.drop skip }

/-- One host action, taken off the list before. Draws are lost to a reset only while a command is in execution and its draws are not yet taken (R191). -/
def hostAct (act : HostAct) (s : State) : Host.Outcome State Fault Refusal :=
  match act with
  | .read addr bytes => hostRead addr bytes s
  | .write addr bytes v => hostWrite addr bytes v s
  | .reset answered => .next (resetBlock (if sequencerRuns s then answered else 0) s)
  | .stopUnlessVerdict skip => .next (stopUnlessVerdict skip s)

/-! ## Whose turn it is -/

/-- The pending host action that moves next, with the rest of the list: always the first one while BUSY = 0, and while
BUSY = 1 the first one if it does not wait (20_memory R61, R62; log 2). -/
def hostTurn (s : State) : Option (HostAct × List HostItem) :=
  match s.host with
  | [] => none
  | item :: rest => if s.status.busy && !item.early then none else some (item.act, rest)

/-- The word the sequencer executes: CMD itself (20_memory R64). -/
def fetchWord (s : State) : Word :=
  s.cmd

/-- A word that encodes no command completes at once with InvalidParameter (30_encoding R74, R75). -/
def rejectWord (s : State) : Host.Outcome State Fault Refusal :=
  .next (raiseError .invalidParameter .nothing s)

/-- The state in which `w` has just been written to CMD and the host waits (30_encoding R77, R79). -/
def placeCommand (w : Word) (s : State) : State :=
  { startCommand w s with waiting := false, host := s.host.map (fun item => { item with early := false }) }

end Sys2Proof.Machine
end

