-- ==== Sys2Proof/Syntax.lean ====
section
/-! DEFINITION. The commands of the block, one constructor per row of spec/opcode_table.json (30_encoding R73). -/

namespace Sys2Proof

/-- The fourteen commands. A format L command carries its immediate as the unsigned integer it stands for
(30_encoding R72); a format N command carries nothing, since its imm24 must be 0 (R71). -/
inductive Instr where
  | modexp
  | mrtest
  | genprime (bits : Nat)
  | genprime3 (bits : Nat)
  | qcg (length : Nat)
  | bbs (length : Nat)
  | yinit
  | ygen (length : Nat)
  | ydrop
  | freq
  | runs
  | excur
  | pack
  | unpack
  deriving DecidableEq, Repr

end Sys2Proof
end

