-- ==== Sys2Proof/WellFormed.lean ====
section
/-! DEFINITION. Which commands have a command word: the immediate of a format L command fits 24 bits
(30_encoding R70, R72). -/

namespace Sys2Proof

/-- The immediate of a format L command; a format N command has none (30_encoding R73). -/
def Instr.imm : Instr → Option Nat
  | .modexp => none
  | .mrtest => none
  | .genprime bits => some bits
  | .genprime3 bits => some bits
  | .qcg length => some length
  | .bbs length => some length
  | .yinit => none
  | .ygen length => some length
  | .ydrop => none
  | .freq => none
  | .runs => none
  | .excur => none
  | .pack => none
  | .unpack => none

/-- A command is well formed when its immediate, if it has one, is below 2^24 (30_encoding R72, R79). -/
def Instr.wellFormed (i : Instr) : Bool :=
  match i.imm with
  | none => true
  | some v => decide (v < 2 ^ 24)

end Sys2Proof
end

