-- ==== Sys2Proof/Decode.lean ====
section
/-! DEFINITION. Decoding a command word and encoding a command (30_encoding R70 to R75). The block has no byte access to
a command word: CMD is written as one whole word (20_memory R51), so words, not bytes, are decoded. -/

namespace Sys2Proof

/-- Why a word is no command: both complete with InvalidParameter (30_encoding R74, R75). -/
inductive DecodeReject where
  /-- The opcode is not in the map of R73. Safe: the rejection is what the spec says. -/
  | illegalOpcode
  /-- A format N opcode with imm24 ≠ 0. Safe: the rejection is what the spec says. -/
  | reservedImmediate
  deriving DecidableEq, Repr

/-- `opcode = word[7:0]` (30_encoding R70). -/
def opcodeField (w : Word) : Nat := w.toNat % 256

/-- `imm24 = word[31:8]`, unsigned and unscaled (30_encoding R70, R72). -/
def imm24Field (w : Word) : Nat := w.toNat / 256

/-- A format N command: imm24 must be 0 (30_encoding R71, R75). -/
def decodeN (imm : Nat) (i : Instr) : Except DecodeReject Instr :=
  if imm = 0 then .ok i else .error .reservedImmediate

/-- The command a word encodes, or why it encodes none (30_encoding R73 to R75). -/
def decode (w : Word) : Except DecodeReject Instr :=
  match opcodeField w with
  | 0x10 => decodeN (imm24Field w) .modexp
  | 0x11 => decodeN (imm24Field w) .mrtest
  | 0x12 => .ok (.genprime (imm24Field w))
  | 0x13 => .ok (.genprime3 (imm24Field w))
  | 0x20 => .ok (.qcg (imm24Field w))
  | 0x21 => .ok (.bbs (imm24Field w))
  | 0x30 => decodeN (imm24Field w) .yinit
  | 0x31 => .ok (.ygen (imm24Field w))
  | 0x32 => decodeN (imm24Field w) .ydrop
  | 0x40 => decodeN (imm24Field w) .freq
  | 0x41 => decodeN (imm24Field w) .runs
  | 0x42 => decodeN (imm24Field w) .excur
  | 0x50 => decodeN (imm24Field w) .pack
  | 0x51 => decodeN (imm24Field w) .unpack
  | _ => .error .illegalOpcode

/-- The opcode of a command (30_encoding R73). -/
def Instr.opcode : Instr → Nat
  | .modexp => 0x10
  | .mrtest => 0x11
  | .genprime _ => 0x12
  | .genprime3 _ => 0x13
  | .qcg _ => 0x20
  | .bbs _ => 0x21
  | .yinit => 0x30
  | .ygen _ => 0x31
  | .ydrop => 0x32
  | .freq => 0x40
  | .runs => 0x41
  | .excur => 0x42
  | .pack => 0x50
  | .unpack => 0x51

/-- The word a script line assembles to: `(imm << 8) | opcode` (30_encoding R79). -/
def encode (i : Instr) : Word :=
  BitVec.ofNat 32 (i.imm.getD 0 * 256 + i.opcode)

/-- The command the decoder reads from an instruction whose bits are `w`, `nbits` of them given and the rest 0. -/
def decodeTableWord (nbits w : Nat) : Option Instr :=
  match decode (BitVec.ofNat 32 (w % 2 ^ nbits)) with
  | .ok i => some i
  | .error _ => none

end Sys2Proof
end

