-- ==== Sys2Proof/Machine/Prime.lean ====
section
/-! DEFINITION. The PRIME unit: MODEXP, MRTEST, GENPRIME, GENPRIME3 (40_prime R90 to R103). -/

namespace Sys2Proof.Machine

/-! ## Arithmetic (R91 to R96) -/

/-- Square and multiply: `acc * b ^ e mod n`, at most `fuel` bits of `e`. -/
def modExpLoop (n : Nat) (fuel b e acc : Nat) : Nat :=
  match fuel with
  | 0 => acc
  | f + 1 =>
    if e = 0 then acc
    else modExpLoop n f (b * b % n) (e / 2) (if e % 2 = 1 then acc * b % n else acc)

/-- `ModExp(a, e, n)`: `(a^e) mod n` for n ≥ 1 (R91; the method is not observable, and `modExp_eq` shows the value). -/
def modExp (a e n : Nat) : Nat :=
  modExpLoop n (Nat.log2 e + 1) (a % n) e (1 % n)

/-- The power of 2 in `m` and the odd rest, at most `fuel` halvings. -/
def splitTwos (fuel m : Nat) : Nat × Nat :=
  match fuel with
  | 0 => (0, m)
  | f + 1 => if m % 2 = 0 then ((splitTwos f (m / 2)).1 + 1, (splitTwos f (m / 2)).2) else (0, m)

/-- `Decompose(n)`: (s, t) with n - 1 = 2^s * t and t odd, for odd n ≥ 3 (R92). -/
def decompose (n : Nat) : Nat × Nat :=
  splitTwos (Nat.log2 (n - 1)) (n - 1)

/-- The squarings of a Miller-Rabin round: whether one of the next `count` squares is n - 1 (R93). -/
def mrSquares (n : Nat) (count x : Nat) : Bool :=
  match count with
  | 0 => false
  | c + 1 => if x * x % n = n - 1 then true else mrSquares n c (x * x % n)

/-- `MRRound(n, a)`: true for `pass`, false for `composite` (R93). -/
def mrRound (n a : Nat) : Bool :=
  let (s, t) := decompose n
  let x := modExp a t n
  if x = 1 ∨ x = n - 1 then true else mrSquares n (s - 1) x

/-- `MillerRabin(n, trials)`: true for `probable_prime`, false for `composite` at the first composite round (R94). -/
def millerRabin (n : Nat) (trials : Nat) (x : Ports) : Run Bool :=
  match trials with
  | 0 => .yields true x
  | k + 1 => (randRange 2 (n - 2) x).andThen fun a x =>
      if mrRound n a then millerRabin n k x else .yields false x

/-- What trial division says of a number (R95). -/
inductive Trial where
  | prime
  | composite
  | unknown
  deriving DecidableEq, Repr

/-- Trial division by the primes of a list, in its order (R95). -/
def trialDivBy (primes : List Nat) (n : Nat) : Trial :=
  match primes with
  | [] => .unknown
  | p :: rest => if n = p then .prime else if n % p = 0 then .composite else trialDivBy rest n

/-- `TrialDiv(n)` (R95). -/
def trialDiv (n : Nat) : Trial :=
  trialDivBy Config.smallPrimes n

/-- The candidate made of drawn bits: top bit and low bit forced (R96). -/
def candidate (bits r : Nat) : Nat :=
  r ||| 2 ^ (bits - 1) ||| 1

/-- Whether a candidate is taken for prime: trial division, then Miller-Rabin where it does not decide (R97). -/
def probablePrime (c trials : Nat) (x : Ports) : Run Bool :=
  match trialDiv c with
  | .prime => .yields true x
  | .composite => .yields false x
  | .unknown => millerRabin c trials x

/-! ## The search (R97) -/

/-- `PrimeSearch(bits, need3)`: the prime found and the number of candidates the command has sampled. Each pass takes
at least one answer, so a bound of the number of answers and one more is never what ends it (log 3). -/
def primeSearchLoop (bits : Nat) (need3 : Bool) (trials retry : Nat) (bound sampled : Nat) (x : Ports) : Run (Nat × Nat) :=
  match bound with
  | 0 => .waits x
  | b + 1 =>
    if retry ≠ 0 ∧ sampled = retry then .exhausted x
    else (randBits bits x).andThen fun r x =>
      (probablePrime (candidate bits r) trials x).andThen fun ok x =>
        if ok && (!need3 || decide (candidate bits r % 4 = 3)) then .yields (candidate bits r, sampled + 1) x
        else primeSearchLoop bits need3 trials retry b (sampled + 1) x

/-- `PrimeSearch(bits, need3)` with `sampled` candidates already sampled by the command (R97). -/
def primeSearch (bits : Nat) (need3 : Bool) (trials retry sampled : Nat) (x : Ports) : Run (Nat × Nat) :=
  primeSearchLoop bits need3 trials retry (x.answers.length + 1) sampled x

/-! ## The commands -/

/-- The pseudocode of MODEXP (R98). -/
def modexpBody (s : State) : Ending :=
  withBn .n s fun n =>
    if n = 0 then invalidParameter s
    else withBn .a s fun a => withBn .e s fun e => .completes false false (s.setBn .r (modExp a e n))

/-- MODEXP (40_prime R98). -/
def execModexp (s : State) : Host.Outcome State Fault Refusal :=
  finish (modexpBody s)

/-- The pseudocode of MRTEST (R99). -/
def mrtestBody (s : State) : Ending :=
  if s.cfgTrials = 0#32 then invalidParameter s
  else withBn .n s fun n =>
    if n % 2 = 0 ∨ n < 5 then invalidParameter s
    else endRun (millerRabin n s.cfgTrials.toNat s.ext) .nothing s fun verdict s => .completes verdict false s

/-- MRTEST (40_prime R99). -/
def execMrtest (s : State) : Host.Outcome State Fault Refusal :=
  finish (mrtestBody s)

/-- The pseudocode GENPRIME and GENPRIME3 share (R100, R101). -/
def genprimeBody (need3 : Bool) (bits : Nat) (s : State) : Ending :=
  if bits < 2 then invalidParameter s
  else if s.params.w < bits then invalidParameter s
  else if s.cfgTrials = 0#32 then invalidParameter s
  else endRun (primeSearch bits need3 s.cfgTrials.toNat s.cfgRetry.toNat 0 s.ext) .prime s fun found s =>
    .completes false false (s.setBn .r found.1)

/-- GENPRIME (40_prime R100). -/
def execGenprime (bits : Nat) (s : State) : Host.Outcome State Fault Refusal :=
  finish (genprimeBody false bits s)

/-- GENPRIME3 (40_prime R101). -/
def execGenprime3 (bits : Nat) (s : State) : Host.Outcome State Fault Refusal :=
  finish (genprimeBody true bits s)

end Sys2Proof.Machine
end

