-- ==== Sys2Proof/Machine/Generators.lean ====
section
/-! DEFINITION. The QCG and BBS units (41_generators R110 to R118). -/

namespace Sys2Proof.Machine

/-- `lsb(v)` (00_scope R12). -/
def lsb (v : Nat) : Bool :=
  decide (v % 2 = 1)

/-- `count` steps of a feedback recurrence from `x`: the bits emitted, each the least significant bit of the state after
its step, and the last state (R111, R116). -/
def emitBits (step : Nat → Nat) (count x : Nat) : List Bool × Nat :=
  match count with
  | 0 => ([], x)
  | c + 1 => (lsb (step x) :: (emitBits step c (step x)).1, (emitBits step c (step x)).2)

/-! ## QCG -/

/-- `QStep(x)` (R110). -/
def qStep (x : Nat) : Nat :=
  (Config.qcgA * x ^ 2 + Config.qcgB * x + Config.qcgC) % Config.qcgM

/-- The pseudocode of QCG (R111). -/
def qcgBody (length : Nat) (s : State) : Ending :=
  if !lengthAdmitted length s then invalidParameter s
  else withSeed s fun seed => .completes false false (s.setSequence (emitBits qStep length seed).1)

/-- QCG (41_generators R111). -/
def execQcg (length : Nat) (s : State) : Host.Outcome State Fault Refusal :=
  finish (qcgBody length s)

/-! ## BBS -/

/-- The resampling of q until it differs from p: q and the number of candidates sampled (R113). Each pass takes at least
one answer, so a bound of the number of answers and one more is never what ends it (log 3). -/
def bbsQLoop (bits p trials retry : Nat) (bound sampled : Nat) (x : Ports) : Run (Nat × Nat) :=
  match bound with
  | 0 => .waits x
  | b + 1 => (primeSearch bits true trials retry sampled x).andThen fun found x =>
      if found.1 = p then bbsQLoop bits p trials retry b found.2 x else .yields found x

/-- The factor q, with `sampled` candidates already sampled by the command (R113). -/
def bbsFactor (bits p trials retry sampled : Nat) (x : Ports) : Run (Nat × Nat) :=
  bbsQLoop bits p trials retry (x.answers.length + 1) sampled x

/-- `BBSSetup(pb)`: p and q (R113). -/
def bbsSetup (bits trials retry : Nat) (x : Ports) : Run (Nat × Nat) :=
  (primeSearch bits true trials retry 0 x).andThen fun p x =>
    (bbsFactor bits p.1 trials retry p.2 x).andThen fun q x => .yields (p.1, q.1) x

/-- The seed draws of BBSSeed, until one is coprime to the modulus (R114); the bound is as in `bbsQLoop`. -/
def bbsSeedLoop (nmod : Nat) (bound : Nat) (x : Ports) : Run Nat :=
  match bound with
  | 0 => .waits x
  | b + 1 => (randRange 1 (nmod - 1) x).andThen fun s x =>
      if Nat.gcd s nmod = 1 then .yields s x else bbsSeedLoop nmod b x

/-- The seed: a draw, again while it is not coprime to the modulus (R114). -/
def bbsSeedDraw (nmod : Nat) (x : Ports) : Run Nat :=
  bbsSeedLoop nmod (x.answers.length + 1) x

/-- `BBSSeed(nmod)`: x_0 (R114). -/
def bbsSeed (nmod : Nat) (x : Ports) : Run Nat :=
  (bbsSeedDraw nmod x).andThen fun s x => .yields (s * s % nmod) x

/-- `BStep(x, nmod)` (R115). -/
def bStep (nmod x : Nat) : Nat :=
  x * x % nmod

/-- The factors and x_0 of a BBS command: ((p, q), x_0) (R116). -/
def bbsStart (bits trials retry : Nat) (x : Ports) : Run ((Nat × Nat) × Nat) :=
  (bbsSetup bits trials retry x).andThen fun pq x =>
    (bbsSeed (pq.1 * pq.2) x).andThen fun x0 x => .yields (pq, x0) x

/-- The pseudocode of BBS (R116). -/
def bbsBody (length : Nat) (s : State) : Ending :=
  if !lengthAdmitted length s then invalidParameter s
  else withArg0 s fun bits =>
    if bits < 2 then invalidParameter s
    else if s.params.w < 2 * bits then invalidParameter s
    else if s.cfgTrials = 0#32 then invalidParameter s
    else endRun (bbsStart bits s.cfgTrials.toNat s.cfgRetry.toNat s.ext) .bbs s fun start s =>
      let nmod := start.1.1 * start.1.2
      let out := emitBits (bStep nmod) length start.2
      .completes false false
        ((s.setSequence out.1).setBbsResults start.1.1 start.1.2 nmod out.2)

/-- BBS (41_generators R116). -/
def execBbs (length : Nat) (s : State) : Host.Outcome State Fault Refusal :=
  finish (bbsBody length s)

end Sys2Proof.Machine
end

