-- ==== Sys2Proof/Machine/Packing.lean ====
section
/-! DEFINITION. The PACK unit: PACK and UNPACK, most significant bit first (44_packing R160 to R163). -/

namespace Sys2Proof.Machine

/-- `count` bytes from a bit sequence, eight bits a byte, the first bit of a group its bit 7 (R160). -/
def packBits (count : Nat) (bits : List Bool) : List Byte :=
  match count with
  | 0 => []
  | c + 1 => BitVec.ofNat 8 (natOfBits (bits.take 8)) :: packBits c (bits.drop 8)

/-- The bits of a byte string, bit 7 of each byte first (R161). -/
def unpackBytes (bytes : List Byte) : List Bool :=
  bytes.flatMap (fun b => bitsOfNat 8 b.toNat)

/-- The pseudocode of PACK: the last BLEN mod 8 bits are read by nothing (R160). -/
def packBody (s : State) : Ending :=
  if s.params.lmax < s.blen.toNat then invalidParameter s
  else withBits (8 * (s.blen.toNat / 8)) s fun bits =>
    .completes false false (s.setBytes (packBits (s.blen.toNat / 8) bits))

/-- PACK (44_packing R160). -/
def execPack (s : State) : Host.Outcome State Fault Refusal :=
  finish (packBody s)

/-- The pseudocode of UNPACK (R161). -/
def unpackBody (s : State) : Ending :=
  if pbufCapacity s.params < s.plen.toNat then invalidParameter s
  else withBytes s.plen.toNat s fun bytes =>
    .completes false false (s.setSequence (unpackBytes bytes))

/-- UNPACK (44_packing R161). -/
def execUnpack (s : State) : Host.Outcome State Fault Refusal :=
  finish (unpackBody s)

end Sys2Proof.Machine
end

