-- ==== Sys2Proof/Machine/Stat.lean ====
section
/-! DEFINITION. The STAT unit: FREQ, RUNS, EXCUR as exact integer reductions (43_stat_tests R140 to R155). -/

namespace Sys2Proof.Machine

/-! ## The reductions -/

/-- The number of 1 bits (R144). -/
def onesCount (bits : List Bool) : Nat :=
  bits.count true

/-- The number of neighbours that differ (R145). -/
def transitions : List Bool → Nat
  | [] => 0
  | [_] => 0
  | a :: b :: rest => (if a = b then 0 else 1) + transitions (b :: rest)

/-- The walk S_1, …, S_len from a start value: plus 1 for a 1, minus 1 for a 0 (R146). -/
def walkFrom (start : Int) : List Bool → List Int
  | [] => []
  | b :: rest => (start + (if b then 1 else -1)) :: walkFrom (start + (if b then 1 else -1)) rest

/-- The walk of a bit sequence, without the two synthetic zeros (R146). -/
def walk (bits : List Bool) : List Int :=
  walkFrom 0 bits

/-- The number of visits of the walk to a value: θ_j for j ≠ 0, L0 for 0 (R147, R148). -/
def visits (bits : List Bool) (j : Int) : Nat :=
  (walk bits).count j

/-- The 18 non-zero states in index order: idx(j) = j + 9 for j < 0 and j + 8 for j > 0 (10_state R37). -/
def excursionStates : List Int :=
  [-9, -8, -7, -6, -5, -4, -3, -2, -1, 1, 2, 3, 4, 5, 6, 7, 8, 9]

/-- One value for each of the 18 states, by index (10_state R37). -/
def forStates {α : Type} (f : Int → α) : Vector α 18 :=
  ⟨(excursionStates.map f).toArray, by simp [excursionStates]⟩

/-- The zero-return count L (R148). -/
def zeroReturns (closing : Bool) (bits : List Bool) : Nat :=
  visits bits 0 + closing.toNat

/-- `den2j = 2·L·(4·|j| − 2)` (R149). -/
def excursionDen2 (l : Nat) (j : Int) : Nat :=
  2 * l * (4 * j.natAbs - 2)

/-- `numj = θ_j − L` (R149). -/
def excursionNum (bits : List Bool) (l : Nat) (j : Int) : Int :=
  (visits bits j : Int) - (l : Int)

/-! ## The common prologue (R143) -/

/-- Every STAT command: the bank made unwritten, the checks, then the test on the sequence with T_N written (R143). -/
def statBody (test : List Bool → State → Ending) (s : State) : Ending :=
  let s := { s with bank := Bank.unwritten }
  if s.blen.toNat < 2 then invalidParameter s
  else if s.params.lmax < s.blen.toNat then invalidParameter s
  else if s.cfgConst = 0#32 then invalidParameter s
  else withBits s.blen.toNat s fun bits =>
    test bits { s with bank := { Bank.unwritten with n := some s.blen } }

/-! ## FREQ -/

/-- S_n, the sum of the bits mapped to ±1 (R144). -/
def freqSum (bits : List Bool) : Int :=
  2 * (onesCount bits : Int) - (bits.length : Int)

/-- The test of FREQ (R144). -/
def freqTest (bits : List Bool) (s : State) : Ending :=
  .completes (leConst s.cfgConst (freqSum bits).natAbs bits.length) true
    { s with bank :=
      { s.bank with
        ones := some (BitVec.ofNat 32 (onesCount bits))
        num := some (BitVec.ofNat 64 (freqSum bits).natAbs)
        den2 := some (BitVec.ofNat 64 bits.length) } }

/-- FREQ (43_stat_tests R144). -/
def execFreq (s : State) : Host.Outcome State Fault Refusal :=
  finish (statBody freqTest s)

/-! ## RUNS -/

/-- V_n, the number of runs (R145). -/
def runsCount (bits : List Bool) : Nat :=
  1 + transitions bits

/-- `|len·V − 2·o·z|` (R145). -/
def runsNum (bits : List Bool) : Nat :=
  ((bits.length : Int) * (runsCount bits : Int)
    - 2 * (onesCount bits : Int) * ((bits.length - onesCount bits : Nat) : Int)).natAbs

/-- `8·len·o·z` (R145). -/
def runsDen2 (bits : List Bool) : Nat :=
  8 * bits.length * onesCount bits * (bits.length - onesCount bits)

/-- The test of RUNS (R145). -/
def runsTest (bits : List Bool) (s : State) : Ending :=
  let s := { s with bank :=
    { s.bank with
      ones := some (BitVec.ofNat 32 (onesCount bits))
      vn := some (BitVec.ofNat 32 (runsCount bits)) } }
  if onesCount bits = 0 ∨ bits.length - onesCount bits = 0 then .raises .degenerateInput .nothing s
  else .completes (leConst s.cfgConst (runsNum bits) (runsDen2 bits)) true
    { s with bank :=
      { s.bank with
        num := some (BitVec.ofNat 64 (runsNum bits))
        den2 := some (BitVec.ofNat 64 (runsDen2 bits)) } }

/-- RUNS (43_stat_tests R145). -/
def execRuns (s : State) : Host.Outcome State Fault Refusal :=
  finish (statBody runsTest s)

/-! ## EXCUR -/

/-- Whether all 18 statistics are below CONST (R150). -/
def excursionPass (cfgConst : Word) (bits : List Bool) (l : Nat) : Bool :=
  excursionStates.all (fun j => ltConst cfgConst (excursionNum bits l j) (excursionDen2 l j))

/-- The test of EXCUR (R152). -/
def excurTest (bits : List Bool) (s : State) : Ending :=
  let l := zeroReturns s.params.excLClosing bits
  let s := { s with bank :=
    { s.bank with
      l := some (BitVec.ofNat 32 l)
      theta := some (forStates (fun j => BitVec.ofNat 32 (visits bits j))) } }
  if l = 0 then .raises .degenerateInput .nothing s
  else .completes (excursionPass s.cfgConst bits l) true
    { s with bank :=
      { s.bank with
        numj := some (forStates (fun j => BitVec.ofInt 32 (excursionNum bits l j)))
        den2j := some (forStates (fun j => BitVec.ofNat 32 (excursionDen2 l j))) } }

/-- EXCUR (43_stat_tests R152). -/
def execExcur (s : State) : Host.Outcome State Fault Refusal :=
  finish (statBody excurTest s)

end Sys2Proof.Machine
end

