-- ==== Sys2Proof/Machine/Yarrow.lean ====
section
/-! DEFINITION. The YARROW unit: YINIT, YGEN, YDROP, the block request with its rekey and reseed, and the replaceable
functions with their defaults (42_yarrow R120 to R134). -/

namespace Sys2Proof.Machine

/-! ## The replaceable functions (00_scope R9) -/

/-- `FitBlock`: by default the first K bytes of the block (R134). -/
def fitBlock (p : Params) (block : Nat) : List Byte :=
  match p.altFitBlock with
  | none => (bytesOfNat (p.blk / 8) block).take p.k
  | some c => bytesOfNat p.k (Config.otherFitBlock c p block)

/-- `FitDigest`: by default the first K bytes of the digest (R134). -/
def fitDigest (p : Params) (digest : List Byte) : List Byte :=
  match p.altFitDigest with
  | none => digest.take p.k
  | some c => bytesOfNat p.k (Config.otherFitDigest c p digest)

/-- `PoolInit()`: by default ELEN bytes of 0x00 (R125). -/
def poolInit (p : Params) : List Byte :=
  match p.altPool with
  | none => List.replicate p.elen 0#8
  | some c => Config.otherPoolInit c p

/-- `PoolAccum(pool, raw)`: by default raw (R125). -/
def poolAccum (p : Params) (pool raw : List Byte) : List Byte :=
  match p.altPool with
  | none => raw
  | some c => Config.otherPoolAccum c p pool raw

/-- `PoolOut(pool)`: by default the pool (R125). -/
def poolOut (p : Params) (pool : List Byte) : List Byte :=
  match p.altPool with
  | none => pool
  | some c => bytesOfNat p.elen (Config.otherPoolOut c p pool)

/-- Hashes each message of a list, in order (for an alternative Chain3, R14). -/
def hashAll (p : Params) (messages : List (List Byte)) (x : Ports) : Run Unit :=
  match messages with
  | [] => .yields () x
  | m :: rest => (invokeHash p m x).andThen fun _ x => hashAll p rest x

/-- `rounds` H invocations, each over the previous value and `e`, the first over `v` (R124). -/
def hashChain (p : Params) (e : List Byte) (rounds : Nat) (v : List Byte) (x : Ports) : Run (List Byte) :=
  match rounds with
  | 0 => .yields v x
  | k + 1 => (invokeHash p (v ++ e) x).andThen fun v x => hashChain p e k v x

/-- `Chain3(key, e)`: by default the chain of R8's number of rounds, seeded with the key (R124). -/
def chain3 (p : Params) (key e : List Byte) (x : Ports) : Run (List Byte) :=
  match p.altChain with
  | none => hashChain p e Config.chainRounds key x
  | some c =>
    (hashAll p (Config.otherChainMessages c p key e) x).andThen fun _ x =>
      .yields (bytesOfNat p.dig (Config.otherChainResult c p key e)) x

/-! ## The block request (R122 to R127) -/

/-- Advances the counter: plus 1 modulo 2^CW (R125, R126). -/
def nextCtr (p : Params) (ctr : Nat) : Nat :=
  (ctr + 1) % 2 ^ p.cw

/-- `Rekey()`, step 1 (R123). -/
def rekey (p : Params) (h : Handle) (x : Ports) : Run Handle :=
  (invokeCipher p h.key h.ctr x).andThen fun b x =>
    .yields { h with key := fitBlock p b, pgRem := h.pg } x

/-- `Reseed()`, step 2 (R125). -/
def reseed (p : Params) (h : Handle) (x : Ports) : Run Handle :=
  (entropyBytes p.elen x).andThen fun raw x =>
    let pool := poolAccum p h.pool raw
    (chain3 p h.key (poolOut p pool) x).andThen fun c x =>
      (invokeHash p (c ++ h.key) x).andThen fun d x =>
        .yields { h with pool := pool, key := fitDigest p d, ctr := nextCtr p h.ctr, ptRem := h.pt } x

/-- `Emit()`, step 3: the cipher block and the handle after it (R126). -/
def emitBlock (p : Params) (h : Handle) (x : Ports) : Run (Nat × Handle) :=
  (invokeCipher p h.key h.ctr x).andThen fun block x =>
    .yields (block, { h with ctr := nextCtr p h.ctr, pgRem := h.pgRem - 1#32, ptRem := h.ptRem - 1#32 }) x

/-- Step 1 when its countdown is 0 (R122). -/
def rekeyIfDue (p : Params) (h : Handle) (x : Ports) : Run Handle :=
  if h.pgRem = 0#32 then rekey p h x else .yields h x

/-- Step 2 when its countdown is 0 (R122). -/
def reseedIfDue (p : Params) (h : Handle) (x : Ports) : Run Handle :=
  if h.ptRem = 0#32 then reseed p h x else .yields h x

/-- `BlockRequest()`: steps 1, 2 and 3 in this order (R122). -/
def blockRequest (p : Params) (h : Handle) (x : Ports) : Run (Nat × Handle) :=
  (rekeyIfDue p h x).andThen fun h x => (reseedIfDue p h x).andThen fun h x => emitBlock p h x

/-- The loop of YGEN: block requests until `need` bits are produced, each block unpacked most significant bit first, the
last one's unused bits discarded (R127, R128). A block has at least one bit, so a bound of `need` never ends it. -/
def ygenLoop (p : Params) (bound need : Nat) (h : Handle) (x : Ports) : Run (List Bool × Handle) :=
  match bound with
  | 0 => .yields ([], h) x
  | b + 1 =>
    if need = 0 then .yields ([], h) x
    else (blockRequest p h x).andThen fun out x =>
      (ygenLoop p b (need - p.blk) out.2 x).andThen fun rest x =>
        .yields ((bitsOfNat p.blk out.1).take need ++ rest.1, rest.2) x

/-! ## The commands -/

/-- The handle YINIT constructs from a drawn key (R121). -/
def newHandle (s : State) (key : List Byte) : Handle where
  key := key
  ctr := 0
  pool := poolInit s.params
  pgRem := s.cfgPg
  ptRem := s.cfgPt
  pg := s.cfgPg
  pt := s.cfgPt

/-- The pseudocode of YINIT (R121). -/
def yinitBody (s : State) : Ending :=
  if s.cfgPg = 0#32 then invalidParameter s
  else if s.cfgPt = 0#32 then invalidParameter s
  else endRun (entropyBytes s.params.k s.ext) .nothing s fun key s =>
    .completes false false { s with handle := some (newHandle s key) }

/-- YINIT (42_yarrow R121). -/
def execYinit (s : State) : Host.Outcome State Fault Refusal :=
  finish (yinitBody s)

/-- The pseudocode of YGEN (R128). -/
def ygenBody (length : Nat) (s : State) : Ending :=
  if !lengthAdmitted length s then invalidParameter s
  else match s.handle with
    | none => invalidParameter s
    | some h => endRun (ygenLoop s.params length length h s.ext) .nothing s fun out s =>
        .completes false false { s.setSequence out.1 with handle := some out.2 }

/-- YGEN (42_yarrow R128). -/
def execYgen (length : Nat) (s : State) : Host.Outcome State Fault Refusal :=
  finish (ygenBody length s)

/-- The pseudocode of YDROP: Y_VALID <- 0 and every other field unwritten (R129). -/
def ydropBody (s : State) : Ending :=
  .completes false false { s with handle := none }

/-- YDROP (42_yarrow R129). -/
def execYdrop (s : State) : Host.Outcome State Fault Refusal :=
  finish (ydropBody s)

end Sys2Proof.Machine
end

