-- ==== Sys2Proof/Machine/Dispatch.lean ====
section
/-! DEFINITION. The dispatch: each command's meaning (30_encoding R73). -/

namespace Sys2Proof.Machine

-- One arm per row of the opcode map.
def exec (i : Instr) (s : State) : Host.Outcome State Fault Refusal :=
  match i with
  | .modexp => Sys2Proof.Machine.execModexp s
  | .mrtest => Sys2Proof.Machine.execMrtest s
  | .genprime bits => Sys2Proof.Machine.execGenprime bits s
  | .genprime3 bits => Sys2Proof.Machine.execGenprime3 bits s
  | .qcg length => Sys2Proof.Machine.execQcg length s
  | .bbs length => Sys2Proof.Machine.execBbs length s
  | .yinit => Sys2Proof.Machine.execYinit s
  | .ygen length => Sys2Proof.Machine.execYgen length s
  | .ydrop => Sys2Proof.Machine.execYdrop s
  | .freq => Sys2Proof.Machine.execFreq s
  | .runs => Sys2Proof.Machine.execRuns s
  | .excur => Sys2Proof.Machine.execExcur s
  | .pack => Sys2Proof.Machine.execPack s
  | .unpack => Sys2Proof.Machine.execUnpack s

end Sys2Proof.Machine
end

