-- ==== Sys2Proof/Machine/Step.lean ====
section
/-! DEFINITION. One step of the block and its host (00_scope R3, R6; 10_state R39; 30_encoding R77, R78). -/

namespace Sys2Proof.Machine

/-- The sequencer's turn: the word in CMD is decoded and its command executed to completion (30_encoding R74, R75, R77, R78),
in an admitted configuration (00_scope R11). -/
def sequencerStep (s : State) : Host.Outcome State Fault Refusal :=
  if configAdmitted s.params then
    match decode (fetchWord s) with
    | .ok i => exec i s
    | .error _ => rejectWord s
  else .refused .configurationNotAdmitted

/-- One step. A host action whose turn it is moves; otherwise the sequencer, if a command is in execution; otherwise nothing
moves: the block is idle, or a command hangs for ever (10_state R39, 70_reset_and_hazards R196). -/
def step (s : State) : Host.Outcome State Fault Refusal :=
  match hostTurn s with
  | some (act, rest) => hostAct act { s with host := rest }
  | none => if sequencerRuns s then sequencerStep s else .next s

/-- The state in which the very next step executes the word whose `nbits` low bits are those of `w`, the rest 0: CMD has just
been written and the host waits. The table gives every row its 32 bits. -/
def State.withFetchWord (s : State) (nbits w : Nat) : State :=
  placeCommand (BitVec.ofNat 32 (w % 2 ^ nbits)) s

end Sys2Proof.Machine
end

