-- ==== Sys2Proof/Machine/Script.lean ====
section
/-! DEFINITION. Host scripts: the assembler syntax of 30_encoding R79 to R81 as lists of host actions. -/

namespace Sys2Proof.Machine

/-- A host action that waits for BUSY = 0. -/
def waitThen (act : HostAct) : HostItem :=
  { act := act, early := false }

/-- The aligned word write of a script line (20_memory R51). -/
def scriptWrite (r : Reg) (v : Word) : HostItem :=
  waitThen (.write r.offset 4 v)

/-- A command line: the word is written to CMD, then STATUS is read once BUSY = 0 (R79). -/
def scriptLine (i : Instr) : List HostItem :=
  [scriptWrite .cmd (encode i), waitThen (.read Reg.status.offset 4)]

/-- `.wr NAME, value` (R80). -/
def scriptWr (r : Reg) (v : Word) : List HostItem :=
  [scriptWrite r v]

/-- `.wrbn NAME, value`: every limb, least significant first (R80). -/
def scriptWrbn (p : Params) (reg : Bn) (v : Nat) : List HostItem :=
  (limbsOfNat (limbCount p) v).zipIdx.map (fun c => scriptWrite (.bn reg c.2) c.1)

/-- The words that hold a bit sequence, the last one padded with 0 bits; `bound` words at most (R80). -/
def paddedWords (bound : Nat) (bits : List Bool) : List Word :=
  match bound, bits with
  | 0, _ => []
  | _ + 1, [] => []
  | n + 1, bits =>
    BitVec.ofNat 32 (natOfBits ((bits ++ List.replicate 31 false).take 32)) :: paddedWords n (bits.drop 32)

/-- `.bits b0 b1 …`: the bits through the BBUF window, then their count to BLEN (R80). -/
def scriptBits (bits : List Bool) : List HostItem :=
  (paddedWords bits.length bits).zipIdx.map (fun c => scriptWrite (.bbuf c.2) c.1)
    ++ [scriptWrite .blen (BitVec.ofNat 32 bits.length)]

/-- `.bytes x0 x1 …`: the bytes through the PBUF window, then their count to PLEN (R80). -/
def scriptBytes (bytes : List Byte) : List HostItem :=
  (paddedWords bytes.length (bytes.flatMap (fun b => bitsOfNat 8 b.toNat))).zipIdx.map
      (fun c => scriptWrite (.pbuf c.2) c.1)
    ++ [scriptWrite .plen (BitVec.ofNat 32 bytes.length)]

/-- `.rd NAME` (R80); `.expect` reads the same and the script's reader compares. -/
def scriptRd (r : Reg) : List HostItem :=
  [waitThen (.read r.offset 4)]

/-- `BATTERY`: the three tests in order, stopping at the first failure (R81). Each conditional stop skips the two actions
of every later line and the stops between them. -/
def scriptBattery : List HostItem :=
  scriptLine .freq ++ [waitThen (.stopUnlessVerdict 5)]
    ++ scriptLine .runs ++ [waitThen (.stopUnlessVerdict 2)] ++ scriptLine .excur

/-- `BBSREF length`: ARG0 to 160, then `BBS length` (R81). -/
def scriptBbsref (length : Nat) : List HostItem :=
  scriptWr .arg0 Config.referencePrimeBits ++ scriptLine (.bbs length)

end Sys2Proof.Machine
end

