-- ==== Sys2Proof/Safety.lean ====
section
/-! DEFINITION. What every state of a run satisfies, in the terms the statements use: canonical cells, the error record, the
Yarrow handle, the STATUS flags and the result bank. -/

namespace Sys2Proof.Machine

/-- Every buffer and bignum register is in the canonical form and within its capacity (10_state R31 to R33). -/
def State.cellsOk (s : State) : Bool :=
  Memory.wf s.bbuf && Memory.within s.params.lmax s.bbuf
    && Memory.wf s.pbuf && Memory.within (pbufCapacity s.params) s.pbuf
    && [Bn.a, .e, .n, .r, .p, .q, .nmod, .x].all (fun reg =>
      Memory.wf (s.bn.get reg) && Memory.within (limbCount s.params) (s.bn.get reg))

/-- ERR is a code some command reports, and ERRLOG has no bit but 1, 2 and 3 (10_state R23, 60_exceptions R170, R174). -/
def State.errorsOk (s : State) : Bool :=
  decide (s.status.err.toNat ≤ 3) && decide (s.errlog &&& 0xFFFFFFF1#32 = 0#32)

/-- A live handle has thresholds at least 1, countdowns no larger, a counter of CW bits, and YVALID copies Y_VALID
(10_state R22, R34; 42_yarrow R126). -/
def State.handleOk (s : State) : Bool :=
  decide (s.status.yvalid = s.yValid)
    && match s.handle with
      | none => true
      | some h => decide (1 ≤ h.pg.toNat ∧ 1 ≤ h.pt.toNat ∧ h.pgRem.toNat ≤ h.pg.toNat ∧ h.ptRem.toNat ≤ h.pt.toNat
          ∧ h.ctr < 2 ^ s.params.cw)

/-- While BUSY = 1 the other flags of the last command are 0, and only then can the sequencer wait (10_state R22). -/
def State.flagsOk (s : State) : Bool :=
  if s.status.busy then
    !s.status.done && !s.status.verdict && !s.status.rvalid && decide (s.status.err = 0#4)
  else !s.waiting

/-- RVALID = 1 only with a computed statistic in the result bank (10_state R22, R36). -/
def State.bankOk (s : State) : Bool :=
  !s.status.rvalid || (s.bank.n.isSome
    && ((s.bank.num.isSome && s.bank.den2.isSome) || (s.bank.theta.isSome && s.bank.numj.isSome && s.bank.den2j.isSome)))

/-- The invariant of the block: what every step from a state that satisfies it keeps, in an admitted configuration. -/
def State.Inv (s : State) : Prop :=
  configAdmitted s.params = true ∧ s.cellsOk = true ∧ s.errorsOk = true ∧ s.handleOk = true ∧ s.flagsOk = true ∧ s.bankOk = true

/-! ## What a command leaves of the flags, and what reset leaves -/

/-- The state `s` completed without an error (30_encoding R78). -/
def State.completed (s : State) (verdict rvalid : Bool) : State :=
  { s with status :=
    { busy := false, done := true, verdict := verdict, rvalid := rvalid, yvalid := s.handle.isSome, err := 0#4 } }

/-- The state `s` completed with the error of number `code` (60_exceptions R178). -/
def State.failed (s : State) (code : Nat) : State :=
  { s with
    status :=
      { busy := false, done := true, verdict := false, rvalid := false, yvalid := s.handle.isSome,
        err := BitVec.ofNat 4 code }
    errlog := s.errlog ||| BitVec.ofNat 32 (2 ^ code) }

/-- The state `s` with a command that does not end, the event history and the answers left as in `x`
(70_reset_and_hazards R196). -/
def State.hung (s : State) (x : Ports) : State :=
  { s with ext := x, waiting := true, status := { s.status with busy := true, done := false } }

/-- The reset table (10_state R44). -/
def State.ResetTable (s : State) : Prop :=
  s.regValue .id = some 0x49535031#32 ∧ s.cmd = 0#32 ∧ s.status.word = 0#32 ∧ s.errlog = 0#32 ∧ s.arg0 = none ∧
    s.cfgPg = 10#32 ∧ s.cfgPt = 20#32 ∧ s.cfgTrials = 5#32 ∧ s.cfgConst = 182138636#32 ∧ s.cfgRetry = 0#32 ∧
    s.seed = none ∧ s.blen = 0#32 ∧ s.plen = 0#32 ∧ (∀ i, Memory.get? s.bbuf i = none) ∧
    (∀ i, Memory.get? s.pbuf i = none) ∧ (∀ reg i, Memory.get? (s.bn.get reg) i = none) ∧ s.handle = none ∧
    s.bank = ⟨none, none, none, none, none, none, none, none, none⟩ ∧ s.waiting = false ∧ s.ext.history = []

/-- `v` is a word a host read of a place may return: the place's value in the layout the spec gives it, where it holds one
(10_state R21 to R38; 20_memory R54 to R57). Of an unwritten location, cell or byte it says nothing (10_state R42), and so of
each limb of a bignum register that does not count as written (log 12). -/
def State.ReadsAs (s : State) (v : Word) : Reg → Prop
  | .id => v = 0x49535031#32
  | .cmd => v = s.cmd
  | .status =>
    v.getLsbD 0 = s.status.busy ∧ v.getLsbD 1 = s.status.done ∧ v.getLsbD 2 = s.status.verdict ∧
      v.getLsbD 3 = s.status.rvalid ∧ v.getLsbD 4 = s.status.yvalid ∧ v.extractLsb' 5 3 = 0#3 ∧
      v.extractLsb' 8 4 = s.status.err ∧ v.extractLsb' 12 20 = 0#20
  | .errlog => v = s.errlog
  | .arg0 => ∀ u, s.arg0 = some u → v = u
  | .cfgPg => v = s.cfgPg
  | .cfgPt => v = s.cfgPt
  | .cfgTrials => v = s.cfgTrials
  | .cfgConst => v = s.cfgConst
  | .cfgRetry => v = s.cfgRetry
  | .seed => ∀ u, s.seed = some u → v = u
  | .blen => v = s.blen
  | .plen => v = s.plen
  | .yPgrem => ∀ h, s.handle = some h → v = h.pgRem
  | .yPtrem => ∀ h, s.handle = some h → v = h.ptRem
  | .yPg => ∀ h, s.handle = some h → v = h.pg
  | .yPt => ∀ h, s.handle = some h → v = h.pt
  | .yCtr i => ∀ h, s.handle = some h → ∀ b < 32, v.getLsbD b = h.ctr.testBit (32 * i + b)
  | .tN => ∀ u, s.bank.n = some u → v = u
  | .tOnes => ∀ u, s.bank.ones = some u → v = u
  | .tVn => ∀ u, s.bank.vn = some u → v = u
  | .tL => ∀ u, s.bank.l = some u → v = u
  | .tNum high => ∀ u, s.bank.num = some u → v = u.extractLsb' (if high then 32 else 0) 32
  | .tDen2 high => ∀ u, s.bank.den2 = some u → v = u.extractLsb' (if high then 32 else 0) 32
  | .tTheta i => ∀ a, s.bank.theta = some a → ∀ hi : i < 18, v = a[i]
  | .tNumj i => ∀ a, s.bank.numj = some a → ∀ hi : i < 18, v = a[i]
  | .tDen2j i => ∀ a, s.bank.den2j = some a → ∀ hi : i < 18, v = a[i]
  | .bn reg i => ∀ n, s.bnValue reg = some n → ∀ b < 32, v.getLsbD b = n.testBit (32 * i + b)
  | .bbuf i => ∀ k < 32, ∀ b, Memory.get? s.bbuf (32 * i + k) = some b → v.getLsbD (31 - k) = b
  | .pbuf i => ∀ k < 4, ∀ b, Memory.get? s.pbuf (4 * i + k) = some b → v.extractLsb' (24 - 8 * k) 8 = b

/-- The read-only places of the address map (20_memory R52). -/
def Reg.readOnly : Reg → Bool
  | .cmd => false
  | .arg0 => false
  | .cfgPg => false
  | .cfgPt => false
  | .cfgTrials => false
  | .cfgConst => false
  | .cfgRetry => false
  | .seed => false
  | .blen => false
  | .plen => false
  | .bn .a _ => false
  | .bn .e _ => false
  | .bn .n _ => false
  | .bbuf _ => false
  | .pbuf _ => false
  | _ => true

/-! ## Runs and events -/

/-- The next state of an outcome, if it has one. -/
def nextOf (o : Host.Outcome State Fault Refusal) : Option State :=
  match o with
  | .next s => some s
  | .fault _ => none
  | .refused _ => none

/-- A draw of the PRIME and BBS units: RandBits or RandRange (30_encoding R76). -/
def Event.isRandom : Event → Bool
  | .randBits _ _ => true
  | .randRange _ _ _ => true
  | .encryptBlock _ _ _ => false
  | .hash _ _ => false
  | .entropyBytes _ _ => false

/-- The draw of a prime candidate (40_prime R96). -/
def Event.isCandidate : Event → Bool
  | .randBits _ _ => true
  | .randRange _ _ _ => false
  | .encryptBlock _ _ _ => false
  | .hash _ _ => false
  | .entropyBytes _ _ => false

/-- An invocation of the YARROW unit: EncryptBlock, H or EntropyBytes (30_encoding R76). -/
def Event.isYarrow (e : Event) : Bool :=
  !e.isRandom

/-- `n` successive block requests of one handle: the cipher blocks in order and the handle after them (42_yarrow R122,
R128, R130). -/
def blockRequests (p : Params) (n : Nat) (h : Handle) (x : Ports) : Run (List Nat × Handle) :=
  match n with
  | 0 => .yields ([], h) x
  | k + 1 => (blockRequest p h x).andThen fun out x => (blockRequests p k out.2 x).andThen fun rest x =>
      .yields (out.1 :: rest.1, rest.2) x

/-- The ports a run ends with. -/
def Run.ports {α : Type} : Run α → Ports
  | .yields _ x => x
  | .exhausted x => x
  | .waits x => x

/-- `y` follows `x`: answers are only taken, oldest first, and events satisfying `P` are only appended. -/
def Ports.Follows (P : Event → Prop) (x y : Ports) : Prop :=
  (∃ k, y.answers = x.answers.drop k) ∧ ∃ events, y.history = x.history ++ events ∧ ∀ e ∈ events, P e

end Sys2Proof.Machine
end

