-- ==== Sys2Proof/Certificates/Slice0/Obligations.lean ====
section
/-! DEFINITION. The statements for the provers, by the section of the spec they rest on. `State.completed`, `State.failed`
and `State.hung` (Sys2Proof/Safety.lean) are the three ways R78, R178 and R196 leave STATUS and ERRLOG. -/

section Statements
open Sys2Proof Sys2Proof.Machine

/-! ## Encoding (30_encoding R70 to R75) -/

/-- Decoding the word of a well-formed command gives the command back (R70 to R73). -/
def Obligations.DecodeOfEncode : Prop :=
  ∀ i : Instr, i.wellFormed = true → decode (encode i) = .ok i

/-- Every word the decoder accepts is the word of the command it gives: no second encoding, no ignored bit (R73). -/
def Obligations.EncodeOfDecode : Prop :=
  ∀ (w : Word) (i : Instr), decode w = .ok i → i.wellFormed = true ∧ encode i = w

/-- Words the command rules of the spec write out decode to their commands (R73, R79; the words of R98 to R161). -/
def Obligations.SampleWordsDecode : Prop :=
  decode 0x00000010#32 = .ok .modexp ∧ decode 0x00000011#32 = .ok .mrtest ∧
    decode 0x00000512#32 = .ok (.genprime 5) ∧ decode 0x00000613#32 = .ok (.genprime3 6) ∧
    decode 0x00001020#32 = .ok (.qcg 16) ∧ decode 0x00000C21#32 = .ok (.bbs 12) ∧
    decode 0x00000030#32 = .ok .yinit ∧ decode 0x00001431#32 = .ok (.ygen 20) ∧ decode 0x00000032#32 = .ok .ydrop ∧
    decode 0x00000040#32 = .ok .freq ∧ decode 0x00000041#32 = .ok .runs ∧ decode 0x00000042#32 = .ok .excur ∧
    decode 0x00000050#32 = .ok .pack ∧ decode 0x00000051#32 = .ok .unpack

/-- A word whose opcode is not in the map, or of format N with a non-zero immediate, completes at once with
InvalidParameter, and nothing else changes (R74, R75). -/
def Obligations.RejectedWordsComplete : Prop :=
  ∀ s : State, hostTurn s = none → sequencerRuns s = true → configAdmitted s.params = true →
    (s.cmd.toNat % 256 ∉ [0x10, 0x11, 0x12, 0x13, 0x20, 0x21, 0x30, 0x31, 0x32, 0x40, 0x41, 0x42, 0x50, 0x51] ∨
      (s.cmd.toNat % 256 ∈ [0x10, 0x11, 0x30, 0x32, 0x40, 0x41, 0x42, 0x50, 0x51] ∧ s.cmd.toNat / 256 ≠ 0)) →
    step s = .next (s.failed 1)

/-! ## The step and the command protocol (30_encoding R77, R79; 10_state R39; 00_scope R11) -/

/-- When the sequencer moves and CMD decodes to a command, the step is that command's execution and nothing around it; in a
configuration that is not admitted it is refused (R77, R64, R11). -/
def Obligations.StepRunsDecodedCommand : Prop :=
  ∀ (s : State) (i : Instr), hostTurn s = none → sequencerRuns s = true → decode s.cmd = .ok i →
    (configAdmitted s.params = true → step s = exec i s) ∧
      (configAdmitted s.params = false → step s = .refused .configurationNotAdmitted)

/-- A host write to CMD latches the word and starts the command while BUSY = 0, and is refused while BUSY = 1 (R77). -/
def Obligations.CmdWriteStarts : Prop :=
  ∀ (s : State) (w : Word) (early : Bool) (rest : List HostItem), s.host = ⟨.write 0x004 4 w, early⟩ :: rest →
    (s.status.busy = false → s.waiting = false →
      ∃ t, step s = .next t ∧ sequencerRuns t = true ∧
        t = { s with host := rest, cmd := w, status := ⟨true, false, false, false, s.status.yvalid, 0#4⟩ }) ∧
      (s.status.busy = true → early = true → step s = .refused (.accessWhileBusy 0x004))

/-- The state the host's probe builds runs exactly the placed command at its next step (R77, R79). -/
def Obligations.PlacedWordRuns : Prop :=
  ∀ (s : State) (i : Instr), i.wellFormed = true → configAdmitted s.params = true →
    step (s.withFetchWord 32 (encode i).toNat) = exec i (placeCommand (encode i) s)

/-- With no host action to move, an idle block and a hung one stay as they are (R39, R196). -/
def Obligations.IdleAndHungStay : Prop :=
  ∀ s : State, hostTurn s = none → (s.status.busy = false ∨ s.waiting = true) → step s = .next s

/-! ## Reset (10_state R44, 70_reset_and_hazards R190, R191) -/

/-- After reset every piece of state has the value of the reset table, whatever the configuration (R44). -/
def Obligations.ResetTableHolds : Prop :=
  (∀ p : Params, (State.initial p).ResetTable) ∧ State.reset.ResetTable

/-- Reset applied from outside, between commands or during one, leaves the reset table; the configuration stays, and so do
the host's further actions and its readings, which are not the block's (R190, R191; the last is log 2). -/
def Obligations.ResetFromOutside : Prop :=
  ∀ (s : State) (answered : Nat) (early : Bool) (rest : List HostItem), s.host = ⟨.reset answered, early⟩ :: rest →
    (s.status.busy = false ∨ early = true) →
    ∃ t, step s = .next t ∧ t.ResetTable ∧ t.params = s.params ∧ t.host = rest ∧ t.reads = s.reads

/-! ## Host accesses (20_memory R51 to R61) -/

/-- An admitted host read changes nothing of the block, and returns what the place holds, in its layout: each register, the
fields of STATUS with its reserved bits 0, the halves of T_NUM and T_DEN2, the limbs of Y_CTR and of a written bignum
register, and every written cell of a BBUF word and byte of a PBUF word in its place; while BUSY = 1 only STATUS, ERRLOG, ID
and CMD are so read. `reads` and `freeIx` are the model's own record, and a limb of a bignum register that does not count as
written may read as anything (R52 to R59, R61; 10_state R22; logs 2, 8, 12). -/
def Obligations.HostReadKeepsBlock : Prop :=
  ∀ (s : State) (addr : Nat) (early : Bool) (rest : List HostItem) (r : Reg),
    s.host = ⟨.read addr 4, early⟩ :: rest → accessed s.params addr 4 = some r →
    (s.status.busy = false ∨ (early = true ∧ r ∈ [Reg.status, .errlog, .id, .cmd])) →
    ∃ v, step s = .next { s with host := rest, reads := s.reads ++ [(addr, v)], freeIx := s.freeIx + 1 } ∧
      (∀ u, s.regValue r = some u → v = u) ∧ s.ReadsAs v r

/-- A host access that is not 4 bytes wide, misaligned or to an offset the map does not list is refused; while BUSY = 1 so is
every write and every read of a place other than STATUS, ERRLOG, ID and CMD (R51, R53, R61). -/
def Obligations.HostAccessRefusals : Prop :=
  ∀ (s : State) (addr bytes : Nat) (v : Word) (early : Bool) (rest : List HostItem),
    (s.status.busy = false ∨ early = true) →
    ((bytes ≠ 4 ∨ addr % 4 ≠ 0 ∨ ∀ r : Reg, r.mapped s.params = true → r.offset ≠ addr) →
      (s.host = ⟨.read addr bytes, early⟩ :: rest → step s = .refused (.busAccessNotAdmitted addr)) ∧
        (s.host = ⟨.write addr bytes v, early⟩ :: rest → step s = .refused (.busAccessNotAdmitted addr))) ∧
      ∀ r, accessed s.params addr bytes = some r → s.status.busy = true →
        (s.host = ⟨.write addr bytes v, early⟩ :: rest → step s = .refused (.accessWhileBusy addr)) ∧
          (s.host = ⟨.read addr bytes, early⟩ :: rest → r ∉ [Reg.status, .errlog, .id, .cmd] →
            step s = .refused (.accessWhileBusy addr))

/-- The address map: an access reaches a place exactly when it is 4 bytes wide, at the place's offset, and the place exists;
no two places share an offset; every offset is a multiple of 4 below 0x60000; and each place stands at the offset the table
of R52 gives it, over the range of indices the table gives (R50, R52, R53). -/
def Obligations.AddressMap : Prop :=
  ∀ p : Params, configAdmitted p = true →
    (∀ (addr bytes : Nat) (r : Reg),
      accessed p addr bytes = some r ↔ bytes = 4 ∧ addr = r.offset ∧ r.mapped p = true) ∧
      (∀ r r' : Reg, r.mapped p = true → r'.mapped p = true → r.offset = r'.offset → r = r') ∧
      (∀ r : Reg, r.mapped p = true → r.offset % 4 = 0 ∧ r.offset < 0x60000) ∧
      (∀ e ∈ [(Reg.id, 0x000), (.cmd, 0x004), (.status, 0x008), (.errlog, 0x00C), (.arg0, 0x010), (.cfgPg, 0x014),
          (.cfgPt, 0x018), (.cfgTrials, 0x01C), (.cfgConst, 0x020), (.cfgRetry, 0x024), (.seed, 0x028), (.blen, 0x02C),
          (.plen, 0x030), (.yPgrem, 0x040), (.yPtrem, 0x044), (.yPg, 0x048), (.yPt, 0x04C), (.tN, 0x0A0), (.tOnes, 0x0A4),
          (.tVn, 0x0A8), (.tL, 0x0AC), (.tNum false, 0x0B0), (.tNum true, 0x0B4), (.tDen2 false, 0x0B8),
          (.tDen2 true, 0x0BC)],
        accessed p e.2 4 = some e.1) ∧
      (∀ i < 8, accessed p (0x080 + 4 * i) 4 = some (.yCtr i)) ∧
      (∀ i < 18, accessed p (0x100 + 4 * i) 4 = some (.tTheta i) ∧ accessed p (0x180 + 4 * i) 4 = some (.tNumj i) ∧
        accessed p (0x200 + 4 * i) 4 = some (.tDen2j i)) ∧
      (∀ e ∈ [(Bn.a, 0x400), (.e, 0x500), (.n, 0x600), (.r, 0x700), (.p, 0x800), (.q, 0x900), (.nmod, 0xA00), (.x, 0xB00)],
        ∀ i < p.w / 32, accessed p (e.2 + 4 * i) 4 = some (.bn e.1 i)) ∧
      (∀ i < p.lmax / 32, accessed p (0x10000 + 4 * i) 4 = some (.bbuf i)) ∧
      (∀ i < p.lmax / 8 / 4, accessed p (0x40000 + 4 * i) 4 = some (.pbuf i)) ∧
      ∀ r : Reg, r.mapped p = true ↔
        ((∀ i, r = .yCtr i → i < 8) ∧ (∀ i, r = .tTheta i ∨ r = .tNumj i ∨ r = .tDen2j i → i < 18) ∧
          (∀ reg i, r = .bn reg i → i < p.w / 32) ∧ (∀ i, r = .bbuf i → i < p.lmax / 32) ∧
          ∀ i, r = .pbuf i → i < p.lmax / 8 / 4)

/-- A host write of a BBUF word writes its 32 cells, cell 32·i + k the bit 31 - k of the word, and no other; the word reads
back (R54). -/
def Obligations.BbufWindow : Prop :=
  ∀ (s : State) (i : Nat) (v : Word) (early : Bool) (rest : List HostItem), configAdmitted s.params = true →
    s.host = ⟨.write (0x10000 + 4 * i) 4 v, early⟩ :: rest → i < s.params.lmax / 32 → s.status.busy = false →
    ∃ m, step s = .next { s with host := rest, bbuf := m } ∧
      (∀ k < 32, Memory.get? m (32 * i + k) = some (v.getLsbD (31 - k))) ∧
      (∀ j, j < 32 * i ∨ 32 * i + 32 ≤ j → Memory.get? m j = Memory.get? s.bbuf j) ∧
      ∀ free, bbufWord m free i = v

/-- A host write of a PBUF word writes its 4 cells, cell 4·i + k the bits 31 - 8k to 24 - 8k of the word, and no other; the
word reads back (R55). -/
def Obligations.PbufWindow : Prop :=
  ∀ (s : State) (i : Nat) (v : Word) (early : Bool) (rest : List HostItem), configAdmitted s.params = true →
    s.host = ⟨.write (0x40000 + 4 * i) 4 v, early⟩ :: rest → i < s.params.lmax / 8 / 4 → s.status.busy = false →
    ∃ m, step s = .next { s with host := rest, pbuf := m } ∧
      (∀ k < 4, Memory.get? m (4 * i + k) = some (v.extractLsb' (24 - 8 * k) 8)) ∧
      (∀ j, j < 4 * i ∨ 4 * i + 4 ≤ j → Memory.get? m j = Memory.get? s.pbuf j) ∧
      ∀ free, pbufWord m free i = v

/-- A host write of one limb of BN_A, BN_E or BN_N changes only that limb; a bignum register has a value exactly when all
its W/32 limbs are written, limb i being bits 32·i + 31 to 32·i of the value (R56, R195). -/
def Obligations.BignumLimbs : Prop :=
  (∀ (s : State) (reg : Bn) (i : Nat) (v : Word) (early : Bool) (rest : List HostItem),
    configAdmitted s.params = true → s.host = ⟨.write (Reg.bn reg i).offset 4 v, early⟩ :: rest → reg ∈ [Bn.a, .e, .n] →
    i < s.params.w / 32 → s.status.busy = false →
    ∃ m, step s = .next { s with host := rest, bn := s.bn.set reg m } ∧ Memory.get? m i = some v ∧
      ∀ j, j ≠ i → Memory.get? m j = Memory.get? (s.bn.get reg) j) ∧
    ∀ (s : State) (reg : Bn) (v : Nat), configAdmitted s.params = true →
      (s.bnValue reg = some v ↔ v < 2 ^ s.params.w ∧
        ∀ i < s.params.w / 32, Memory.get? (s.bn.get reg) i = some (BitVec.ofNat 32 (v / 2 ^ (32 * i))))

/-- A host write to a read-only place is ignored without error, and a write to each operand and configuration register
stores the word and changes nothing else (R52, R59; 10_state R24 to R30). -/
def Obligations.HostWriteEffect : Prop :=
  ∀ (s : State) (addr : Nat) (v : Word) (early : Bool) (rest : List HostItem) (r : Reg),
    s.host = ⟨.write addr 4 v, early⟩ :: rest → accessed s.params addr 4 = some r → s.status.busy = false →
    (r.readOnly = true → step s = .next { s with host := rest }) ∧
      (r = .arg0 → step s = .next { s with host := rest, arg0 := some v }) ∧
      (r = .cfgPg → step s = .next { s with host := rest, cfgPg := v }) ∧
      (r = .cfgPt → step s = .next { s with host := rest, cfgPt := v }) ∧
      (r = .cfgTrials → step s = .next { s with host := rest, cfgTrials := v }) ∧
      (r = .cfgConst → step s = .next { s with host := rest, cfgConst := v }) ∧
      (r = .cfgRetry → step s = .next { s with host := rest, cfgRetry := v }) ∧
      (r = .seed → step s = .next { s with host := rest, seed := some v }) ∧
      (r = .blen → step s = .next { s with host := rest, blen := v }) ∧
      (r = .plen → step s = .next { s with host := rest, plen := v })

/-- No host access writes the handle, and none reads Y_KEY or Y_POOL: with any other key and pool it is admitted alike and
returns the same (10_state R35). -/
def Obligations.KeyAndPoolHidden : Prop :=
  ∀ (s t : State) (h : Handle) (key pool : List Byte) (act : HostAct), s.handle = some h →
    (∀ n, act ≠ .reset n) → hostAct act s = .next t →
    t.handle = s.handle ∧
      ∃ t', hostAct act { s with handle := some { h with key := key, pool := pool } } = .next t' ∧
        t'.reads = t.reads ∧ t'.host = t.host ∧ t'.freeIx = t.freeIx

/-! ## The PRIME unit (40_prime) -/

/-- MODEXP: BN_R becomes (BN_A ^ BN_E) mod BN_N and nothing else but STATUS changes; the modulus 0 is InvalidParameter; an
unwritten operand faults, where a zero modulus does not hide it (R98, R91). -/
def Obligations.ModexpResult : Prop :=
  ∀ s : State,
    (s.bnValue .n = none → ∃ o, exec .modexp s = .fault (.unwrittenOperand o)) ∧
      (s.bnValue .n = some 0 → exec .modexp s = .next (s.failed 1)) ∧
      ∀ n, s.bnValue .n = some n → n ≠ 0 →
        (s.bnValue .a = none ∨ s.bnValue .e = none → ∃ o, exec .modexp s = .fault (.unwrittenOperand o)) ∧
          ∀ a e, s.bnValue .a = some a → s.bnValue .e = some e →
            ∃ t : State, exec .modexp s = .next (t.completed false false) ∧ t = { s with bn := { s.bn with r := t.bn.r } } ∧
              t.bnValue .r = some (a ^ e % n)

/-- `Decompose(n)` is the one pair (s, t) with n - 1 = 2^s · t, s ≥ 1 and t odd (R92). -/
def Obligations.DecomposeUnique : Prop :=
  ∀ n : Nat, n % 2 = 1 → 3 ≤ n →
    n - 1 = 2 ^ (decompose n).1 * (decompose n).2 ∧ 1 ≤ (decompose n).1 ∧ (decompose n).2 % 2 = 1 ∧
      ∀ s t : Nat, n - 1 = 2 ^ s * t → t % 2 = 1 → decompose n = (s, t)

/-- `MRRound(n, a)` passes exactly when a^t is 1, or one of a^t, a^(2t), …, a^(2^(s-1)·t) is n - 1, modulo n (R93). -/
def Obligations.MillerRabinRound : Prop :=
  ∀ n a s t : Nat, n % 2 = 1 → 5 ≤ n → 2 ≤ a → a ≤ n - 2 → n - 1 = 2 ^ s * t → t % 2 = 1 →
    (mrRound n a = true ↔ a ^ t % n = 1 ∨ ∃ i < s, a ^ (2 ^ i * t) % n = n - 1)

/-- MRTEST: its checks in their order; then it draws bases, stopping at the first composite round, and VERDICT says whether
all CFG_TRIALS rounds passed; with no answer to come it hangs (R99, R94, R65; the
answers of the draws are the free inputs of log 3). That the unanswered draw leaves no event is the model's choice of log 13. -/
def Obligations.MrtestResult : Prop :=
  ∀ s : State,
    (s.cfgTrials = 0#32 → exec .mrtest s = .next (s.failed 1)) ∧
      (s.cfgTrials ≠ 0#32 →
        (s.bnValue .n = none → exec .mrtest s = .fault (.unwrittenOperand (.bn .n))) ∧
          ∀ n, s.bnValue .n = some n →
            (n % 2 = 0 ∨ n < 5 → exec .mrtest s = .next (s.failed 1)) ∧
              (n % 2 = 1 → 5 ≤ n → ∀ (bases : List Nat) (passed : Nat),
                bases = (s.ext.answers.take s.cfgTrials.toNat).map (inRange 2 (n - 2)) →
                passed = (bases.takeWhile (mrRound n)).length →
                (passed = s.cfgTrials.toNat →
                  exec .mrtest s = .next (State.completed
                    { s with ext :=
                      { answers := s.ext.answers.drop s.cfgTrials.toNat
                        repliesLeft := s.ext.repliesLeft
                        history := s.ext.history ++ bases.map (fun a => .randRange 2 (n - 2) a) } } true false)) ∧
                  (passed < bases.length →
                    exec .mrtest s = .next (State.completed
                      { s with ext :=
                        { answers := s.ext.answers.drop (passed + 1)
                          repliesLeft := s.ext.repliesLeft
                          history := s.ext.history
                            ++ (bases.take (passed + 1)).map (fun a => .randRange 2 (n - 2) a) } } false false)) ∧
                  (passed = bases.length → passed < s.cfgTrials.toNat →
                    exec .mrtest s = .next (s.hung
                      { answers := []
                        repliesLeft := s.ext.repliesLeft
                        history := s.ext.history ++ bases.map (fun a => .randRange 2 (n - 2) a) }))))

/-- One pass of `PrimeSearch`: the bound first, then the candidate of the drawn bits, trial division, Miller-Rabin where it
does not decide, and last the test c mod 4 = 3; a rejected candidate only counts (R97, with R95 and R96;
the answers are those of log 3). That an unanswered draw leaves no event is the model's choice of log 13. -/
def Obligations.PrimeSearchPass : Prop :=
  ∀ (bits : Nat) (need3 : Bool) (trials retry sampled : Nat) (x : Ports),
    (retry ≠ 0 ∧ sampled = retry → primeSearch bits need3 trials retry sampled x = .exhausted x) ∧
      (¬(retry ≠ 0 ∧ sampled = retry) →
        (x.answers = [] → primeSearch bits need3 trials retry sampled x = .waits x) ∧
          ∀ (r : Nat) (rest : List Nat) (c : Nat) (y : Ports), x.answers = r :: rest →
            c = r % 2 ^ bits ||| 2 ^ (bits - 1) ||| 1 →
            y = ⟨rest, x.repliesLeft, x.history ++ [.randBits bits (r % 2 ^ bits)]⟩ →
            (c ∈ [2, 3, 5, 7, 11, 13, 17, 19, 23, 29, 31] →
              primeSearch bits need3 trials retry sampled x =
                if need3 = true ∧ c % 4 ≠ 3 then primeSearch bits need3 trials retry (sampled + 1) y
                else .yields (c, sampled + 1) y) ∧
              (c ∉ [2, 3, 5, 7, 11, 13, 17, 19, 23, 29, 31] →
                (∃ p ∈ [2, 3, 5, 7, 11, 13, 17, 19, 23, 29, 31], c % p = 0) →
                primeSearch bits need3 trials retry sampled x = primeSearch bits need3 trials retry (sampled + 1) y) ∧
              ((∀ p ∈ [2, 3, 5, 7, 11, 13, 17, 19, 23, 29, 31], c % p ≠ 0) →
                primeSearch bits need3 trials retry sampled x =
                  (millerRabin c trials y).andThen fun probablyPrime z =>
                    if probablyPrime = false ∨ (need3 = true ∧ c % 4 ≠ 3)
                    then primeSearch bits need3 trials retry (sampled + 1) z
                    else .yields (c, sampled + 1) z))

/-- GENPRIME and GENPRIME3: their three checks; then BN_R is the prime the search finds; exhausted, BN_R is unwritten and
ERR = 3; unanswered, they hang (R100, R101; 60_exceptions R178; draws as in log 3; that the unanswered draw leaves no event is
the model's choice of log 13). -/
def Obligations.GenprimeResult : Prop :=
  ∀ (s : State) (bits : Nat) (need3 : Bool) (i : Instr), configAdmitted s.params = true →
    i = (if need3 then .genprime3 bits else .genprime bits) →
    (bits < 2 ∨ s.params.w < bits ∨ s.cfgTrials = 0#32 → exec i s = .next (s.failed 1)) ∧
      (2 ≤ bits → bits ≤ s.params.w → s.cfgTrials ≠ 0#32 →
        (∀ p k x, primeSearch bits need3 s.cfgTrials.toNat s.cfgRetry.toNat 0 s.ext = .yields (p, k) x →
          ∃ t : State, exec i s = .next (t.completed false false) ∧ t = { s with ext := x, bn := { s.bn with r := t.bn.r } } ∧
            t.bnValue .r = some p) ∧
          (∀ x, primeSearch bits need3 s.cfgTrials.toNat s.cfgRetry.toNat 0 s.ext = .exhausted x →
            exec i s = .next (State.failed { s with ext := x, bn := { s.bn with r := [] } } 3)) ∧
          ∀ x, primeSearch bits need3 s.cfgTrials.toNat s.cfgRetry.toNat 0 s.ext = .waits x →
            exec i s = .next (s.hung x))

/-- GENPRIME and GENPRIME3 complete with the first candidate when it is a listed prime, or no listed prime divides it and
the drawn bases pass, and it is 3 mod 4 where that is asked (R100, R101, R97; draws as in log 3). -/
def Obligations.GenprimeFirstCandidate : Prop :=
  ∀ (s : State) (bits : Nat) (need3 : Bool) (i : Instr) (r c : Nat) (rest : List Nat), configAdmitted s.params = true →
    i = (if need3 then .genprime3 bits else .genprime bits) → 2 ≤ bits → bits ≤ s.params.w → s.cfgTrials ≠ 0#32 →
    s.ext.answers = r :: rest → c = r % 2 ^ bits ||| 2 ^ (bits - 1) ||| 1 → (need3 = true → c % 4 = 3) →
    (c ∈ [2, 3, 5, 7, 11, 13, 17, 19, 23, 29, 31] ∨
      ((∀ p ∈ [2, 3, 5, 7, 11, 13, 17, 19, 23, 29, 31], c % p ≠ 0) ∧ s.cfgTrials.toNat ≤ rest.length ∧
        ∀ b ∈ rest.take s.cfgTrials.toNat, mrRound c (inRange 2 (c - 2) b) = true)) →
    ∃ t : State, exec i s = .next (t.completed false false) ∧ t.bnValue .r = some c ∧
      t = { s with ext := t.ext, bn := { s.bn with r := t.bn.r } } ∧
      t.ext.answers = rest.drop (if c ∈ [2, 3, 5, 7, 11, 13, 17, 19, 23, 29, 31] then 0 else s.cfgTrials.toNat)

/-- The result of a completed GENPRIME or GENPRIME3 has exactly `bits` bits, is odd, is 3 mod 4 for GENPRIME3, and is the
candidate of the command's last RandBits draw; it is a listed prime and no base was drawn after it, or no listed prime divides
it and the last CFG_TRIALS draws of the command are the bases of its rounds, in range and each passed (R100, R101, R103; the
spec derives it from R95 to R97). -/
def Obligations.GenprimeResultRange : Prop :=
  ∀ (s t : State) (bits : Nat) (need3 : Bool), configAdmitted s.params = true →
    exec (if need3 then .genprime3 bits else .genprime bits) s = .next t → t.status.done = true → t.status.err = 0#4 →
    ∃ (v r : Nat) (earlier : List Event) (bases : List Nat), t.bnValue .r = some v ∧
      2 ^ (bits - 1) ≤ v ∧ v < 2 ^ bits ∧ v % 2 = 1 ∧ (need3 = true → v % 4 = 3) ∧
      v = r ||| 2 ^ (bits - 1) ||| 1 ∧
      t.ext.history = s.ext.history ++ earlier ++ .randBits bits r :: bases.map (fun b => .randRange 2 (v - 2) b) ∧
      ((v ∈ [2, 3, 5, 7, 11, 13, 17, 19, 23, 29, 31] ∧ bases = []) ∨
        ((∀ p ∈ [2, 3, 5, 7, 11, 13, 17, 19, 23, 29, 31], v % p ≠ 0) ∧ bases.length = s.cfgTrials.toNat ∧
          ∀ b ∈ bases, 2 ≤ b ∧ b ≤ v - 2 ∧ mrRound v b = true))

/-- PrimeSearchExhausted comes only with CFG_RETRY ≠ 0, after exactly CFG_RETRY candidate draws of the command, for BBS over
the searches for p and every q together (60_exceptions R173). -/
def Obligations.ExhaustionCountsCandidates : Prop :=
  ∀ (i : Instr) (s t : State), configAdmitted s.params = true → exec i s = .next t → t.status.done = true →
    t.status.err = 3#4 →
    s.cfgRetry ≠ 0#32 ∧ ∃ events, t.ext.history = s.ext.history ++ events ∧
      events.countP Event.isCandidate = s.cfgRetry.toNat

/-! ## The generators (41_generators) -/

/-- QCG: its length checks; then bit k is the parity of the (k+1)-th iterate of the recurrence from SEED, BLEN the length,
and every further cell is unchanged; an unwritten SEED faults (R111, R110). -/
def Obligations.QcgResult : Prop :=
  ∀ (s : State) (length : Nat),
    (length = 0 ∨ s.params.lmax < length → exec (.qcg length) s = .next (s.failed 1)) ∧
      (1 ≤ length → length ≤ s.params.lmax →
        (s.seed = none → exec (.qcg length) s = .fault (.unwrittenOperand .seed)) ∧
          ∀ seed, s.seed = some seed →
            ∃ m, exec (.qcg length) s =
                .next (State.completed { s with bbuf := m, blen := BitVec.ofNat 32 length } false false) ∧
              (∀ k < length, Memory.get? m k = some (decide
                ((fun x => (1664525 * x ^ 2 + 1 * x + 1013904223) % (2 ^ 32 - 1))^[k + 1] seed.toNat % 2 = 1))) ∧
              ∀ k, length ≤ k → Memory.get? m k = Memory.get? s.bbuf k)

/-- The QCG recurrence depends only on the residue of its state modulo 2^32 - 1, over all integers, and a seed and its
residue give the same sequence (R112; the spec derives it from R110). -/
def Obligations.QcgSeedResidue : Prop :=
  (∀ x : Int, (1664525 * x ^ 2 + 1 * x + 1013904223) % (2 ^ 32 - 1) =
      (1664525 * (x % (2 ^ 32 - 1)) ^ 2 + 1 * (x % (2 ^ 32 - 1)) + 1013904223) % (2 ^ 32 - 1)) ∧
    ∀ (s : State) (length : Nat) (seed : Word), s.seed = some seed → 1 ≤ length → length ≤ s.params.lmax →
      ∃ m, exec (.qcg length) s =
          .next (State.completed { s with bbuf := m, blen := BitVec.ofNat 32 length } false false) ∧
        exec (.qcg length) { s with seed := some (BitVec.ofNat 32 (seed.toNat % (2 ^ 32 - 1))) } =
          .next (State.completed
            { s with
              seed := some (BitVec.ofNat 32 (seed.toNat % (2 ^ 32 - 1)))
              bbuf := m
              blen := BitVec.ofNat 32 length } false false)

/-- A shorter QCG request is a prefix of a longer one with the same seed (R118; the spec derives it from R111). -/
def Obligations.QcgPrefix : Prop :=
  ∀ (s t u : State) (short long : Nat), 1 ≤ short → short ≤ long → long ≤ s.params.lmax →
    exec (.qcg short) s = .next t → exec (.qcg long) s = .next u →
    ∀ k < short, (Memory.get? t.bbuf k).isSome = true ∧ Memory.get? t.bbuf k = Memory.get? u.bbuf k

/-- BBS setup and seed: q is searched again while it equals p, p being kept; a seed is drawn again while it is not coprime to
the modulus; x_0 is the square of the seed; the draws come in this order (R113, R114; draws as in log 3; that an unanswered
draw leaves no event is the model's choice of log 13). -/
def Obligations.BbsSetupAndSeed : Prop :=
  (∀ (bits p trials retry sampled : Nat) (x : Ports),
    (∀ q k y, primeSearch bits true trials retry sampled x = .yields (q, k) y →
      bbsFactor bits p trials retry sampled x =
        if q ≠ p then .yields (q, k) y else bbsFactor bits p trials retry k y) ∧
      (∀ y, primeSearch bits true trials retry sampled x = .exhausted y →
        bbsFactor bits p trials retry sampled x = .exhausted y) ∧
      ∀ y, primeSearch bits true trials retry sampled x = .waits y →
        bbsFactor bits p trials retry sampled x = .waits y) ∧
    (∀ (nmod : Nat) (x : Ports),
      (x.answers = [] → bbsSeedDraw nmod x = .waits x) ∧
        ∀ (r : Nat) (rest : List Nat) (seed : Nat) (y : Ports), x.answers = r :: rest → seed = inRange 1 (nmod - 1) r →
          y = ⟨rest, x.repliesLeft, x.history ++ [.randRange 1 (nmod - 1) seed]⟩ →
          bbsSeedDraw nmod x = if Nat.gcd seed nmod = 1 then .yields seed y else bbsSeedDraw nmod y) ∧
    ∀ (bits trials retry : Nat) (x : Ports),
      bbsStart bits trials retry x =
        (primeSearch bits true trials retry 0 x).andThen fun p y =>
          (bbsFactor bits p.1 trials retry p.2 y).andThen fun q z =>
            (bbsSeedDraw (p.1 * q.1) z).andThen fun seed u => .yields ((p.1, q.1), seed * seed % (p.1 * q.1)) u

/-- BBS: its five checks in their order and the fault of an unwritten ARG0; then the factors, their product and the last
state in BN_P, BN_Q, BN_NMOD and BN_X, bit k the parity of the (k+1)-th square of x_0; exhausted, all its results are
unwritten, BLEN = 0 and ERR = 3; unanswered, it hangs. That a hung BBS leaves BLEN as it was, although R116 sets it to 0 before
the first draw, is the model's choice of log 6, and that the unanswered draw leaves no event that of log 13 (R116, R115; 60_exceptions R178;
draws as in log 3). -/
def Obligations.BbsResult : Prop :=
  ∀ (s : State) (length : Nat), configAdmitted s.params = true →
    (length = 0 ∨ s.params.lmax < length → exec (.bbs length) s = .next (s.failed 1)) ∧
      (1 ≤ length → length ≤ s.params.lmax →
        (s.arg0 = none → exec (.bbs length) s = .fault (.unwrittenOperand .arg0)) ∧
          ∀ pb, s.arg0 = some pb →
            (pb.toNat < 2 ∨ s.params.w < 2 * pb.toNat ∨ s.cfgTrials = 0#32 →
              exec (.bbs length) s = .next (s.failed 1)) ∧
              (2 ≤ pb.toNat → 2 * pb.toNat ≤ s.params.w → s.cfgTrials ≠ 0#32 →
                (∀ p q x0 x, bbsStart pb.toNat s.cfgTrials.toNat s.cfgRetry.toNat s.ext = .yields ((p, q), x0) x →
                  ∃ t : State, exec (.bbs length) s = .next (t.completed false false) ∧
                    t = { s with
                      ext := x
                      bbuf := t.bbuf
                      blen := BitVec.ofNat 32 length
                      bn := { s.bn with p := t.bn.p, q := t.bn.q, nmod := t.bn.nmod, x := t.bn.x } } ∧
                    t.bnValue .p = some p ∧ t.bnValue .q = some q ∧ t.bnValue .nmod = some (p * q) ∧
                    t.bnValue .x = some ((fun y => y * y % (p * q))^[length] x0) ∧
                    (∀ k < length, Memory.get? t.bbuf k =
                      some (decide ((fun y => y * y % (p * q))^[k + 1] x0 % 2 = 1))) ∧
                    ∀ k, length ≤ k → Memory.get? t.bbuf k = Memory.get? s.bbuf k) ∧
                  (∀ x, bbsStart pb.toNat s.cfgTrials.toNat s.cfgRetry.toNat s.ext = .exhausted x →
                    exec (.bbs length) s = .next (State.failed
                      { s with
                        ext := x
                        bbuf := []
                        blen := 0#32
                        bn := { s.bn with p := [], q := [], nmod := [], x := [] } } 3)) ∧
                  ∀ x, bbsStart pb.toNat s.cfgTrials.toNat s.cfgRetry.toNat s.ext = .waits x →
                    exec (.bbs length) s = .next (s.hung x)))

/-- After a completed BBS the factors are distinct, both 3 mod 4 with exactly ARG0 bits, and the modulus is their exact
product (R116; the spec derives it from R113). -/
def Obligations.BbsFactors : Prop :=
  ∀ (s t : State) (length : Nat) (pb : Word), configAdmitted s.params = true → s.arg0 = some pb →
    exec (.bbs length) s = .next t → t.status.done = true → t.status.err = 0#4 →
    ∃ p q x : Nat, t.bnValue .p = some p ∧ t.bnValue .q = some q ∧ t.bnValue .nmod = some (p * q) ∧
      t.bnValue .x = some x ∧ p ≠ q ∧ p % 4 = 3 ∧ q % 4 = 3 ∧ 2 ^ (pb.toNat - 1) ≤ p ∧ p < 2 ^ pb.toNat ∧
      2 ^ (pb.toNat - 1) ≤ q ∧ q < 2 ^ pb.toNat ∧ x < p * q

/-- With ARG0 = 2, 3 or 4 BBS never completes without an error, whatever CFG_RETRY and the answers: with CFG_RETRY = 0 it stays busy for ever, and with
CFG_RETRY ≠ 0 and as many answers it ends with PrimeSearchExhausted (R117; the spec derives it from R113 and R101). -/
def Obligations.BbsSmallPrimeBits : Prop :=
  ∀ (s t : State) (length : Nat) (pb : Word), configAdmitted s.params = true → s.arg0 = some pb → 2 ≤ pb.toNat →
    pb.toNat ≤ 4 → s.cfgTrials ≠ 0#32 → 1 ≤ length → length ≤ s.params.lmax → exec (.bbs length) s = .next t →
    ¬(t.status.done = true ∧ t.status.err = 0#4) ∧
      (s.cfgRetry = 0#32 → t.status.busy = true ∧ t.status.done = false) ∧
      (s.cfgRetry ≠ 0#32 → s.cfgRetry.toNat ≤ s.ext.answers.length → t.status.done = true ∧ t.status.err = 3#4)

/-! ## The YARROW unit (42_yarrow) -/

/-- YINIT: its two checks; then the handle is built from one drawn key with counter 0, both countdowns at the latched
thresholds and the pool of PoolInit, by default ELEN bytes of 0; unanswered, it hangs (R121, R125; draws as in log 3; that the
unanswered draw leaves no event is the model's choice of log 13). -/
def Obligations.YinitResult : Prop :=
  ∀ s : State,
    (s.params.altPool = none → poolInit s.params = List.replicate s.params.elen 0#8) ∧
    (s.cfgPg = 0#32 ∨ s.cfgPt = 0#32 → exec .yinit s = .next (s.failed 1)) ∧
      (s.cfgPg ≠ 0#32 → s.cfgPt ≠ 0#32 →
        (s.ext.answers = [] → exec .yinit s = .next (s.hung s.ext)) ∧
          ∀ (r : Nat) (rest : List Nat) (key : List Byte), s.ext.answers = r :: rest → key = bytesOfNat s.params.k r →
            exec .yinit s = .next (State.completed
              { s with
                ext := ⟨rest, s.ext.repliesLeft, s.ext.history ++ [.entropyBytes s.params.k key]⟩
                handle := some
                  { key := key, ctr := 0, pool := poolInit s.params, pgRem := s.cfgPg, ptRem := s.cfgPt, pg := s.cfgPg,
                    pt := s.cfgPt } } false false))

/-- One block request with every invocation answered and the default chain: the rekey when Y_PGREM = 0, then the reseed when
Y_PTREM = 0, then the emitted block, with the key, counter, pool, countdowns and the exact events of each; and the default
FitBlock is the block's first K bytes, most significant first, the default FitDigest the digest's first K bytes, the default
PoolAccum the fresh pull and the default PoolOut the pool (R122 to R126, R133, R134; draws as in log 3). That an unanswered
entropy pull leaves no event is the model's choice of log 13. -/
def Obligations.BlockRequestSteps : Prop :=
  (∀ p : Params,
    (p.altFitBlock = none → p.blk % 8 = 0 → 8 * p.k ≤ p.blk → ∀ block : Nat, (fitBlock p block).length = p.k ∧
      ∀ j < p.k, (fitBlock p block)[j]? = some (BitVec.ofNat 8 (block / 2 ^ (p.blk - 8 * (j + 1))))) ∧
      (p.altFitDigest = none → ∀ digest, fitDigest p digest = digest.take p.k) ∧
      (p.altPool = none → (∀ pool raw, poolAccum p pool raw = raw) ∧ ∀ pool, poolOut p pool = pool)) ∧
  ∀ (p : Params) (h : Handle) (answers : List Nat) (history fired : List Event) (key1 : List Byte) (pg1 : Word),
    p.altChain = none →
    key1 = (if h.pgRem = 0#32 then fitBlock p (cipherBlock p h.key h.ctr) else h.key) →
    fired = (if h.pgRem = 0#32 then [.encryptBlock h.key h.ctr (cipherBlock p h.key h.ctr)] else []) →
    pg1 = (if h.pgRem = 0#32 then h.pg else h.pgRem) →
    (h.ptRem ≠ 0#32 →
      blockRequest p h ⟨answers, none, history⟩ =
        .yields
          (cipherBlock p key1 h.ctr,
            { h with key := key1, ctr := (h.ctr + 1) % 2 ^ p.cw, pgRem := pg1 - 1#32, ptRem := h.ptRem - 1#32 })
          ⟨answers, none, history ++ fired ++ [.encryptBlock key1 h.ctr (cipherBlock p key1 h.ctr)]⟩) ∧
      (h.ptRem = 0#32 → answers = [] → blockRequest p h ⟨answers, none, history⟩ = .waits ⟨[], none, history ++ fired⟩) ∧
      (h.ptRem = 0#32 → ∀ (r : Nat) (rest : List Nat) (raw pool e v1 v2 v3 d key2 : List Byte) (ctr2 : Nat),
        answers = r :: rest → raw = bytesOfNat p.elen r → pool = poolAccum p h.pool raw → e = poolOut p pool →
        v1 = hashBytes p (key1 ++ e) → v2 = hashBytes p (v1 ++ e) → v3 = hashBytes p (v2 ++ e) →
        d = hashBytes p (v3 ++ key1) → key2 = fitDigest p d → ctr2 = (h.ctr + 1) % 2 ^ p.cw →
        blockRequest p h ⟨answers, none, history⟩ =
          .yields
            (cipherBlock p key2 ctr2,
              { h with
                key := key2
                ctr := (ctr2 + 1) % 2 ^ p.cw
                pool := pool
                pgRem := pg1 - 1#32
                ptRem := h.pt - 1#32 })
            ⟨rest, none, history ++ fired ++
              [.entropyBytes p.elen raw, .hash (key1 ++ e) v1, .hash (v1 ++ e) v2, .hash (v2 ++ e) v3, .hash (v3 ++ key1) d,
                .encryptBlock key2 ctr2 (cipherBlock p key2 ctr2)]⟩)

/-- Each block request adds 1 or 2 to Y_CTR modulo 2^CW, and within fewer than 2^(CW-1) consecutive requests no counter value
is encrypted by step 3 twice (R131; the spec derives it from R123, R125 and R126). -/
def Obligations.CounterMonotone : Prop :=
  ∀ (p : Params) (h h1 : Handle) (x x1 : Ports) (b : Nat), 1 ≤ p.cw → h.ctr < 2 ^ p.cw →
    blockRequest p h x = .yields (b, h1) x1 →
    (h1.ctr = (h.ctr + 1) % 2 ^ p.cw ∨ h1.ctr = (h.ctr + 2) % 2 ^ p.cw) ∧
      ∀ (m : Nat) (blocks : List Nat) (h2 h3 : Handle) (x2 x3 : Ports) (b' : Nat) (k k' : List Byte) (c c' : Nat),
        m + 2 < 2 ^ (p.cw - 1) → blockRequests p m h1 x1 = .yields (blocks, h2) x2 →
        blockRequest p h2 x2 = .yields (b', h3) x3 →
        x1.history.getLast? = some (.encryptBlock k c b) → x3.history.getLast? = some (.encryptBlock k' c' b') → c ≠ c'

/-- The cadence: after n requests of a fresh handle a rekey is due exactly when n ≥ 1 is a multiple of Y_PG and a reseed
exactly when n ≥ 1 is a multiple of Y_PT, and request n + 1 encrypts in step 3 the counter (n + n / Y_PT) mod 2^CW (R130;
the spec derives it from R121 to R126). -/
def Obligations.Cadence : Prop :=
  ∀ (p : Params) (h h1 : Handle) (x x1 : Ports) (n : Nat) (blocks : List Nat), h.ctr = 0 → h.pgRem = h.pg →
    h.ptRem = h.pt → h.pg ≠ 0#32 → h.pt ≠ 0#32 → blockRequests p n h x = .yields (blocks, h1) x1 →
    (h1.pgRem = 0#32 ↔ 1 ≤ n ∧ n % h.pg.toNat = 0) ∧ (h1.ptRem = 0#32 ↔ 1 ≤ n ∧ n % h.pt.toNat = 0) ∧
      ∀ (b : Nat) (h2 : Handle) (x2 : Ports), blockRequest p h1 x1 = .yields (b, h2) x2 →
        ∃ key, x2.history.getLast? = some (.encryptBlock key ((n + n / h.pt.toNat) % 2 ^ p.cw) b)

/-- YGEN: its checks in their order; then exactly ⌈length / BLK⌉ block requests, bit k being bit BLK - 1 - (k mod BLK) of block
k div BLK, the handle advanced by those requests, every further cell unchanged; unanswered, it hangs. That a hung YGEN leaves
BLEN, BBUF and the handle as they were, although R128 sets BLEN to 0 first and earlier requests advance the handle, is the
model's choice of log 6, and that the unanswered invocation leaves no event that of log 13. With the cipher and hash answering and an answer for each request, the requests yield their blocks
(R128, R127; the spec derives the number of requests from the loop; the answers are the free inputs of logs 3 and 4). -/
def Obligations.YgenResult : Prop :=
  ∀ (s : State) (length : Nat), configAdmitted s.params = true →
    (length = 0 ∨ s.params.lmax < length → exec (.ygen length) s = .next (s.failed 1)) ∧
      (1 ≤ length → length ≤ s.params.lmax →
        (s.handle = none → exec (.ygen length) s = .next (s.failed 1)) ∧
          ∀ (h : Handle) (n : Nat), s.handle = some h → n = (length + s.params.blk - 1) / s.params.blk →
            (∀ blocks h' x, blockRequests s.params n h s.ext = .yields (blocks, h') x →
              ∃ m, exec (.ygen length) s = .next (State.completed
                  { s with ext := x, handle := some h', bbuf := m, blen := BitVec.ofNat 32 length } false false) ∧
                (∀ k < length, ∃ b, blocks[k / s.params.blk]? = some b ∧
                  Memory.get? m k = some (b.testBit (s.params.blk - 1 - k % s.params.blk))) ∧
                ∀ k, length ≤ k → Memory.get? m k = Memory.get? s.bbuf k) ∧
              (∀ x, blockRequests s.params n h s.ext = .waits x → exec (.ygen length) s = .next (s.hung x)) ∧
              (s.ext.repliesLeft = none → n ≤ s.ext.answers.length →
                ∃ blocks h' x, blockRequests s.params n h s.ext = .yields (blocks, h') x))

/-- Two YGEN commands give what one gives for the sum of their lengths when the first length is a multiple of BLK (R128). -/
def Obligations.YgenSplit : Prop :=
  ∀ (s t u v : State) (a b : Nat), configAdmitted s.params = true → 1 ≤ a → 1 ≤ b → a + b ≤ s.params.lmax →
    a % s.params.blk = 0 → exec (.ygen a) s = .next t → t.status.done = true → t.status.err = 0#4 →
    exec (.ygen b) t = .next u → u.status.done = true → u.status.err = 0#4 → exec (.ygen (a + b)) s = .next v →
    v.handle = u.handle ∧ v.ext = u.ext ∧ v.status = u.status ∧
      (∀ k < a, Memory.get? v.bbuf k = Memory.get? t.bbuf k) ∧
      ∀ k < b, Memory.get? v.bbuf (a + k) = Memory.get? u.bbuf k

/-- YDROP destroys the handle and changes nothing else but STATUS (R129; an absent handle is log 5). -/
def Obligations.YdropResult : Prop :=
  ∀ s : State, exec .ydrop s = .next (State.completed { s with handle := none } false false)

/-- Only a successful YINIT, YGEN or YDROP writes the handle: it survives every error and every other command (10_state R34,
60_exceptions R179). That it also survives a YGEN that hangs after a request has advanced it is the model's choice of log 6. -/
def Obligations.HandleWriters : Prop :=
  ∀ (i : Instr) (s t : State), exec i s = .next t → t.handle ≠ s.handle →
    (i = .yinit ∨ (∃ n, i = .ygen n) ∨ i = .ydrop) ∧ t.status.done = true ∧ t.status.err = 0#4

/-- Which primitives a command invokes: MODEXP, QCG, YDROP, the STAT commands, PACK and UNPACK none; MRTEST only RandRange;
GENPRIME, GENPRIME3 and BBS only RandBits and RandRange; YINIT only EntropyBytes; YGEN only EncryptBlock, H and EntropyBytes;
and answers are only taken, events only appended (30_encoding R76; 42_yarrow R133). -/
def Obligations.PrimitivesByCommand : Prop :=
  ∀ (i : Instr) (s t : State), configAdmitted s.params = true → exec i s = .next t →
    match i with
    | .mrtest => Ports.Follows (fun e => ∃ lo hi v, e = .randRange lo hi v) s.ext t.ext
    | .genprime _ => Ports.Follows (fun e => e.isRandom = true) s.ext t.ext
    | .genprime3 _ => Ports.Follows (fun e => e.isRandom = true) s.ext t.ext
    | .bbs _ => Ports.Follows (fun e => e.isRandom = true) s.ext t.ext
    | .yinit => Ports.Follows (fun e => ∃ count bytes, e = .entropyBytes count bytes) s.ext t.ext
    | .ygen _ => Ports.Follows (fun e => e.isYarrow = true) s.ext t.ext
    | .modexp => t.ext = s.ext
    | .qcg _ => t.ext = s.ext
    | .ydrop => t.ext = s.ext
    | .freq => t.ext = s.ext
    | .runs => t.ext = s.ext
    | .excur => t.ext = s.ext
    | .pack => t.ext = s.ext
    | .unpack => t.ext = s.ext

/-! ## Errors (60_exceptions) -/

/-- The error codes: a command that ends reports 0, 1, 2 or 3 and never 4; YDROP reports no error; 2 comes only from RUNS and
EXCUR, from EXCUR only where the closing 0 does not count; 3 only from GENPRIME, GENPRIME3 and BBS with CFG_RETRY ≠ 0; and
ERRLOG gains exactly the bit of the code (R170, R172, R173, R174; 10_state R23). -/
def Obligations.ErrorCodesByCommand : Prop :=
  ∀ (i : Instr) (s t : State), configAdmitted s.params = true → exec i s = .next t → t.status.done = true →
    (t.status.err = 0#4 ∧ t.errlog = s.errlog) ∨
      (t.status.err = 1#4 ∧ t.errlog = s.errlog ||| 0x2#32 ∧ i ≠ .ydrop) ∨
      (t.status.err = 2#4 ∧ t.errlog = s.errlog ||| 0x4#32 ∧ (i = .runs ∨ (i = .excur ∧ s.params.excLClosing = false))) ∨
      (t.status.err = 3#4 ∧ t.errlog = s.errlog ||| 0x8#32 ∧ s.cfgRetry ≠ 0#32 ∧
        ∃ n, i = .genprime n ∨ i = .genprime3 n ∨ i = .bbs n)

/-! ## The STAT unit (43_stat_tests) -/

/-- FREQ: its checks, with the result bank unwritten after each; the fault when a cell of the sequence is unwritten; else T_N, T_ONES,
T_NUM = |2·o - len|, T_DEN2 = len and the verdict of the comparison (R143, R144). -/
def Obligations.FreqResult : Prop :=
  ∀ s : State, configAdmitted s.params = true →
    (s.blen.toNat < 2 ∨ s.params.lmax < s.blen.toNat ∨ s.cfgConst = 0#32 →
      exec .freq s = .next (State.failed { s with bank := Bank.unwritten } 1)) ∧
      (2 ≤ s.blen.toNat → s.blen.toNat ≤ s.params.lmax → s.cfgConst ≠ 0#32 →
        ((∃ i < s.blen.toNat, Memory.get? s.bbuf i = none) → ∃ o, exec .freq s = .fault (.unwrittenOperand o)) ∧
          ∀ (bits : List Bool) (o : Nat), bits.length = s.blen.toNat →
            (∀ k < s.blen.toNat, Memory.get? s.bbuf k = bits[k]?) → o = bits.count true →
            ∃ ones num den2, exec .freq s = .next (State.completed
                { s with bank := { Bank.unwritten with n := some s.blen, ones := some ones, num := some num, den2 := some den2 } }
                (decide ((2 * (o : Int) - s.blen.toNat).natAbs ^ 2 * 10 ^ 16 ≤ s.cfgConst.toNat ^ 2 * s.blen.toNat))
                true) ∧
              ones.toNat = o ∧ num.toNat = (2 * (o : Int) - s.blen.toNat).natAbs ∧ den2.toNat = s.blen.toNat)

/-- RUNS: its checks and fault as FREQ; then T_N, T_ONES, T_VN; with all bits equal DegenerateInput with no statistic; else
T_NUM = |len·V - 2·o·z|, T_DEN2 = 8·len·o·z and the verdict of the comparison (R143, R145). -/
def Obligations.RunsResult : Prop :=
  ∀ s : State, configAdmitted s.params = true →
    (s.blen.toNat < 2 ∨ s.params.lmax < s.blen.toNat ∨ s.cfgConst = 0#32 →
      exec .runs s = .next (State.failed { s with bank := Bank.unwritten } 1)) ∧
      (2 ≤ s.blen.toNat → s.blen.toNat ≤ s.params.lmax → s.cfgConst ≠ 0#32 →
        ((∃ i < s.blen.toNat, Memory.get? s.bbuf i = none) → ∃ o, exec .runs s = .fault (.unwrittenOperand o)) ∧
          ∀ (bits : List Bool) (len o z v : Nat) (d : Int), bits.length = s.blen.toNat →
            (∀ k < s.blen.toNat, Memory.get? s.bbuf k = bits[k]?) → len = s.blen.toNat → o = bits.count true →
            z = len - o → v = 1 + (List.range (len - 1)).countP (fun k => bits[k]? != bits[k + 1]?) →
            d = (len : Int) * v - 2 * o * z →
            ∃ (ones vn : Word), ones.toNat = o ∧ vn.toNat = v ∧
              (o = 0 ∨ z = 0 → exec .runs s = .next (State.failed
                { s with bank := { Bank.unwritten with n := some s.blen, ones := some ones, vn := some vn } } 2)) ∧
              (o ≠ 0 → z ≠ 0 → ∃ num den2, exec .runs s = .next (State.completed
                  { s with bank :=
                    { Bank.unwritten with
                      n := some s.blen, ones := some ones, vn := some vn, num := some num, den2 := some den2 } }
                  (decide (d.natAbs ^ 2 * 10 ^ 16 ≤ s.cfgConst.toNat ^ 2 * (8 * len * o * z))) true) ∧
                num.toNat = d.natAbs ∧ den2.toNat = 8 * len * o * z))

/-- EXCUR: its checks and fault as FREQ; then T_N, T_L and the 18 visit counts of the walk; with L = 0 DegenerateInput with no
statistic; else the 18 numerators θ_j - L, the 18 squared denominators 2·L·(4·|j| - 2), and the verdict that all 18 are
strictly below (R143, R146 to R152). Entry i is state i - 9 below 9 and i - 8 from 9 on (10_state R37). -/
def Obligations.ExcurResult : Prop :=
  ∀ s : State, configAdmitted s.params = true →
    (s.blen.toNat < 2 ∨ s.params.lmax < s.blen.toNat ∨ s.cfgConst = 0#32 →
      exec .excur s = .next (State.failed { s with bank := Bank.unwritten } 1)) ∧
      (2 ≤ s.blen.toNat → s.blen.toNat ≤ s.params.lmax → s.cfgConst ≠ 0#32 →
        ((∃ i < s.blen.toNat, Memory.get? s.bbuf i = none) → ∃ o, exec .excur s = .fault (.unwrittenOperand o)) ∧
          ∀ (bits : List Bool) (walkAt : Nat → Int) (visitsOf : Int → Nat) (state : Nat → Int) (l : Nat),
            bits.length = s.blen.toNat → (∀ k < s.blen.toNat, Memory.get? s.bbuf k = bits[k]?) →
            (walkAt = fun k : Nat => 2 * ((bits.take k).count true : Int) - k) →
            (visitsOf = fun j : Int => (List.range s.blen.toNat).countP (fun k => decide (walkAt (k + 1) = j))) →
            (state = fun i : Nat => if i < 9 then (i : Int) - 9 else (i : Int) - 8) →
            l = visitsOf 0 + (if s.params.excLClosing then 1 else 0) →
            ∃ (lw : Word) (theta : Vector Word 18), lw.toNat = l ∧
              (∀ (i : Nat) (hi : i < 18), theta[i].toNat = visitsOf (state i)) ∧
              (l = 0 → exec .excur s = .next (State.failed
                { s with bank := { Bank.unwritten with n := some s.blen, l := some lw, theta := some theta } } 2)) ∧
              (l ≠ 0 → ∃ numj den2j : Vector Word 18, exec .excur s = .next (State.completed
                  { s with bank :=
                    { Bank.unwritten with
                      n := some s.blen, l := some lw, theta := some theta, numj := some numj, den2j := some den2j } }
                  (decide (∀ i < 18, (visitsOf (state i) : Int) - l ≤ 0 ∨
                    ((visitsOf (state i) : Int) - l).natAbs ^ 2 * 10 ^ 16
                      < s.cfgConst.toNat ^ 2 * (2 * l * (4 * (state i).natAbs - 2)))) true) ∧
                ∀ (i : Nat) (hi : i < 18), numj[i].toInt = (visitsOf (state i) : Int) - l ∧
                  den2j[i].toNat = 2 * l * (4 * (state i).natAbs - 2)))

/-- The two comparisons on integers are the real comparisons of num / sqrt(den2) with CFG_CONST / 10^8 (R142, R141; the
spec derives it). -/
def Obligations.ComparatorIsReal : Prop :=
  ∀ (c : Word) (den2 : Nat), c ≠ 0#32 → 0 < den2 →
    (∀ num : Nat, leConst c num den2 = true ↔ (num : ℝ) / Real.sqrt den2 ≤ (c.toNat : ℝ) / 10 ^ 8) ∧
      ∀ num : Int, ltConst c num den2 = true ↔ (num : ℝ) / Real.sqrt den2 < (c.toNat : ℝ) / 10 ^ 8

/-- The outcome of a test depends on nothing but the sequence, its length and the threshold, in one configuration; in
particular not on the result bank that earlier tests left (R153; the spec derives it). -/
def Obligations.TestsAreIndependent : Prop :=
  ∀ (i : Instr) (s s' t : State), i ∈ [Instr.freq, .runs, .excur] → s'.params = s.params → s'.blen = s.blen →
    s'.cfgConst = s.cfgConst → (∀ k < s.blen.toNat, Memory.get? s'.bbuf k = Memory.get? s.bbuf k) →
    exec i s = .next t →
    ∃ t', exec i s' = .next t' ∧ t'.bank = t.bank ∧ t'.status.verdict = t.status.verdict ∧
      t'.status.rvalid = t.status.rvalid ∧ t'.status.err = t.status.err ∧ t'.status.done = t.status.done

/-! ## The PACK unit (44_packing) -/

/-- PACK: InvalidParameter above LMAX; the fault when a bit of the whole bytes is unwritten; else PLEN = BLEN div 8, bit 7 - t
of byte j is cell 8·j + t, and every further byte is unchanged (R160). -/
def Obligations.PackResult : Prop :=
  ∀ s : State,
    (s.params.lmax < s.blen.toNat → exec .pack s = .next (s.failed 1)) ∧
      (s.blen.toNat ≤ s.params.lmax →
        ((∃ i < 8 * (s.blen.toNat / 8), Memory.get? s.bbuf i = none) → ∃ o, exec .pack s = .fault (.unwrittenOperand o)) ∧
          ((∀ i < 8 * (s.blen.toNat / 8), Memory.get? s.bbuf i ≠ none) →
            ∃ m, exec .pack s = .next (State.completed
                { s with pbuf := m, plen := BitVec.ofNat 32 (s.blen.toNat / 8) } false false) ∧
              (∀ j < s.blen.toNat / 8, ∃ b : Byte, Memory.get? m j = some b ∧
                ∀ t < 8, Memory.get? s.bbuf (8 * j + t) = some (b.getLsbD (7 - t))) ∧
              ∀ j, s.blen.toNat / 8 ≤ j → Memory.get? m j = Memory.get? s.pbuf j))

/-- UNPACK: InvalidParameter above PMAX; the fault when a byte is unwritten; else BLEN = 8·PLEN, cell 8·j + t is bit 7 - t of
byte j, and every further cell is unchanged (R161). -/
def Obligations.UnpackResult : Prop :=
  ∀ s : State,
    (s.params.lmax / 8 < s.plen.toNat → exec .unpack s = .next (s.failed 1)) ∧
      (s.plen.toNat ≤ s.params.lmax / 8 →
        ((∃ i < s.plen.toNat, Memory.get? s.pbuf i = none) → ∃ o, exec .unpack s = .fault (.unwrittenOperand o)) ∧
          ((∀ i < s.plen.toNat, Memory.get? s.pbuf i ≠ none) →
            ∃ m, exec .unpack s = .next (State.completed
                { s with bbuf := m, blen := BitVec.ofNat 32 (8 * s.plen.toNat) } false false) ∧
              (∀ j < s.plen.toNat, ∃ b : Byte, Memory.get? s.pbuf j = some b ∧
                ∀ t < 8, Memory.get? m (8 * j + t) = some (b.getLsbD (7 - t))) ∧
              ∀ k, 8 * s.plen.toNat ≤ k → Memory.get? m k = Memory.get? s.bbuf k))

/-- PACK then UNPACK leaves every cell of BBUF as it was and BLEN shortened to whole bytes; UNPACK then PACK restores every byte
of PBUF and PLEN (R162; the spec derives it from R160 and R161). -/
def Obligations.PackUnpackRoundTrip : Prop :=
  ∀ s t : State, configAdmitted s.params = true →
    (exec .pack s = .next t → t.status.err = 0#4 →
      ∃ u, exec .unpack t = .next u ∧ u.status.err = 0#4 ∧ u.blen.toNat = 8 * (s.blen.toNat / 8) ∧
        ∀ k, Memory.get? u.bbuf k = Memory.get? s.bbuf k) ∧
      (exec .unpack s = .next t → t.status.err = 0#4 →
        ∃ u, exec .pack t = .next u ∧ u.status.err = 0#4 ∧ u.plen = s.plen ∧
          ∀ j, Memory.get? u.pbuf j = Memory.get? s.pbuf j)

/-! ## Frames (30_encoding R76) -/

/-- MODEXP, MRTEST, GENPRIME and GENPRIME3 write no register but BN_R, MRTEST not even that, beside STATUS, ERRLOG and the draws;
every cell of BBUF and PBUF reads as before. -/
def Obligations.FramePrime : Prop :=
  ∀ (i : Instr) (s t : State), (i = .modexp ∨ i = .mrtest ∨ ∃ n, i = .genprime n ∨ i = .genprime3 n) →
    exec i s = .next t →
    t = { s with
      status := t.status
      errlog := t.errlog
      ext := t.ext
      waiting := t.waiting
      bn := { s.bn with r := t.bn.r } } ∧
      (i = .mrtest → t.bn = s.bn) ∧ (∀ k, Memory.get? t.bbuf k = Memory.get? s.bbuf k) ∧
      ∀ k, Memory.get? t.pbuf k = Memory.get? s.pbuf k

/-- QCG, BBS, YGEN and UNPACK write BBUF and BLEN, BBS its four bignum registers and YGEN the handle, and no other register,
beside STATUS, ERRLOG and the invocations. Ended without an error BLEN is the length asked for, 8·PLEN for UNPACK, and they
store to the cells below it only; ended with PrimeSearchExhausted (BBS) every cell is unwritten; ended with InvalidParameter
no cell changes. Every byte of PBUF reads as before. That a BBS or YGEN which hangs leaves BLEN, every cell, the bignum registers
and the handle as they were, against the earlier writes of its pseudocode, is the model's choice of log 6. -/
def Obligations.FrameBitWriters : Prop :=
  ∀ (i : Instr) (s t : State), configAdmitted s.params = true →
    (i = .unpack ∨ ∃ n, i = .qcg n ∨ i = .bbs n ∨ i = .ygen n) → exec i s = .next t →
    t = { s with
      status := t.status
      errlog := t.errlog
      ext := t.ext
      waiting := t.waiting
      bbuf := t.bbuf
      blen := t.blen
      bn := { s.bn with p := t.bn.p, q := t.bn.q, nmod := t.bn.nmod, x := t.bn.x }
      handle := t.handle } ∧
      ((∃ n, i = .bbs n) ∨ t.bn = s.bn) ∧ ((∃ n, i = .ygen n) ∨ t.handle = s.handle) ∧
      (t.status.done = true → t.status.err = 0#4 →
        (∀ n, i = .qcg n ∨ i = .bbs n ∨ i = .ygen n → t.blen.toNat = n) ∧ (i = .unpack → t.blen.toNat = 8 * s.plen.toNat) ∧
          ∀ k, t.blen.toNat ≤ k → Memory.get? t.bbuf k = Memory.get? s.bbuf k) ∧
      (t.status.done = true → t.status.err = 3#4 → t.blen = 0#32 ∧ ∀ k, Memory.get? t.bbuf k = none) ∧
      (t.status.done = false ∨ t.status.err = 1#4 →
        t.blen = s.blen ∧ t.bn = s.bn ∧ t.handle = s.handle ∧ ∀ k, Memory.get? t.bbuf k = Memory.get? s.bbuf k) ∧
      ∀ k, Memory.get? t.pbuf k = Memory.get? s.pbuf k

/-- YINIT and YDROP write nothing but the handle, beside STATUS, ERRLOG and YINIT's draw; every cell of BBUF and PBUF reads as
before. -/
def Obligations.FrameHandleCommands : Prop :=
  ∀ (i : Instr) (s t : State), i = .yinit ∨ i = .ydrop → exec i s = .next t →
    t = { s with status := t.status, errlog := t.errlog, ext := t.ext, waiting := t.waiting, handle := t.handle } ∧
      (i = .ydrop → t.ext = s.ext ∧ t.errlog = s.errlog ∧ t.waiting = s.waiting) ∧
      (∀ k, Memory.get? t.bbuf k = Memory.get? s.bbuf k) ∧ ∀ k, Memory.get? t.pbuf k = Memory.get? s.pbuf k

/-- FREQ, RUNS and EXCUR write nothing but the result bank, STATUS and ERRLOG; every cell of BBUF and PBUF reads as before
(43_stat_tests R153). -/
def Obligations.FrameStat : Prop :=
  ∀ (i : Instr) (s t : State), i ∈ [Instr.freq, .runs, .excur] → exec i s = .next t →
    t = { s with status := t.status, errlog := t.errlog, bank := t.bank } ∧
      (t.status.err = 0#4 → t.errlog = s.errlog) ∧ (∀ k, Memory.get? t.bbuf k = Memory.get? s.bbuf k) ∧
      ∀ k, Memory.get? t.pbuf k = Memory.get? s.pbuf k

/-- PACK writes nothing but PBUF, PLEN, STATUS and ERRLOG; ended without an error PLEN is BLEN div 8 and it stores to the bytes
below it only, and otherwise to none; every cell of BBUF reads as before. -/
def Obligations.FramePack : Prop :=
  ∀ s t : State, exec .pack s = .next t →
    t = { s with status := t.status, errlog := t.errlog, pbuf := t.pbuf, plen := t.plen } ∧
      (t.status.err = 0#4 → t.errlog = s.errlog ∧ t.plen.toNat = s.blen.toNat / 8 ∧
        ∀ k, t.plen.toNat ≤ k → Memory.get? t.pbuf k = Memory.get? s.pbuf k) ∧
      (t.status.err ≠ 0#4 → t.plen = s.plen ∧ ∀ k, Memory.get? t.pbuf k = Memory.get? s.pbuf k) ∧
      ∀ k, Memory.get? t.bbuf k = Memory.get? s.bbuf k

/-! ## Invariants of every step -/

/-- Every step, of the host or the sequencer, keeps the invariant `State.Inv`, and none changes the configuration. -/
def Obligations.StepKeepsInv : Prop :=
  ∀ s t : State, s.Inv → step s = .next t → t.Inv ∧ t.params = s.params

/-- The state after reset satisfies the invariant. -/
def Obligations.ResetSatisfiesInv : Prop :=
  State.reset.Inv

/-- ERRLOG is sticky: no step but a reset clears a bit of it, and the host's reads and writes do not change it (10_state R23). -/
def Obligations.ErrlogSticky : Prop :=
  ∀ s t : State, step s = .next t →
    (∃ n rest, hostTurn s = some (.reset n, rest)) ∨
      ((hostTurn s ≠ none → t.errlog = s.errlog) ∧ t.errlog &&& s.errlog = s.errlog ∧
        t.errlog &&& 0xFFFFFFF1#32 = s.errlog &&& 0xFFFFFFF1#32)

end Statements
end

