-- ==== Sys2Proof/Laws/State.lean ====
section
/-! SUPPORT. What each named update of the state does to each field: one lemma a field, so that no later proof unfolds a
record update. -/

namespace Sys2Proof.Machine

/-! ## Starting a command (30_encoding R77) -/

@[simp] theorem startCommand_params (w : Word) (s : State) :
    (startCommand w s).params = s.params := rfl
@[simp] theorem startCommand_cmd (w : Word) (s : State) :
    (startCommand w s).cmd = w := rfl
@[simp] theorem startCommand_status (w : Word) (s : State) :
    (startCommand w s).status = statusStarted s.status := rfl
@[simp] theorem startCommand_errlog (w : Word) (s : State) :
    (startCommand w s).errlog = s.errlog := rfl
@[simp] theorem startCommand_arg0 (w : Word) (s : State) :
    (startCommand w s).arg0 = s.arg0 := rfl
@[simp] theorem startCommand_cfgPg (w : Word) (s : State) :
    (startCommand w s).cfgPg = s.cfgPg := rfl
@[simp] theorem startCommand_cfgPt (w : Word) (s : State) :
    (startCommand w s).cfgPt = s.cfgPt := rfl
@[simp] theorem startCommand_cfgTrials (w : Word) (s : State) :
    (startCommand w s).cfgTrials = s.cfgTrials := rfl
@[simp] theorem startCommand_cfgConst (w : Word) (s : State) :
    (startCommand w s).cfgConst = s.cfgConst := rfl
@[simp] theorem startCommand_cfgRetry (w : Word) (s : State) :
    (startCommand w s).cfgRetry = s.cfgRetry := rfl
@[simp] theorem startCommand_seed (w : Word) (s : State) :
    (startCommand w s).seed = s.seed := rfl
@[simp] theorem startCommand_blen (w : Word) (s : State) :
    (startCommand w s).blen = s.blen := rfl
@[simp] theorem startCommand_plen (w : Word) (s : State) :
    (startCommand w s).plen = s.plen := rfl
@[simp] theorem startCommand_bbuf (w : Word) (s : State) :
    (startCommand w s).bbuf = s.bbuf := rfl
@[simp] theorem startCommand_pbuf (w : Word) (s : State) :
    (startCommand w s).pbuf = s.pbuf := rfl
@[simp] theorem startCommand_bn (w : Word) (s : State) :
    (startCommand w s).bn = s.bn := rfl
@[simp] theorem startCommand_handle (w : Word) (s : State) :
    (startCommand w s).handle = s.handle := rfl
@[simp] theorem startCommand_bank (w : Word) (s : State) :
    (startCommand w s).bank = s.bank := rfl
@[simp] theorem startCommand_ext (w : Word) (s : State) :
    (startCommand w s).ext = s.ext := rfl
@[simp] theorem startCommand_waiting (w : Word) (s : State) :
    (startCommand w s).waiting = s.waiting := rfl
@[simp] theorem startCommand_host (w : Word) (s : State) :
    (startCommand w s).host = s.host := rfl
@[simp] theorem startCommand_reads (w : Word) (s : State) :
    (startCommand w s).reads = s.reads := rfl
@[simp] theorem startCommand_freeIx (w : Word) (s : State) :
    (startCommand w s).freeIx = s.freeIx := rfl

/-! ## Completing a command (30_encoding R78) -/

@[simp] theorem completeCommand_params (v r : Bool) (s : State) :
    (completeCommand v r s).params = s.params := rfl
@[simp] theorem completeCommand_cmd (v r : Bool) (s : State) :
    (completeCommand v r s).cmd = s.cmd := rfl
@[simp] theorem completeCommand_status (v r : Bool) (s : State) :
    (completeCommand v r s).status = statusCompleted v r s.yValid := rfl
@[simp] theorem completeCommand_errlog (v r : Bool) (s : State) :
    (completeCommand v r s).errlog = s.errlog := rfl
@[simp] theorem completeCommand_arg0 (v r : Bool) (s : State) :
    (completeCommand v r s).arg0 = s.arg0 := rfl
@[simp] theorem completeCommand_cfgPg (v r : Bool) (s : State) :
    (completeCommand v r s).cfgPg = s.cfgPg := rfl
@[simp] theorem completeCommand_cfgPt (v r : Bool) (s : State) :
    (completeCommand v r s).cfgPt = s.cfgPt := rfl
@[simp] theorem completeCommand_cfgTrials (v r : Bool) (s : State) :
    (completeCommand v r s).cfgTrials = s.cfgTrials := rfl
@[simp] theorem completeCommand_cfgConst (v r : Bool) (s : State) :
    (completeCommand v r s).cfgConst = s.cfgConst := rfl
@[simp] theorem completeCommand_cfgRetry (v r : Bool) (s : State) :
    (completeCommand v r s).cfgRetry = s.cfgRetry := rfl
@[simp] theorem completeCommand_seed (v r : Bool) (s : State) :
    (completeCommand v r s).seed = s.seed := rfl
@[simp] theorem completeCommand_blen (v r : Bool) (s : State) :
    (completeCommand v r s).blen = s.blen := rfl
@[simp] theorem completeCommand_plen (v r : Bool) (s : State) :
    (completeCommand v r s).plen = s.plen := rfl
@[simp] theorem completeCommand_bbuf (v r : Bool) (s : State) :
    (completeCommand v r s).bbuf = s.bbuf := rfl
@[simp] theorem completeCommand_pbuf (v r : Bool) (s : State) :
    (completeCommand v r s).pbuf = s.pbuf := rfl
@[simp] theorem completeCommand_bn (v r : Bool) (s : State) :
    (completeCommand v r s).bn = s.bn := rfl
@[simp] theorem completeCommand_handle (v r : Bool) (s : State) :
    (completeCommand v r s).handle = s.handle := rfl
@[simp] theorem completeCommand_bank (v r : Bool) (s : State) :
    (completeCommand v r s).bank = s.bank := rfl
@[simp] theorem completeCommand_ext (v r : Bool) (s : State) :
    (completeCommand v r s).ext = s.ext := rfl
@[simp] theorem completeCommand_waiting (v r : Bool) (s : State) :
    (completeCommand v r s).waiting = s.waiting := rfl
@[simp] theorem completeCommand_host (v r : Bool) (s : State) :
    (completeCommand v r s).host = s.host := rfl
@[simp] theorem completeCommand_reads (v r : Bool) (s : State) :
    (completeCommand v r s).reads = s.reads := rfl
@[simp] theorem completeCommand_freeIx (v r : Bool) (s : State) :
    (completeCommand v r s).freeIx = s.freeIx := rfl

/-! ## Writing a bignum register (20_memory R56) -/

@[simp] theorem setBn_params (s : State) (reg : Bn) (v : Nat) :
    (s.setBn reg v).params = s.params := rfl
@[simp] theorem setBn_cmd (s : State) (reg : Bn) (v : Nat) :
    (s.setBn reg v).cmd = s.cmd := rfl
@[simp] theorem setBn_status (s : State) (reg : Bn) (v : Nat) :
    (s.setBn reg v).status = s.status := rfl
@[simp] theorem setBn_errlog (s : State) (reg : Bn) (v : Nat) :
    (s.setBn reg v).errlog = s.errlog := rfl
@[simp] theorem setBn_arg0 (s : State) (reg : Bn) (v : Nat) :
    (s.setBn reg v).arg0 = s.arg0 := rfl
@[simp] theorem setBn_cfgPg (s : State) (reg : Bn) (v : Nat) :
    (s.setBn reg v).cfgPg = s.cfgPg := rfl
@[simp] theorem setBn_cfgPt (s : State) (reg : Bn) (v : Nat) :
    (s.setBn reg v).cfgPt = s.cfgPt := rfl
@[simp] theorem setBn_cfgTrials (s : State) (reg : Bn) (v : Nat) :
    (s.setBn reg v).cfgTrials = s.cfgTrials := rfl
@[simp] theorem setBn_cfgConst (s : State) (reg : Bn) (v : Nat) :
    (s.setBn reg v).cfgConst = s.cfgConst := rfl
@[simp] theorem setBn_cfgRetry (s : State) (reg : Bn) (v : Nat) :
    (s.setBn reg v).cfgRetry = s.cfgRetry := rfl
@[simp] theorem setBn_seed (s : State) (reg : Bn) (v : Nat) :
    (s.setBn reg v).seed = s.seed := rfl
@[simp] theorem setBn_blen (s : State) (reg : Bn) (v : Nat) :
    (s.setBn reg v).blen = s.blen := rfl
@[simp] theorem setBn_plen (s : State) (reg : Bn) (v : Nat) :
    (s.setBn reg v).plen = s.plen := rfl
@[simp] theorem setBn_bbuf (s : State) (reg : Bn) (v : Nat) :
    (s.setBn reg v).bbuf = s.bbuf := rfl
@[simp] theorem setBn_pbuf (s : State) (reg : Bn) (v : Nat) :
    (s.setBn reg v).pbuf = s.pbuf := rfl
@[simp] theorem setBn_bn (s : State) (reg : Bn) (v : Nat) :
    (s.setBn reg v).bn = s.bn.set reg (bnCells s.params v) := rfl
@[simp] theorem setBn_handle (s : State) (reg : Bn) (v : Nat) :
    (s.setBn reg v).handle = s.handle := rfl
@[simp] theorem setBn_bank (s : State) (reg : Bn) (v : Nat) :
    (s.setBn reg v).bank = s.bank := rfl
@[simp] theorem setBn_ext (s : State) (reg : Bn) (v : Nat) :
    (s.setBn reg v).ext = s.ext := rfl
@[simp] theorem setBn_waiting (s : State) (reg : Bn) (v : Nat) :
    (s.setBn reg v).waiting = s.waiting := rfl
@[simp] theorem setBn_host (s : State) (reg : Bn) (v : Nat) :
    (s.setBn reg v).host = s.host := rfl
@[simp] theorem setBn_reads (s : State) (reg : Bn) (v : Nat) :
    (s.setBn reg v).reads = s.reads := rfl
@[simp] theorem setBn_freeIx (s : State) (reg : Bn) (v : Nat) :
    (s.setBn reg v).freeIx = s.freeIx := rfl

/-! ## Making a bignum register unwritten -/

@[simp] theorem dropBn_params (s : State) (reg : Bn) :
    (s.dropBn reg).params = s.params := rfl
@[simp] theorem dropBn_cmd (s : State) (reg : Bn) :
    (s.dropBn reg).cmd = s.cmd := rfl
@[simp] theorem dropBn_status (s : State) (reg : Bn) :
    (s.dropBn reg).status = s.status := rfl
@[simp] theorem dropBn_errlog (s : State) (reg : Bn) :
    (s.dropBn reg).errlog = s.errlog := rfl
@[simp] theorem dropBn_arg0 (s : State) (reg : Bn) :
    (s.dropBn reg).arg0 = s.arg0 := rfl
@[simp] theorem dropBn_cfgPg (s : State) (reg : Bn) :
    (s.dropBn reg).cfgPg = s.cfgPg := rfl
@[simp] theorem dropBn_cfgPt (s : State) (reg : Bn) :
    (s.dropBn reg).cfgPt = s.cfgPt := rfl
@[simp] theorem dropBn_cfgTrials (s : State) (reg : Bn) :
    (s.dropBn reg).cfgTrials = s.cfgTrials := rfl
@[simp] theorem dropBn_cfgConst (s : State) (reg : Bn) :
    (s.dropBn reg).cfgConst = s.cfgConst := rfl
@[simp] theorem dropBn_cfgRetry (s : State) (reg : Bn) :
    (s.dropBn reg).cfgRetry = s.cfgRetry := rfl
@[simp] theorem dropBn_seed (s : State) (reg : Bn) :
    (s.dropBn reg).seed = s.seed := rfl
@[simp] theorem dropBn_blen (s : State) (reg : Bn) :
    (s.dropBn reg).blen = s.blen := rfl
@[simp] theorem dropBn_plen (s : State) (reg : Bn) :
    (s.dropBn reg).plen = s.plen := rfl
@[simp] theorem dropBn_bbuf (s : State) (reg : Bn) :
    (s.dropBn reg).bbuf = s.bbuf := rfl
@[simp] theorem dropBn_pbuf (s : State) (reg : Bn) :
    (s.dropBn reg).pbuf = s.pbuf := rfl
@[simp] theorem dropBn_bn (s : State) (reg : Bn) :
    (s.dropBn reg).bn = s.bn.set reg [] := rfl
@[simp] theorem dropBn_handle (s : State) (reg : Bn) :
    (s.dropBn reg).handle = s.handle := rfl
@[simp] theorem dropBn_bank (s : State) (reg : Bn) :
    (s.dropBn reg).bank = s.bank := rfl
@[simp] theorem dropBn_ext (s : State) (reg : Bn) :
    (s.dropBn reg).ext = s.ext := rfl
@[simp] theorem dropBn_waiting (s : State) (reg : Bn) :
    (s.dropBn reg).waiting = s.waiting := rfl
@[simp] theorem dropBn_host (s : State) (reg : Bn) :
    (s.dropBn reg).host = s.host := rfl
@[simp] theorem dropBn_reads (s : State) (reg : Bn) :
    (s.dropBn reg).reads = s.reads := rfl
@[simp] theorem dropBn_freeIx (s : State) (reg : Bn) :
    (s.dropBn reg).freeIx = s.freeIx := rfl

/-! ## Writing the results of BBS (41_generators R116) -/

@[simp] theorem setBbsResults_params (s : State) (p q nmod x : Nat) :
    (s.setBbsResults p q nmod x).params = s.params := rfl
@[simp] theorem setBbsResults_cmd (s : State) (p q nmod x : Nat) :
    (s.setBbsResults p q nmod x).cmd = s.cmd := rfl
@[simp] theorem setBbsResults_status (s : State) (p q nmod x : Nat) :
    (s.setBbsResults p q nmod x).status = s.status := rfl
@[simp] theorem setBbsResults_errlog (s : State) (p q nmod x : Nat) :
    (s.setBbsResults p q nmod x).errlog = s.errlog := rfl
@[simp] theorem setBbsResults_arg0 (s : State) (p q nmod x : Nat) :
    (s.setBbsResults p q nmod x).arg0 = s.arg0 := rfl
@[simp] theorem setBbsResults_cfgPg (s : State) (p q nmod x : Nat) :
    (s.setBbsResults p q nmod x).cfgPg = s.cfgPg := rfl
@[simp] theorem setBbsResults_cfgPt (s : State) (p q nmod x : Nat) :
    (s.setBbsResults p q nmod x).cfgPt = s.cfgPt := rfl
@[simp] theorem setBbsResults_cfgTrials (s : State) (p q nmod x : Nat) :
    (s.setBbsResults p q nmod x).cfgTrials = s.cfgTrials := rfl
@[simp] theorem setBbsResults_cfgConst (s : State) (p q nmod x : Nat) :
    (s.setBbsResults p q nmod x).cfgConst = s.cfgConst := rfl
@[simp] theorem setBbsResults_cfgRetry (s : State) (p q nmod x : Nat) :
    (s.setBbsResults p q nmod x).cfgRetry = s.cfgRetry := rfl
@[simp] theorem setBbsResults_seed (s : State) (p q nmod x : Nat) :
    (s.setBbsResults p q nmod x).seed = s.seed := rfl
@[simp] theorem setBbsResults_blen (s : State) (p q nmod x : Nat) :
    (s.setBbsResults p q nmod x).blen = s.blen := rfl
@[simp] theorem setBbsResults_plen (s : State) (p q nmod x : Nat) :
    (s.setBbsResults p q nmod x).plen = s.plen := rfl
@[simp] theorem setBbsResults_bbuf (s : State) (p q nmod x : Nat) :
    (s.setBbsResults p q nmod x).bbuf = s.bbuf := rfl
@[simp] theorem setBbsResults_pbuf (s : State) (p q nmod x : Nat) :
    (s.setBbsResults p q nmod x).pbuf = s.pbuf := rfl
@[simp] theorem setBbsResults_bn (s : State) (p q nmod x : Nat) :
    (s.setBbsResults p q nmod x).bn = { s.bn with p := bnCells s.params p, q := bnCells s.params q, nmod := bnCells s.params nmod, x := bnCells s.params x } := rfl
@[simp] theorem setBbsResults_handle (s : State) (p q nmod x : Nat) :
    (s.setBbsResults p q nmod x).handle = s.handle := rfl
@[simp] theorem setBbsResults_bank (s : State) (p q nmod x : Nat) :
    (s.setBbsResults p q nmod x).bank = s.bank := rfl
@[simp] theorem setBbsResults_ext (s : State) (p q nmod x : Nat) :
    (s.setBbsResults p q nmod x).ext = s.ext := rfl
@[simp] theorem setBbsResults_waiting (s : State) (p q nmod x : Nat) :
    (s.setBbsResults p q nmod x).waiting = s.waiting := rfl
@[simp] theorem setBbsResults_host (s : State) (p q nmod x : Nat) :
    (s.setBbsResults p q nmod x).host = s.host := rfl
@[simp] theorem setBbsResults_reads (s : State) (p q nmod x : Nat) :
    (s.setBbsResults p q nmod x).reads = s.reads := rfl
@[simp] theorem setBbsResults_freeIx (s : State) (p q nmod x : Nat) :
    (s.setBbsResults p q nmod x).freeIx = s.freeIx := rfl

/-! ## Writing the bit sequence -/

@[simp] theorem setSequence_params (s : State) (bits : List Bool) :
    (s.setSequence bits).params = s.params := rfl
@[simp] theorem setSequence_cmd (s : State) (bits : List Bool) :
    (s.setSequence bits).cmd = s.cmd := rfl
@[simp] theorem setSequence_status (s : State) (bits : List Bool) :
    (s.setSequence bits).status = s.status := rfl
@[simp] theorem setSequence_errlog (s : State) (bits : List Bool) :
    (s.setSequence bits).errlog = s.errlog := rfl
@[simp] theorem setSequence_arg0 (s : State) (bits : List Bool) :
    (s.setSequence bits).arg0 = s.arg0 := rfl
@[simp] theorem setSequence_cfgPg (s : State) (bits : List Bool) :
    (s.setSequence bits).cfgPg = s.cfgPg := rfl
@[simp] theorem setSequence_cfgPt (s : State) (bits : List Bool) :
    (s.setSequence bits).cfgPt = s.cfgPt := rfl
@[simp] theorem setSequence_cfgTrials (s : State) (bits : List Bool) :
    (s.setSequence bits).cfgTrials = s.cfgTrials := rfl
@[simp] theorem setSequence_cfgConst (s : State) (bits : List Bool) :
    (s.setSequence bits).cfgConst = s.cfgConst := rfl
@[simp] theorem setSequence_cfgRetry (s : State) (bits : List Bool) :
    (s.setSequence bits).cfgRetry = s.cfgRetry := rfl
@[simp] theorem setSequence_seed (s : State) (bits : List Bool) :
    (s.setSequence bits).seed = s.seed := rfl
@[simp] theorem setSequence_blen (s : State) (bits : List Bool) :
    (s.setSequence bits).blen = BitVec.ofNat 32 bits.length := rfl
@[simp] theorem setSequence_plen (s : State) (bits : List Bool) :
    (s.setSequence bits).plen = s.plen := rfl
@[simp] theorem setSequence_bbuf (s : State) (bits : List Bool) :
    (s.setSequence bits).bbuf = Memory.write s.bbuf 0 bits := rfl
@[simp] theorem setSequence_pbuf (s : State) (bits : List Bool) :
    (s.setSequence bits).pbuf = s.pbuf := rfl
@[simp] theorem setSequence_bn (s : State) (bits : List Bool) :
    (s.setSequence bits).bn = s.bn := rfl
@[simp] theorem setSequence_handle (s : State) (bits : List Bool) :
    (s.setSequence bits).handle = s.handle := rfl
@[simp] theorem setSequence_bank (s : State) (bits : List Bool) :
    (s.setSequence bits).bank = s.bank := rfl
@[simp] theorem setSequence_ext (s : State) (bits : List Bool) :
    (s.setSequence bits).ext = s.ext := rfl
@[simp] theorem setSequence_waiting (s : State) (bits : List Bool) :
    (s.setSequence bits).waiting = s.waiting := rfl
@[simp] theorem setSequence_host (s : State) (bits : List Bool) :
    (s.setSequence bits).host = s.host := rfl
@[simp] theorem setSequence_reads (s : State) (bits : List Bool) :
    (s.setSequence bits).reads = s.reads := rfl
@[simp] theorem setSequence_freeIx (s : State) (bits : List Bool) :
    (s.setSequence bits).freeIx = s.freeIx := rfl

/-! ## Writing the byte string -/

@[simp] theorem setBytes_params (s : State) (bytes : List Byte) :
    (s.setBytes bytes).params = s.params := rfl
@[simp] theorem setBytes_cmd (s : State) (bytes : List Byte) :
    (s.setBytes bytes).cmd = s.cmd := rfl
@[simp] theorem setBytes_status (s : State) (bytes : List Byte) :
    (s.setBytes bytes).status = s.status := rfl
@[simp] theorem setBytes_errlog (s : State) (bytes : List Byte) :
    (s.setBytes bytes).errlog = s.errlog := rfl
@[simp] theorem setBytes_arg0 (s : State) (bytes : List Byte) :
    (s.setBytes bytes).arg0 = s.arg0 := rfl
@[simp] theorem setBytes_cfgPg (s : State) (bytes : List Byte) :
    (s.setBytes bytes).cfgPg = s.cfgPg := rfl
@[simp] theorem setBytes_cfgPt (s : State) (bytes : List Byte) :
    (s.setBytes bytes).cfgPt = s.cfgPt := rfl
@[simp] theorem setBytes_cfgTrials (s : State) (bytes : List Byte) :
    (s.setBytes bytes).cfgTrials = s.cfgTrials := rfl
@[simp] theorem setBytes_cfgConst (s : State) (bytes : List Byte) :
    (s.setBytes bytes).cfgConst = s.cfgConst := rfl
@[simp] theorem setBytes_cfgRetry (s : State) (bytes : List Byte) :
    (s.setBytes bytes).cfgRetry = s.cfgRetry := rfl
@[simp] theorem setBytes_seed (s : State) (bytes : List Byte) :
    (s.setBytes bytes).seed = s.seed := rfl
@[simp] theorem setBytes_blen (s : State) (bytes : List Byte) :
    (s.setBytes bytes).blen = s.blen := rfl
@[simp] theorem setBytes_plen (s : State) (bytes : List Byte) :
    (s.setBytes bytes).plen = BitVec.ofNat 32 bytes.length := rfl
@[simp] theorem setBytes_bbuf (s : State) (bytes : List Byte) :
    (s.setBytes bytes).bbuf = s.bbuf := rfl
@[simp] theorem setBytes_pbuf (s : State) (bytes : List Byte) :
    (s.setBytes bytes).pbuf = Memory.write s.pbuf 0 bytes := rfl
@[simp] theorem setBytes_bn (s : State) (bytes : List Byte) :
    (s.setBytes bytes).bn = s.bn := rfl
@[simp] theorem setBytes_handle (s : State) (bytes : List Byte) :
    (s.setBytes bytes).handle = s.handle := rfl
@[simp] theorem setBytes_bank (s : State) (bytes : List Byte) :
    (s.setBytes bytes).bank = s.bank := rfl
@[simp] theorem setBytes_ext (s : State) (bytes : List Byte) :
    (s.setBytes bytes).ext = s.ext := rfl
@[simp] theorem setBytes_waiting (s : State) (bytes : List Byte) :
    (s.setBytes bytes).waiting = s.waiting := rfl
@[simp] theorem setBytes_host (s : State) (bytes : List Byte) :
    (s.setBytes bytes).host = s.host := rfl
@[simp] theorem setBytes_reads (s : State) (bytes : List Byte) :
    (s.setBytes bytes).reads = s.reads := rfl
@[simp] theorem setBytes_freeIx (s : State) (bytes : List Byte) :
    (s.setBytes bytes).freeIx = s.freeIx := rfl

/-! ## A command that does not end (70_reset_and_hazards R196) -/

@[simp] theorem hang_params (x : Ports) (s : State) :
    (hang x s).params = s.params := rfl
@[simp] theorem hang_cmd (x : Ports) (s : State) :
    (hang x s).cmd = s.cmd := rfl
@[simp] theorem hang_status (x : Ports) (s : State) :
    (hang x s).status = statusHung s.status := rfl
@[simp] theorem hang_errlog (x : Ports) (s : State) :
    (hang x s).errlog = s.errlog := rfl
@[simp] theorem hang_arg0 (x : Ports) (s : State) :
    (hang x s).arg0 = s.arg0 := rfl
@[simp] theorem hang_cfgPg (x : Ports) (s : State) :
    (hang x s).cfgPg = s.cfgPg := rfl
@[simp] theorem hang_cfgPt (x : Ports) (s : State) :
    (hang x s).cfgPt = s.cfgPt := rfl
@[simp] theorem hang_cfgTrials (x : Ports) (s : State) :
    (hang x s).cfgTrials = s.cfgTrials := rfl
@[simp] theorem hang_cfgConst (x : Ports) (s : State) :
    (hang x s).cfgConst = s.cfgConst := rfl
@[simp] theorem hang_cfgRetry (x : Ports) (s : State) :
    (hang x s).cfgRetry = s.cfgRetry := rfl
@[simp] theorem hang_seed (x : Ports) (s : State) :
    (hang x s).seed = s.seed := rfl
@[simp] theorem hang_blen (x : Ports) (s : State) :
    (hang x s).blen = s.blen := rfl
@[simp] theorem hang_plen (x : Ports) (s : State) :
    (hang x s).plen = s.plen := rfl
@[simp] theorem hang_bbuf (x : Ports) (s : State) :
    (hang x s).bbuf = s.bbuf := rfl
@[simp] theorem hang_pbuf (x : Ports) (s : State) :
    (hang x s).pbuf = s.pbuf := rfl
@[simp] theorem hang_bn (x : Ports) (s : State) :
    (hang x s).bn = s.bn := rfl
@[simp] theorem hang_handle (x : Ports) (s : State) :
    (hang x s).handle = s.handle := rfl
@[simp] theorem hang_bank (x : Ports) (s : State) :
    (hang x s).bank = s.bank := rfl
@[simp] theorem hang_ext (x : Ports) (s : State) :
    (hang x s).ext = x := rfl
@[simp] theorem hang_waiting (x : Ports) (s : State) :
    (hang x s).waiting = true := rfl
@[simp] theorem hang_host (x : Ports) (s : State) :
    (hang x s).host = s.host := rfl
@[simp] theorem hang_reads (x : Ports) (s : State) :
    (hang x s).reads = s.reads := rfl
@[simp] theorem hang_freeIx (x : Ports) (s : State) :
    (hang x s).freeIx = s.freeIx := rfl

/-! ## A host read (20_memory R59) -/

@[simp] theorem noteRead_params (a : Nat) (r : Reg) (s : State) :
    (noteRead a r s).params = s.params := rfl
@[simp] theorem noteRead_cmd (a : Nat) (r : Reg) (s : State) :
    (noteRead a r s).cmd = s.cmd := rfl
@[simp] theorem noteRead_status (a : Nat) (r : Reg) (s : State) :
    (noteRead a r s).status = s.status := rfl
@[simp] theorem noteRead_errlog (a : Nat) (r : Reg) (s : State) :
    (noteRead a r s).errlog = s.errlog := rfl
@[simp] theorem noteRead_arg0 (a : Nat) (r : Reg) (s : State) :
    (noteRead a r s).arg0 = s.arg0 := rfl
@[simp] theorem noteRead_cfgPg (a : Nat) (r : Reg) (s : State) :
    (noteRead a r s).cfgPg = s.cfgPg := rfl
@[simp] theorem noteRead_cfgPt (a : Nat) (r : Reg) (s : State) :
    (noteRead a r s).cfgPt = s.cfgPt := rfl
@[simp] theorem noteRead_cfgTrials (a : Nat) (r : Reg) (s : State) :
    (noteRead a r s).cfgTrials = s.cfgTrials := rfl
@[simp] theorem noteRead_cfgConst (a : Nat) (r : Reg) (s : State) :
    (noteRead a r s).cfgConst = s.cfgConst := rfl
@[simp] theorem noteRead_cfgRetry (a : Nat) (r : Reg) (s : State) :
    (noteRead a r s).cfgRetry = s.cfgRetry := rfl
@[simp] theorem noteRead_seed (a : Nat) (r : Reg) (s : State) :
    (noteRead a r s).seed = s.seed := rfl
@[simp] theorem noteRead_blen (a : Nat) (r : Reg) (s : State) :
    (noteRead a r s).blen = s.blen := rfl
@[simp] theorem noteRead_plen (a : Nat) (r : Reg) (s : State) :
    (noteRead a r s).plen = s.plen := rfl
@[simp] theorem noteRead_bbuf (a : Nat) (r : Reg) (s : State) :
    (noteRead a r s).bbuf = s.bbuf := rfl
@[simp] theorem noteRead_pbuf (a : Nat) (r : Reg) (s : State) :
    (noteRead a r s).pbuf = s.pbuf := rfl
@[simp] theorem noteRead_bn (a : Nat) (r : Reg) (s : State) :
    (noteRead a r s).bn = s.bn := rfl
@[simp] theorem noteRead_handle (a : Nat) (r : Reg) (s : State) :
    (noteRead a r s).handle = s.handle := rfl
@[simp] theorem noteRead_bank (a : Nat) (r : Reg) (s : State) :
    (noteRead a r s).bank = s.bank := rfl
@[simp] theorem noteRead_ext (a : Nat) (r : Reg) (s : State) :
    (noteRead a r s).ext = s.ext := rfl
@[simp] theorem noteRead_waiting (a : Nat) (r : Reg) (s : State) :
    (noteRead a r s).waiting = s.waiting := rfl
@[simp] theorem noteRead_host (a : Nat) (r : Reg) (s : State) :
    (noteRead a r s).host = s.host := rfl
@[simp] theorem noteRead_reads (a : Nat) (r : Reg) (s : State) :
    (noteRead a r s).reads = s.reads ++ [(a, s.readWord (Config.unspecified s.freeIx) r)] := rfl
@[simp] theorem noteRead_freeIx (a : Nat) (r : Reg) (s : State) :
    (noteRead a r s).freeIx = s.freeIx + 1 := rfl

/-! ## Raising an error (60_exceptions R178) -/

@[simp] theorem dropResults_nothing (s : State) : dropResults .nothing s = s := rfl

@[simp] theorem dropResults_params (d : Results) (s : State) :
    (dropResults d s).params = s.params := by cases d <;> rfl
@[simp] theorem dropResults_cmd (d : Results) (s : State) :
    (dropResults d s).cmd = s.cmd := by cases d <;> rfl
@[simp] theorem dropResults_arg0 (d : Results) (s : State) :
    (dropResults d s).arg0 = s.arg0 := by cases d <;> rfl
@[simp] theorem dropResults_cfgPg (d : Results) (s : State) :
    (dropResults d s).cfgPg = s.cfgPg := by cases d <;> rfl
@[simp] theorem dropResults_cfgPt (d : Results) (s : State) :
    (dropResults d s).cfgPt = s.cfgPt := by cases d <;> rfl
@[simp] theorem dropResults_cfgTrials (d : Results) (s : State) :
    (dropResults d s).cfgTrials = s.cfgTrials := by cases d <;> rfl
@[simp] theorem dropResults_cfgConst (d : Results) (s : State) :
    (dropResults d s).cfgConst = s.cfgConst := by cases d <;> rfl
@[simp] theorem dropResults_cfgRetry (d : Results) (s : State) :
    (dropResults d s).cfgRetry = s.cfgRetry := by cases d <;> rfl
@[simp] theorem dropResults_seed (d : Results) (s : State) :
    (dropResults d s).seed = s.seed := by cases d <;> rfl
@[simp] theorem dropResults_plen (d : Results) (s : State) :
    (dropResults d s).plen = s.plen := by cases d <;> rfl
@[simp] theorem dropResults_pbuf (d : Results) (s : State) :
    (dropResults d s).pbuf = s.pbuf := by cases d <;> rfl
@[simp] theorem dropResults_handle (d : Results) (s : State) :
    (dropResults d s).handle = s.handle := by cases d <;> rfl
@[simp] theorem dropResults_bank (d : Results) (s : State) :
    (dropResults d s).bank = s.bank := by cases d <;> rfl
@[simp] theorem dropResults_ext (d : Results) (s : State) :
    (dropResults d s).ext = s.ext := by cases d <;> rfl
@[simp] theorem dropResults_waiting (d : Results) (s : State) :
    (dropResults d s).waiting = s.waiting := by cases d <;> rfl
@[simp] theorem dropResults_host (d : Results) (s : State) :
    (dropResults d s).host = s.host := by cases d <;> rfl
@[simp] theorem dropResults_reads (d : Results) (s : State) :
    (dropResults d s).reads = s.reads := by cases d <;> rfl
@[simp] theorem dropResults_freeIx (d : Results) (s : State) :
    (dropResults d s).freeIx = s.freeIx := by cases d <;> rfl
@[simp] theorem dropResults_status (d : Results) (s : State) :
    (dropResults d s).status = s.status := by cases d <;> rfl
@[simp] theorem dropResults_errlog (d : Results) (s : State) :
    (dropResults d s).errlog = s.errlog := by cases d <;> rfl

@[simp] theorem dropResults_yValid (d : Results) (s : State) : (dropResults d s).yValid = s.yValid := by
  cases d <;> rfl

theorem raiseError_eq (e : ErrCode) (d : Results) (s : State) :
    raiseError e d s =
      { (if e = .primeSearchExhausted then dropResults d s else s) with
        status := statusRaised e s.yValid, errlog := errlogWith s.errlog e } := by
  cases e <;> cases d <;> rfl

@[simp] theorem raiseError_status (e : ErrCode) (d : Results) (s : State) :
    (raiseError e d s).status = statusRaised e s.yValid := by rw [raiseError_eq]

@[simp] theorem raiseError_errlog (e : ErrCode) (d : Results) (s : State) :
    (raiseError e d s).errlog = errlogWith s.errlog e := by rw [raiseError_eq]

@[simp] theorem raiseError_params (e : ErrCode) (d : Results) (s : State) :
    (raiseError e d s).params = s.params := by cases e <;> cases d <;> rfl
@[simp] theorem raiseError_cmd (e : ErrCode) (d : Results) (s : State) :
    (raiseError e d s).cmd = s.cmd := by cases e <;> cases d <;> rfl
@[simp] theorem raiseError_arg0 (e : ErrCode) (d : Results) (s : State) :
    (raiseError e d s).arg0 = s.arg0 := by cases e <;> cases d <;> rfl
@[simp] theorem raiseError_cfgPg (e : ErrCode) (d : Results) (s : State) :
    (raiseError e d s).cfgPg = s.cfgPg := by cases e <;> cases d <;> rfl
@[simp] theorem raiseError_cfgPt (e : ErrCode) (d : Results) (s : State) :
    (raiseError e d s).cfgPt = s.cfgPt := by cases e <;> cases d <;> rfl
@[simp] theorem raiseError_cfgTrials (e : ErrCode) (d : Results) (s : State) :
    (raiseError e d s).cfgTrials = s.cfgTrials := by cases e <;> cases d <;> rfl
@[simp] theorem raiseError_cfgConst (e : ErrCode) (d : Results) (s : State) :
    (raiseError e d s).cfgConst = s.cfgConst := by cases e <;> cases d <;> rfl
@[simp] theorem raiseError_cfgRetry (e : ErrCode) (d : Results) (s : State) :
    (raiseError e d s).cfgRetry = s.cfgRetry := by cases e <;> cases d <;> rfl
@[simp] theorem raiseError_seed (e : ErrCode) (d : Results) (s : State) :
    (raiseError e d s).seed = s.seed := by cases e <;> cases d <;> rfl
@[simp] theorem raiseError_plen (e : ErrCode) (d : Results) (s : State) :
    (raiseError e d s).plen = s.plen := by cases e <;> cases d <;> rfl
@[simp] theorem raiseError_pbuf (e : ErrCode) (d : Results) (s : State) :
    (raiseError e d s).pbuf = s.pbuf := by cases e <;> cases d <;> rfl
@[simp] theorem raiseError_handle (e : ErrCode) (d : Results) (s : State) :
    (raiseError e d s).handle = s.handle := by cases e <;> cases d <;> rfl
@[simp] theorem raiseError_bank (e : ErrCode) (d : Results) (s : State) :
    (raiseError e d s).bank = s.bank := by cases e <;> cases d <;> rfl
@[simp] theorem raiseError_ext (e : ErrCode) (d : Results) (s : State) :
    (raiseError e d s).ext = s.ext := by cases e <;> cases d <;> rfl
@[simp] theorem raiseError_waiting (e : ErrCode) (d : Results) (s : State) :
    (raiseError e d s).waiting = s.waiting := by cases e <;> cases d <;> rfl
@[simp] theorem raiseError_host (e : ErrCode) (d : Results) (s : State) :
    (raiseError e d s).host = s.host := by cases e <;> cases d <;> rfl
@[simp] theorem raiseError_reads (e : ErrCode) (d : Results) (s : State) :
    (raiseError e d s).reads = s.reads := by cases e <;> cases d <;> rfl
@[simp] theorem raiseError_freeIx (e : ErrCode) (d : Results) (s : State) :
    (raiseError e d s).freeIx = s.freeIx := by cases e <;> cases d <;> rfl

/-- With no results to drop, raising an error changes STATUS and ERRLOG only (60_exceptions R178 (a), (b)). -/
theorem raiseError_nothing (e : ErrCode) (s : State) :
    raiseError e .nothing s = { s with status := statusRaised e s.yValid, errlog := errlogWith s.errlog e } := by
  cases e <;> rfl

/-! ## The bignum bank -/

@[simp] theorem bnBank_get_set (b : BnBank) (reg : Bn) (m : Memory Word) : (b.set reg m).get reg = m := by
  cases reg <;> rfl

theorem bnBank_get_set_ne (b : BnBank) {reg other : Bn} (h : other ≠ reg) (m : Memory Word) :
    (b.set reg m).get other = b.get other := by
  cases reg <;> cases other <;> first | rfl | exact absurd rfl h

end Sys2Proof.Machine
end

