-- ==== Sys2Proof/Laws/Memory.lean ====
section
/-! SUPPORT. The laws of cells: what a cell holds after a write, that every operation keeps the canonical form, and what
reading a run of cells answers. -/

namespace Sys2Proof.Machine

/-! ## What a cell holds -/

@[simp] theorem memory_get_nil {α : Type} (i : Nat) : Memory.get? ([] : Memory α) i = none := rfl

@[simp] theorem memory_get_cons {α : Type} (j : Nat) (v : α) (rest : Memory α) (i : Nat) :
    Memory.get? ((j, v) :: rest) i = if j = i then some v else Memory.get? rest i := rfl

theorem memory_get_append {α : Type} (m n : Memory α) (i : Nat) :
    Memory.get? (m ++ n) i = (Memory.get? m i).or (Memory.get? n i) := by
  induction m with
  | nil => simp
  | cons c rest ih =>
    obtain ⟨j, v⟩ := c
    by_cases h : j = i <;> simp [h, ih]

theorem memory_get_filter {α : Type} (p : Nat → Bool) (m : Memory α) (i : Nat) :
    Memory.get? (m.filter (fun c => p c.1)) i = if p i then Memory.get? m i else none := by
  induction m with
  | nil => simp
  | cons c rest ih =>
    obtain ⟨j, v⟩ := c
    by_cases hp : p j <;> by_cases h : j = i
    · subst h; simp [hp]
    · simp [hp, h, ih]
    · subst h; simp [hp, ih]
    · simp [hp, h, ih]

theorem memory_get_cells {α : Type} (xs : List α) (start i : Nat) :
    Memory.get? (Memory.cells start xs) i = if start ≤ i then xs[i - start]? else none := by
  induction xs generalizing start with
  | nil => simp [Memory.cells]
  | cons v rest ih =>
    simp only [Memory.cells, memory_get_cons, ih]
    by_cases h : start = i
    · subst h; simp
    · by_cases hle : start ≤ i
      · have e : i - start = (i - (start + 1)) + 1 := by omega
        have hle' : start + 1 ≤ i := by omega
        simp [h, hle, hle', e]
      · have hle' : ¬ start + 1 ≤ i := by omega
        simp [h, hle, hle']

/-- A write gives the written cells their values and leaves every other cell alone. -/
theorem memory_get_write {α : Type} (m : Memory α) (start : Nat) (xs : List α) (i : Nat) :
    Memory.get? (Memory.write m start xs) i =
      if start ≤ i ∧ i < start + xs.length then xs[i - start]? else Memory.get? m i := by
  simp only [Memory.write, memory_get_append, memory_get_cells]
  rw [memory_get_filter (fun k => decide (k < start)) m i,
    memory_get_filter (fun k => decide (start + xs.length ≤ k)) m i]
  simp only [decide_eq_true_eq]
  by_cases h1 : i < start
  · have a : ¬ start ≤ i := by omega
    have b : ¬ start + xs.length ≤ i := by omega
    simp [h1, a, b]
  · by_cases h2 : i < start + xs.length
    · have a : start ≤ i := by omega
      have b : ¬ start + xs.length ≤ i := by omega
      have c : i - start < xs.length := by omega
      simp [h1, h2, a, b, c]
    · have a : start ≤ i := by omega
      have b : start + xs.length ≤ i := by omega
      have c : xs.length ≤ i - start := by omega
      simp [h1, h2, a, b, List.getElem?_eq_none c]

theorem memory_get_write_of_lt {α : Type} (m : Memory α) (xs : List α) {i : Nat} (h : i < xs.length) :
    Memory.get? (Memory.write m 0 xs) i = some xs[i] := by
  rw [memory_get_write]; simp [h]

theorem memory_get_write_of_ge {α : Type} (m : Memory α) (xs : List α) {i : Nat} (h : xs.length ≤ i) :
    Memory.get? (Memory.write m 0 xs) i = Memory.get? m i := by
  rw [memory_get_write]; simp [Nat.not_lt.mpr h]

/-! ## The canonical form -/

theorem memory_wf_cons {α : Type} (j : Nat) (v : α) (rest : Memory α) :
    Memory.wf ((j, v) :: rest) = true ↔ (∀ c ∈ rest, j < c.1) ∧ Memory.wf rest = true := by
  simp [Memory.wf]

/-- The canonical form as a statement about the list of indices. -/
theorem memory_wf_iff {α : Type} (m : Memory α) :
    Memory.wf m = true ↔ m.Pairwise (fun c d => c.1 < d.1) := by
  induction m with
  | nil => simp [Memory.wf]
  | cons c rest ih => obtain ⟨j, v⟩ := c; rw [memory_wf_cons, ih, List.pairwise_cons]

theorem memory_cells_mem {α : Type} {xs : List α} {start : Nat} {c : Nat × α} (h : c ∈ Memory.cells start xs) :
    start ≤ c.1 ∧ c.1 < start + xs.length := by
  induction xs generalizing start with
  | nil => simp [Memory.cells] at h
  | cons v rest ih =>
    rw [Memory.cells, List.mem_cons] at h
    rcases h with rfl | h
    · simp
    · obtain ⟨h1, h2⟩ := ih h
      simp only [List.length_cons]; omega

theorem memory_wf_cells {α : Type} (xs : List α) (start : Nat) : Memory.wf (Memory.cells start xs) = true := by
  induction xs generalizing start with
  | nil => rfl
  | cons v rest ih =>
    rw [Memory.cells, memory_wf_cons]
    exact ⟨fun c hc => (memory_cells_mem hc).1, ih _⟩

/-- Every write keeps the canonical form. -/
theorem memory_wf_write {α : Type} {m : Memory α} (h : Memory.wf m = true) (start : Nat) (xs : List α) :
    Memory.wf (Memory.write m start xs) = true := by
  rw [memory_wf_iff] at h ⊢
  have hc := (memory_wf_iff _).mp (memory_wf_cells xs start)
  rw [Memory.write, List.pairwise_append, List.pairwise_append]
  refine ⟨h.filter _, ⟨hc, h.filter _, ?_⟩, ?_⟩
  · intro c hcm d hd
    have := (memory_cells_mem hcm).2
    simp only [List.mem_filter, decide_eq_true_eq] at hd
    omega
  · intro c hcm d hd
    simp only [List.mem_filter, decide_eq_true_eq] at hcm
    rcases List.mem_append.mp hd with hd | hd
    · have := (memory_cells_mem hd).1; omega
    · simp only [List.mem_filter, decide_eq_true_eq] at hd; omega

theorem memory_within_cells {α : Type} (xs : List α) {start bound : Nat} (h : start + xs.length ≤ bound) :
    Memory.within bound (Memory.cells start xs) = true := by
  simp only [Memory.within, List.all_eq_true, decide_eq_true_eq]
  intro c hc
  have := (memory_cells_mem hc).2; omega

/-- A write within a capacity keeps the cells within it. -/
theorem memory_within_write {α : Type} {m : Memory α} {bound start : Nat} {xs : List α}
    (hm : Memory.within bound m = true) (h : start + xs.length ≤ bound) :
    Memory.within bound (Memory.write m start xs) = true := by
  have hc := memory_within_cells xs h
  simp only [Memory.within, List.all_eq_true, decide_eq_true_eq] at hm hc ⊢
  intro c hmem
  simp only [Memory.write, List.mem_append, List.mem_filter] at hmem
  rcases hmem with hmem | hmem | hmem
  · exact hm c hmem.1
  · exact hc c hmem
  · exact hm c hmem.1

theorem memory_wf_nil {α : Type} : Memory.wf ([] : Memory α) = true := rfl

theorem memory_within_nil {α : Type} (bound : Nat) : Memory.within bound ([] : Memory α) = true := rfl

/-! ## Reading a run of cells -/

/-- Reading a run succeeds exactly when every cell of it is written, and gives their values in order. -/
theorem memory_readRun_ok {α : Type} (m : Memory α) (start count : Nat) (vs : List α) :
    Memory.readRun m start count = .ok vs ↔
      vs.length = count ∧ ∀ k < count, Memory.get? m (start + k) = vs[k]? := by
  induction count generalizing start vs with
  | zero => cases vs <;> simp [Memory.readRun]
  | succ n ih =>
    unfold Memory.readRun
    cases hg : Memory.get? m start with
    | none =>
      simp only [reduceCtorEq, false_iff, not_and, not_forall]
      intro hlen
      refine ⟨0, by omega, ?_⟩
      cases vs with
      | nil => simp at hlen
      | cons v rest => simp [hg]
    | some v =>
      cases hr : Memory.readRun m (start + 1) n with
      | error e =>
        simp only [reduceCtorEq, false_iff, not_and]
        intro hlen hall
        cases vs with
        | nil => simp at hlen
        | cons w rest =>
          have := (ih (start + 1) rest).mpr ⟨by simpa using hlen, fun k hk => by
            have := hall (k + 1) (by omega)
            rw [Nat.add_assoc, Nat.add_comm 1 k]; simpa using this⟩
          rw [hr] at this; simp at this
      | ok ws =>
        have hws := (ih (start + 1) ws).mp hr
        constructor
        · rintro h
          cases h
          refine ⟨by simp [hws.1], fun k hk => ?_⟩
          cases k with
          | zero => simpa using hg
          | succ k =>
            have := hws.2 k (by omega)
            rw [Nat.add_assoc, Nat.add_comm 1 k] at this; simpa using this
        · rintro ⟨hlen, hall⟩
          cases vs with
          | nil => simp at hlen
          | cons w rest =>
            have h0 := hall 0 (by omega)
            simp only [Nat.add_zero, hg, List.getElem?_cons_zero, Option.some.injEq] at h0
            have := (ih (start + 1) rest).mpr ⟨by simpa using hlen, fun k hk => by
              have := hall (k + 1) (by omega)
              rw [Nat.add_assoc, Nat.add_comm 1 k]; simpa using this⟩
            rw [hr] at this
            cases this
            rw [h0]

theorem memory_readRun_length {α : Type} {m : Memory α} {start count : Nat} {vs : List α}
    (h : Memory.readRun m start count = .ok vs) : vs.length = count :=
  ((memory_readRun_ok m start count vs).mp h).1

/-- Reading a run fails at the first unwritten cell of it. -/
theorem memory_readRun_error {α : Type} {m : Memory α} {start count i : Nat}
    (h : Memory.readRun m start count = .error i) :
    start ≤ i ∧ i < start + count ∧ Memory.get? m i = none ∧
      ∀ k, start ≤ k → k < i → (Memory.get? m k).isSome = true := by
  induction count generalizing start with
  | zero => simp [Memory.readRun] at h
  | succ n ih =>
    unfold Memory.readRun at h
    cases hg : Memory.get? m start with
    | none =>
      rw [hg] at h
      cases h
      exact ⟨le_refl _, by omega, hg, fun k h1 h2 => by omega⟩
    | some v =>
      rw [hg] at h
      cases hr : Memory.readRun m (start + 1) n with
      | ok ws => rw [hr] at h; simp at h
      | error e =>
        rw [hr] at h
        cases h
        obtain ⟨h1, h2, h3, h4⟩ := ih hr
        refine ⟨by omega, by omega, h3, fun k hk1 hk2 => ?_⟩
        by_cases hk : k = start
        · subst hk; simp [hg]
        · exact h4 k (by omega) hk2

/-- A run of written cells reads back what was written. -/
theorem memory_readRun_write {α : Type} (m : Memory α) (xs : List α) {count : Nat} (h : count ≤ xs.length) :
    Memory.readRun (Memory.write m 0 xs) 0 count = .ok (xs.take count) := by
  rw [memory_readRun_ok]
  refine ⟨by simp [h], fun k hk => ?_⟩
  rw [Nat.zero_add, memory_get_write_of_lt m xs (by omega), List.getElem?_take]
  simp [hk, List.getElem?_eq_getElem (show k < xs.length by omega)]

theorem memory_readRun_cells {α : Type} (xs : List α) :
    Memory.readRun (Memory.cells 0 xs) 0 xs.length = .ok xs := by
  rw [memory_readRun_ok]
  exact ⟨rfl, fun k _ => by rw [memory_get_cells]; simp⟩

end Sys2Proof.Machine
end

