-- ==== Sys2Proof/Laws/Numbers.lean ====
section
/-! SUPPORT. What the arithmetic and the bit-order helpers compute: modular exponentiation, the odd part, candidates, limbs,
bits and bytes. -/

namespace Sys2Proof.Machine

/-! ## Modular exponentiation (40_prime R91) -/

theorem modExpLoop_spec (n : Nat) (fuel b e acc : Nat) (he : e < 2 ^ fuel) :
    modExpLoop n fuel b e acc ≡ acc * b ^ e [MOD n] := by
  induction fuel generalizing b e acc with
  | zero =>
    have : e = 0 := by simpa using he
    subst this; simp [modExpLoop]; rfl
  | succ f ih =>
    unfold modExpLoop
    by_cases h0 : e = 0
    · subst h0; simp; rfl
    · rw [if_neg h0]
      have he' : e / 2 < 2 ^ f := by rw [Nat.pow_succ] at he; omega
      refine (ih _ _ _ he').trans ?_
      have hb : (b * b % n) ^ (e / 2) ≡ b ^ (2 * (e / 2)) [MOD n] := by
        rw [Nat.pow_mul, ← Nat.pow_two]
        exact (Nat.mod_modEq _ _).pow _
      rcases Nat.mod_two_eq_zero_or_one e with h | h
      · rw [if_neg (by omega)]
        have e2 : 2 * (e / 2) = e := by omega
        rw [e2] at hb
        exact hb.mul_left acc
      · rw [if_pos h]
        have e2 : b ^ e = b * b ^ (2 * (e / 2)) := by
          conv_lhs => rw [show e = 2 * (e / 2) + 1 by omega]
          rw [Nat.pow_succ, Nat.mul_comm]
        rw [e2, ← Nat.mul_assoc]
        exact (Nat.mod_modEq _ _).mul hb

theorem modExpLoop_lt {n : Nat} (hn : 0 < n) (fuel b e acc : Nat) (hacc : acc < n) :
    modExpLoop n fuel b e acc < n := by
  induction fuel generalizing b e acc with
  | zero => exact hacc
  | succ f ih =>
    unfold modExpLoop
    split
    · exact hacc
    · apply ih
      split
      · exact Nat.mod_lt _ hn
      · exact hacc

/-- `ModExp(a, e, n)` is `(a^e) mod n` (R91). -/
theorem modExp_eq (a e : Nat) {n : Nat} (hn : 0 < n) : modExp a e n = a ^ e % n := by
  have h := modExpLoop_spec n (Nat.log2 e + 1) (a % n) e (1 % n) Nat.lt_log2_self
  have hlt := modExpLoop_lt hn (Nat.log2 e + 1) (a % n) e (1 % n) (Nat.mod_lt _ hn)
  have h2 : 1 % n * (a % n) ^ e ≡ a ^ e [MOD n] := by
    have := ((Nat.mod_modEq 1 n).mul ((Nat.mod_modEq a n).pow e))
    simpa using this
  have := h.trans h2
  unfold modExp
  rw [← Nat.mod_eq_of_lt hlt]
  exact this

/-! ## The decomposition n - 1 = 2^s * t (40_prime R92) -/

theorem splitTwos_spec (fuel m : Nat) (hm : 0 < m) (hf : m < 2 ^ (fuel + 1)) :
    m = 2 ^ (splitTwos fuel m).1 * (splitTwos fuel m).2 ∧ (splitTwos fuel m).2 % 2 = 1 := by
  induction fuel generalizing m with
  | zero =>
    have : m = 1 := by simp at hf; omega
    subst this; simp [splitTwos]
  | succ f ih =>
    unfold splitTwos
    by_cases h : m % 2 = 0
    · rw [if_pos h]
      have := ih (m / 2) (by omega) (by rw [Nat.pow_succ] at hf; omega)
      refine ⟨?_, this.2⟩
      rw [Nat.pow_succ, Nat.mul_right_comm, ← this.1]
      omega
    · rw [if_neg h]
      exact ⟨by simp, by simpa using (by omega : m % 2 = 1)⟩

/-- `Decompose(n)` for odd n ≥ 3 (R92). -/
theorem decompose_spec {n : Nat} (hodd : n % 2 = 1) (hn : 3 ≤ n) :
    n - 1 = 2 ^ (decompose n).1 * (decompose n).2 ∧ (decompose n).2 % 2 = 1 ∧ 1 ≤ (decompose n).1 := by
  have h := splitTwos_spec (Nat.log2 (n - 1)) (n - 1) (by omega) (Nat.lt_log2_self)
  refine ⟨h.1, h.2, ?_⟩
  by_contra hs
  have h0 : (splitTwos (Nat.log2 (n - 1)) (n - 1)).1 = 0 := by
    have : (decompose n).1 = 0 := by omega
    exact this
  have h1 := h.1
  rw [h0] at h1
  have h2 := h.2
  simp only [pow_zero, one_mul] at h1
  rw [← h1] at h2
  omega

/-! ## The squarings of a round (40_prime R93) -/

theorem mrSquares_iff (n count x : Nat) :
    mrSquares n count x = true ↔ ∃ i, 1 ≤ i ∧ i ≤ count ∧ x ^ (2 ^ i) % n = n - 1 := by
  induction count generalizing x with
  | zero => simp only [mrSquares, Bool.false_eq_true, false_iff]; rintro ⟨i, h1, h2, -⟩; omega
  | succ c ih =>
    unfold mrSquares
    have key : ∀ i, (x * x % n) ^ (2 ^ i) % n = x ^ (2 ^ (i + 1)) % n := by
      intro i
      rw [← Nat.pow_mod, ← Nat.pow_two, ← Nat.pow_mul, Nat.pow_succ 2 i, Nat.mul_comm 2]
    by_cases h : x * x % n = n - 1
    · simp only [h, if_true, true_iff]
      exact ⟨1, le_refl _, by omega, by simpa [Nat.pow_two] using h⟩
    · rw [if_neg h, ih]
      constructor
      · rintro ⟨i, h1, h2, h3⟩
        exact ⟨i + 1, by omega, by omega, by rw [← key]; exact h3⟩
      · rintro ⟨i, h1, h2, h3⟩
        cases i with
        | zero => omega
        | succ i =>
          cases i with
          | zero => exact absurd (by simpa [Nat.pow_two] using h3) h
          | succ i => exact ⟨i + 1, by omega, by omega, by rw [key]; exact h3⟩

/-! ## Candidates (40_prime R96) -/

theorem candidate_odd (bits r : Nat) : candidate bits r % 2 = 1 := by
  unfold candidate
  have : (r ||| 2 ^ (bits - 1) ||| 1).testBit 0 = true := by simp
  rwa [Nat.testBit_zero, decide_eq_true_eq] at this

theorem candidate_ge (bits r : Nat) : 2 ^ (bits - 1) ≤ candidate bits r := by
  unfold candidate
  exact le_trans Nat.right_le_or Nat.left_le_or

theorem candidate_lt {bits r : Nat} (hb : 2 ≤ bits) (hr : r < 2 ^ bits) : candidate bits r < 2 ^ bits := by
  unfold candidate
  refine Nat.or_lt_two_pow (Nat.or_lt_two_pow hr ?_) ?_
  · exact Nat.pow_lt_pow_right (by omega) (by omega)
  · exact Nat.one_lt_two_pow (by omega)

/-! ## Limbs (20_memory R56) -/

@[simp] theorem limbsOfNat_length (count v : Nat) : (limbsOfNat count v).length = count := by
  induction count generalizing v with
  | zero => rfl
  | succ c ih => simp [limbsOfNat, ih]

/-- Limb `i` of a number. -/
theorem limbsOfNat_getElem? (count v i : Nat) (h : i < count) : (limbsOfNat count v)[i]? = some (BitVec.ofNat 32 (v / 2 ^ (32 * i))) := by
  induction count generalizing v i with
  | zero => omega
  | succ c ih =>
    cases i with
    | zero => simp [limbsOfNat]
    | succ i =>
      simp only [limbsOfNat, List.getElem?_cons_succ]
      rw [ih _ _ (by omega), Nat.div_div_eq_div_mul, ← Nat.pow_add]
      rw [show 32 + 32 * i = 32 * (i + 1) by ring]

/-- A list of limbs is the limbs of the number it holds, and that number fits them. -/
theorem natOfLimbs_spec (ls : List Word) : limbsOfNat ls.length (natOfLimbs ls) = ls ∧ natOfLimbs ls < 2 ^ (32 * ls.length) := by
  induction ls with
  | nil => simp [limbsOfNat, natOfLimbs]
  | cons w rest ih =>
    have hw := w.isLt
    constructor
    · simp only [List.length_cons, limbsOfNat, natOfLimbs]
      rw [List.cons.injEq]
      refine ⟨?_, ?_⟩
      · apply BitVec.eq_of_toNat_eq; simp only [BitVec.toNat_ofNat]; omega
      · rw [Nat.add_mul_div_left _ _ (by norm_num), Nat.div_eq_of_lt hw, Nat.zero_add]; exact ih.1
    · simp only [List.length_cons, natOfLimbs]
      have := ih.2
      rw [show 32 * (rest.length + 1) = 32 + 32 * rest.length by ring, Nat.pow_add]
      nlinarith

theorem natOfLimbs_limbsOfNat (count v : Nat) : natOfLimbs (limbsOfNat count v) = v % 2 ^ (32 * count) := by
  induction count generalizing v with
  | zero => simp [limbsOfNat, natOfLimbs, Nat.mod_one]
  | succ c ih =>
    simp only [limbsOfNat, natOfLimbs, ih, BitVec.toNat_ofNat]
    rw [show 32 * (c + 1) = 32 + 32 * c by ring, Nat.pow_add, Nat.mod_mul]

/-- A bignum register holds what a command wrote to it, modulo 2^(32 * limbs). -/
theorem bnValue_setBn (s : State) (reg : Bn) (v : Nat) :
    (s.setBn reg v).bnValue reg = some (v % 2 ^ (32 * limbCount s.params)) := by
  have h := memory_readRun_cells (limbsOfNat (limbCount s.params) v)
  rw [limbsOfNat_length] at h
  simp only [State.bnValue, setBn_bn, bnBank_get_set, setBn_params, bnCells, h, natOfLimbs_limbsOfNat]

theorem limbCount_mul {p : Params} (h : configAdmitted p = true) : 32 * limbCount p = p.w := by
  simp only [configAdmitted, Bool.and_eq_true, decide_eq_true_eq] at h
  have := h.1.1.1.1.1
  unfold limbCount; omega

/-- In an admitted configuration a value below 2^W is stored exactly (40_prime R90). -/
theorem bnValue_setBn_of_lt {s : State} (h : configAdmitted s.params = true) (reg : Bn) {v : Nat}
    (hv : v < 2 ^ s.params.w) : (s.setBn reg v).bnValue reg = some v := by
  rw [bnValue_setBn, limbCount_mul h, Nat.mod_eq_of_lt hv]

theorem bnValue_setBn_ne (s : State) {reg other : Bn} (h : other ≠ reg) (v : Nat) :
    (s.setBn reg v).bnValue other = s.bnValue other := by
  simp only [State.bnValue, setBn_bn, bnBank_get_set_ne _ h, setBn_params]

theorem bnValue_congr {s t : State} (hb : t.bn = s.bn) (hp : t.params = s.params) (reg : Bn) :
    t.bnValue reg = s.bnValue reg := by
  simp only [State.bnValue, hb, hp]

/-- A bignum register's value fits its limbs (10_state R33). -/
theorem bnValue_lt {s : State} {reg : Bn} {v : Nat} (h : s.bnValue reg = some v) : v < 2 ^ (32 * limbCount s.params) := by
  unfold State.bnValue at h
  split at h
  · rename_i limbs hr
    cases h
    have := natOfLimbs_spec limbs
    rw [memory_readRun_length hr] at this
    exact this.2
  · cases h

/-! ## Bits and bytes (00_scope R12) -/

@[simp] theorem bitsOfNat_length (width v : Nat) : (bitsOfNat width v).length = width := by
  simp [bitsOfNat]

theorem bitsOfNat_getElem (width v i : Nat) (h : i < (bitsOfNat width v).length) :
    (bitsOfNat width v)[i] = v.testBit (width - 1 - i) := by
  simp [bitsOfNat]

theorem bitsOfNat_succ (width v : Nat) : bitsOfNat (width + 1) v = v.testBit width :: bitsOfNat width v := by
  simp only [bitsOfNat, List.range_succ_eq_map, List.map_cons, List.map_map]
  congr 1
  apply List.map_congr_left
  intro t ht
  simp only [Function.comp]
  congr 1
  omega

theorem natOfBits_append (a : List Bool) (b : Bool) : natOfBits (a ++ [b]) = 2 * natOfBits a + b.toNat := by
  simp [natOfBits, List.foldl_append]

theorem natOfBits_lt (bits : List Bool) : natOfBits bits < 2 ^ bits.length := by
  induction bits using List.reverseRecOn with
  | nil => simp [natOfBits]
  | append_singleton a b ih =>
    rw [natOfBits_append, List.length_append, List.length_singleton, Nat.pow_succ]
    have := Bool.toNat_le b
    omega

theorem natOfBits_testBit (bits : List Bool) (i : Nat) (h : i < bits.length) :
    (natOfBits bits).testBit (bits.length - 1 - i) = bits[i] := by
  induction bits using List.reverseRecOn generalizing i with
  | nil => simp at h
  | append_singleton a b ih =>
    rw [natOfBits_append]
    simp only [List.length_append, List.length_singleton] at h ⊢
    by_cases hi : i < a.length
    · have e : a.length + 1 - 1 - i = (a.length - 1 - i) + 1 := by omega
      rw [e, Nat.testBit_succ, show (2 * natOfBits a + b.toNat) / 2 = natOfBits a by
        have := Bool.toNat_le b; omega, ih i hi, List.getElem_append_left hi]
    · have e : i = a.length := by omega
      subst e
      cases b <;> simp [Nat.testBit_zero, Nat.add_mod]

/-- Bits taken most significant first and put together again. -/
theorem bitsOfNat_natOfBits (bits : List Bool) : bitsOfNat bits.length (natOfBits bits) = bits := by
  apply List.ext_getElem
  · simp
  · intro i h1 h2
    rw [bitsOfNat_getElem]
    exact natOfBits_testBit bits i h2

theorem natOfBits_bitsOfNat (width v : Nat) : natOfBits (bitsOfNat width v) = v % 2 ^ width := by
  apply Nat.eq_of_testBit_eq
  intro i
  rw [Nat.testBit_mod_two_pow]
  by_cases h : i < width
  · have := natOfBits_testBit (bitsOfNat width v) (width - 1 - i) (by simp; omega)
    rw [bitsOfNat_getElem, bitsOfNat_length] at this
    rw [show width - 1 - (width - 1 - i) = i by omega] at this
    simp [h, this]
  · have hl := natOfBits_lt (bitsOfNat width v)
    rw [bitsOfNat_length] at hl
    simp only [h, decide_false, Bool.false_and]
    exact Nat.testBit_lt_two_pow (lt_of_lt_of_le hl (Nat.pow_le_pow_right (by omega) (by omega)))

@[simp] theorem bytesOfNat_length (k v : Nat) : (bytesOfNat k v).length = k := by
  simp [bytesOfNat]

/-! ## Packing (44_packing R160 to R162) -/

@[simp] theorem packBits_length (count : Nat) (bits : List Bool) : (packBits count bits).length = count := by
  induction count generalizing bits with
  | zero => rfl
  | succ c ih => simp [packBits, ih]

@[simp] theorem unpackBytes_length (bytes : List Byte) : (unpackBytes bytes).length = 8 * bytes.length := by
  induction bytes with
  | nil => rfl
  | cons b rest ih =>
    simp only [unpackBytes, List.flatMap_cons, List.length_append, bitsOfNat_length, List.length_cons] at ih ⊢
    omega

theorem unpackBytes_cons (b : Byte) (rest : List Byte) :
    unpackBytes (b :: rest) = bitsOfNat 8 b.toNat ++ unpackBytes rest := rfl

/-- Unpacking what was packed gives the whole bytes' bits back (R162). -/
theorem unpackBytes_packBits (count : Nat) (bits : List Bool) (h : 8 * count ≤ bits.length) :
    unpackBytes (packBits count bits) = bits.take (8 * count) := by
  induction count generalizing bits with
  | zero => simp [packBits, unpackBytes]
  | succ c ih =>
    rw [packBits, unpackBytes_cons, ih (bits.drop 8) (by simp; omega)]
    have hl : (bits.take 8).length = 8 := by simp; omega
    have hlt := natOfBits_lt (bits.take 8)
    rw [hl] at hlt
    rw [BitVec.toNat_ofNat, Nat.mod_eq_of_lt hlt]
    have := bitsOfNat_natOfBits (bits.take 8)
    rw [hl] at this
    rw [this, show 8 * (c + 1) = 8 + 8 * c by ring, List.take_add]

/-- Packing what was unpacked gives the bytes back (R162). -/
theorem packBits_unpackBytes (bytes : List Byte) : packBits bytes.length (unpackBytes bytes) = bytes := by
  induction bytes with
  | nil => rfl
  | cons b rest ih =>
    rw [unpackBytes_cons, List.length_cons, packBits]
    have h8 : (bitsOfNat 8 b.toNat).length = 8 := bitsOfNat_length _ _
    rw [List.take_append_of_le_length (by omega), List.take_of_length_le (by omega), List.drop_append_of_le_length (by omega),
      List.drop_of_length_le (by omega), List.nil_append, ih, natOfBits_bitsOfNat]
    congr 1
    apply BitVec.eq_of_toNat_eq
    have := b.isLt
    simp only [BitVec.toNat_ofNat]
    omega

end Sys2Proof.Machine
end

