-- ==== Sys2Proof/Laws/Ports.lean ====
section
/-! SUPPORT. What an invocation of a primitive, and any chain of them, can come to. -/

namespace Sys2Proof.Machine

/-! ## Chains -/

@[simp] theorem andThen_yields {α β : Type} (a : α) (x : Ports) (f : α → Ports → Run β) :
    (Run.yields a x).andThen f = f a x := rfl

@[simp] theorem andThen_exhausted {α β : Type} (x : Ports) (f : α → Ports → Run β) :
    (Run.exhausted x : Run α).andThen f = .exhausted x := rfl

@[simp] theorem andThen_waits {α β : Type} (x : Ports) (f : α → Ports → Run β) :
    (Run.waits x : Run α).andThen f = .waits x := rfl

theorem andThen_eq_yields {α β : Type} {r : Run α} {f : α → Ports → Run β} {b : β} {y : Ports} :
    r.andThen f = .yields b y ↔ ∃ a x, r = .yields a x ∧ f a x = .yields b y := by
  cases r <;> simp

theorem andThen_eq_exhausted {α β : Type} {r : Run α} {f : α → Ports → Run β} {y : Ports} :
    r.andThen f = .exhausted y ↔ r = .exhausted y ∨ ∃ a x, r = .yields a x ∧ f a x = .exhausted y := by
  cases r <;> simp

theorem andThen_eq_waits {α β : Type} {r : Run α} {f : α → Ports → Run β} {y : Ports} :
    r.andThen f = .waits y ↔ r = .waits y ∨ ∃ a x, r = .yields a x ∧ f a x = .waits y := by
  cases r <;> simp

theorem andThen_assoc {α β γ : Type} (r : Run α) (f : α → Ports → Run β) (g : β → Ports → Run γ) :
    (r.andThen f).andThen g = r.andThen (fun a x => (f a x).andThen g) := by
  cases r <;> rfl

/-! ## Draws (00_scope R10) -/

/-- A draw is answered exactly when an answer is to come: the first one, fitted to the range. -/
theorem draw_eq_yields {α : Type} {fit : Nat → α} {event : α → Event} {x y : Ports} {a : α} :
    draw fit event x = .yields a y ↔
      ∃ r rest, x.answers = r :: rest ∧ a = fit r ∧
        y = { answers := rest, repliesLeft := x.repliesLeft, history := x.history ++ [event (fit r)] } := by
  unfold draw
  cases h : x.answers with
  | nil => simp
  | cons r rest =>
    simp only [Ports.record, Run.yields.injEq, List.cons.injEq]
    constructor
    · rintro ⟨rfl, rfl⟩; exact ⟨r, rest, ⟨rfl, rfl⟩, rfl, rfl⟩
    · rintro ⟨r', rest', ⟨rfl, rfl⟩, rfl, rfl⟩; exact ⟨rfl, rfl⟩

theorem draw_not_exhausted {α : Type} (fit : Nat → α) (event : α → Event) (x y : Ports) :
    draw fit event x ≠ .exhausted y := by
  unfold draw; split <;> simp

theorem draw_cons {α : Type} (fit : Nat → α) (event : α → Event) (x : Ports) {r : Nat} {rest : List Nat}
    (h : x.answers = r :: rest) :
    draw fit event x =
      .yields (fit r) { answers := rest, repliesLeft := x.repliesLeft, history := x.history ++ [event (fit r)] } := by
  rw [draw_eq_yields]; exact ⟨r, rest, h, rfl, rfl⟩

theorem inRange_mem {lo hi : Nat} (h : lo ≤ hi) (r : Nat) : lo ≤ inRange lo hi r ∧ inRange lo hi r ≤ hi := by
  unfold inRange
  split
  · assumption
  · have := Nat.mod_lt r (show 0 < hi - lo + 1 by omega)
    omega

/-- An answer that lies in the range is taken as it stands (log 3). -/
theorem inRange_of_mem {lo hi r : Nat} (h : lo ≤ r ∧ r ≤ hi) : inRange lo hi r = r := if_pos h

/-! ## Cipher and hash (00_scope R9) -/

theorem invoke_eq_yields {α : Type} {answer : α} {event : Event} {x y : Ports} {a : α}
    (h : invoke answer event x = .yields a y) :
    a = answer ∧ y.answers = x.answers ∧ y.history = x.history ++ [event] := by
  unfold invoke at h
  split at h
  · cases h; exact ⟨rfl, rfl, rfl⟩
  · cases h
  · cases h; exact ⟨rfl, rfl, rfl⟩

theorem invoke_of_all_answered {α : Type} (answer : α) (event : Event) {x : Ports} (h : x.repliesLeft = none) :
    invoke answer event x = .yields answer { x with history := x.history ++ [event] } := by
  obtain ⟨answers, repliesLeft, history⟩ := x
  cases h
  rfl

@[simp] theorem invoke_answered {α : Type} (answer : α) (event : Event) (answers : List Nat) (history : List Event) :
    invoke answer event ⟨answers, none, history⟩ = .yields answer ⟨answers, none, history ++ [event]⟩ := rfl

theorem invoke_not_exhausted {α : Type} (answer : α) (event : Event) (x y : Ports) :
    invoke answer event x ≠ .exhausted y := by
  unfold invoke; split <;> simp

theorem cipherBlock_lt (p : Params) (key : List Byte) (ctr : Nat) : cipherBlock p key ctr < 2 ^ p.blk :=
  Nat.mod_lt _ (by positivity)

theorem hashBytes_length (p : Params) (message : List Byte) : (hashBytes p message).length = p.dig := by
  simp [hashBytes, bytesOfNat]

/-! ## What a chain leaves of the ports -/

theorem follows_refl (P : Event → Prop) (x : Ports) : Ports.Follows P x x :=
  ⟨⟨0, rfl⟩, [], by simp, by simp⟩

theorem follows_trans {P : Event → Prop} {x y z : Ports} (h1 : Ports.Follows P x y) (h2 : Ports.Follows P y z) :
    Ports.Follows P x z := by
  obtain ⟨⟨k, hk⟩, e1, he1, hp1⟩ := h1
  obtain ⟨⟨l, hl⟩, e2, he2, hp2⟩ := h2
  refine ⟨⟨k + l, by rw [hl, hk, List.drop_drop]⟩, e1 ++ e2, by rw [he2, he1, List.append_assoc], ?_⟩
  intro e he
  rcases List.mem_append.mp he with he | he
  · exact hp1 e he
  · exact hp2 e he

theorem follows_andThen {α β : Type} {P : Event → Prop} {x : Ports} {r : Run α} {f : α → Ports → Run β}
    (h1 : Ports.Follows P x r.ports) (h2 : ∀ a y, r = .yields a y → Ports.Follows P y (f a y).ports) :
    Ports.Follows P x (r.andThen f).ports := by
  cases r with
  | yields a y => exact follows_trans h1 (h2 a y rfl)
  | exhausted y => exact h1
  | waits y => exact h1

theorem follows_draw {α : Type} {P : Event → Prop} {fit : Nat → α} {event : α → Event} (h : ∀ a, P (event a)) (x : Ports) :
    Ports.Follows P x (draw fit event x).ports := by
  unfold draw
  split
  · exact follows_refl P x
  · rename_i r rest heq
    exact ⟨⟨1, by simp [Run.ports, Ports.record, heq]⟩, [event (fit r)], rfl, by simpa using h _⟩

theorem follows_invoke {α : Type} {P : Event → Prop} {answer : α} {event : Event} (h : P event) (x : Ports) :
    Ports.Follows P x (invoke answer event x).ports := by
  unfold invoke
  split
  · exact ⟨⟨0, rfl⟩, [event], rfl, by simpa using h⟩
  · exact follows_refl P x
  · exact ⟨⟨0, rfl⟩, [event], rfl, by simpa using h⟩

theorem follows_length {P : Event → Prop} {x y : Ports} (h : Ports.Follows P x y) : y.answers.length ≤ x.answers.length := by
  obtain ⟨⟨k, hk⟩, -⟩ := h
  rw [hk, List.length_drop]; omega

end Sys2Proof.Machine
end

