-- ==== Sys2Proof/Laws/Prime.lean ====
section
/-! SUPPORT. What the PRIME unit's stages come to: a round, a Miller-Rabin test, trial division, a candidate, the search
(40_prime R92 to R97). -/

namespace Sys2Proof.Machine

/-! ## The draws of the unit -/

theorem follows_randBits (bits : Nat) (x : Ports) :
    Ports.Follows (fun e => e.isRandom = true) x (randBits bits x).ports :=
  follows_draw (P := fun e => e.isRandom = true) (event := fun v => .randBits bits v) (fun _ => rfl) x

theorem follows_randRange (lo hi : Nat) (x : Ports) :
    Ports.Follows (fun e => e.isRandom = true) x (randRange lo hi x).ports :=
  follows_draw (P := fun e => e.isRandom = true) (event := fun v => .randRange lo hi v) (fun _ => rfl) x

theorem randBits_nil {bits : Nat} {x : Ports} (h : x.answers = []) : randBits bits x = .waits x := by
  simp [randBits, draw, h]

theorem randRange_nil {lo hi : Nat} {x : Ports} (h : x.answers = []) : randRange lo hi x = .waits x := by
  simp [randRange, draw, h]

/-! ## A round (R93) -/

theorem mrRound_eq (n a : Nat) :
    mrRound n a = (if modExp a (decompose n).2 n = 1 ∨ modExp a (decompose n).2 n = n - 1 then true
      else mrSquares n ((decompose n).1 - 1) (modExp a (decompose n).2 n)) := rfl

/-! ## Miller-Rabin (R94) -/

theorem millerRabin_not_exhausted (n trials : Nat) (x y : Ports) : millerRabin n trials x ≠ .exhausted y := by
  induction trials generalizing x with
  | zero => simp [millerRabin]
  | succ k ih =>
    unfold millerRabin
    intro h
    rw [andThen_eq_exhausted] at h
    rcases h with h | ⟨a, z, -, h⟩
    · exact draw_not_exhausted _ _ _ _ h
    · split at h
      · exact ih z h
      · simp at h

/-- The rounds run on the bases: all of them, or up to the first that finds `n` composite. -/
theorem millerRabin_eq (n trials : Nat) (x : Ports) (h : trials ≤ x.answers.length ∨
      ((x.answers.take trials).map (inRange 2 (n - 2))).all (mrRound n) = false) :
    millerRabin n trials x =
      .yields (((x.answers.take trials).map (inRange 2 (n - 2))).all (mrRound n))
        { answers := x.answers.drop
            (min trials ((((x.answers.take trials).map (inRange 2 (n - 2))).takeWhile (mrRound n)).length + 1))
          repliesLeft := x.repliesLeft
          history := x.history ++
            (((x.answers.take trials).map (inRange 2 (n - 2))).take
              (((x.answers.take trials).map (inRange 2 (n - 2))).takeWhile (mrRound n)).length.succ).map
              (fun a => .randRange 2 (n - 2) a) } := by
  induction trials generalizing x with
  | zero => simp [millerRabin]
  | succ k ih =>
    obtain ⟨answers, replies, history⟩ := x
    cases answers with
    | nil => simp at h
    | cons r rest =>
      unfold millerRabin
      rw [randRange, draw_cons _ _ _ rfl, andThen_yields]
      by_cases hm : mrRound n (inRange 2 (n - 2) r) = true
      · rw [if_pos hm, ih _ (by simpa [hm] using h)]
        simp [hm, Nat.succ_min_succ, List.append_assoc]
      · rw [if_neg hm]
        simp [hm]

/-- With fewer answers than rounds and every round passed, the test waits for a base. -/
theorem millerRabin_waits (n trials : Nat) (x : Ports) (h : x.answers.length < trials)
    (ha : (x.answers.map (inRange 2 (n - 2))).all (mrRound n) = true) :
    millerRabin n trials x = .waits ⟨[], x.repliesLeft, x.history ++ (x.answers.map (inRange 2 (n - 2))).map (fun a => .randRange 2 (n - 2) a)⟩ := by
  obtain ⟨answers, replies, history⟩ := x
  induction answers generalizing trials history with
  | nil =>
    cases trials with
    | zero => simp at h
    | succ k => simp [millerRabin, randRange, draw]
  | cons r rest ih =>
    cases trials with
    | zero => simp at h
    | succ k =>
      simp only [List.map_cons, List.all_cons, Bool.and_eq_true] at ha
      unfold millerRabin
      rw [randRange, draw_cons _ _ _ rfl, andThen_yields, if_pos ha.1, ih k _ (by simpa using h) ha.2]
      simp

theorem follows_millerRabin (n trials : Nat) (x : Ports) :
    Ports.Follows (fun e => e.isRandom = true) x (millerRabin n trials x).ports := by
  induction trials generalizing x with
  | zero => exact follows_refl _ _
  | succ k ih =>
    unfold millerRabin
    refine follows_andThen (follows_randRange 2 (n - 2) x) fun a y _ => ?_
    split
    · exact ih y
    · exact follows_refl _ _

theorem millerRabin_repliesLeft {n trials : Nat} {x y : Ports} {b : Bool} (h : millerRabin n trials x = .yields b y) :
    y.repliesLeft = x.repliesLeft := by
  induction trials generalizing x with
  | zero => simp only [millerRabin, Run.yields.injEq] at h; rw [h.2]
  | succ k ih =>
    unfold millerRabin at h
    rw [andThen_eq_yields] at h
    obtain ⟨a, z, h1, h2⟩ := h
    rw [randRange, draw_eq_yields] at h1
    obtain ⟨r, rest, -, -, rfl⟩ := h1
    split at h2
    · rw [ih h2]
    · simp only [Run.yields.injEq] at h2; rw [← h2.2]

/-- A candidate that passes Miller-Rabin has drawn one base in range for each round, and all passed (R94). -/
theorem millerRabin_passed {n trials : Nat} {x y : Ports} (hn : 4 ≤ n) (h : millerRabin n trials x = .yields true y) :
    ∃ bases : List Nat, bases.length = trials ∧ y.history = x.history ++ bases.map (fun b => .randRange 2 (n - 2) b) ∧
      ∀ b ∈ bases, 2 ≤ b ∧ b ≤ n - 2 ∧ mrRound n b = true := by
  induction trials generalizing x with
  | zero =>
    simp only [millerRabin, Run.yields.injEq, true_and] at h
    exact ⟨[], rfl, by rw [h]; simp, by simp⟩
  | succ k ih =>
    unfold millerRabin at h
    rw [andThen_eq_yields] at h
    obtain ⟨a, x1, h1, h⟩ := h
    rw [randRange, draw_eq_yields] at h1
    obtain ⟨r, rest, -, rfl, rfl⟩ := h1
    split at h
    · rename_i hr
      obtain ⟨bases, hl, hh, hb⟩ := ih h
      have hm := inRange_mem (show 2 ≤ n - 2 by omega) r
      refine ⟨inRange 2 (n - 2) r :: bases, by simp [hl], by rw [hh]; simp, ?_⟩
      intro b hmem
      rcases List.mem_cons.mp hmem with rfl | hmem
      · exact ⟨hm.1, hm.2, hr⟩
      · exact hb b hmem
    · simp at h

/-- Miller-Rabin draws only bases (R94). -/
theorem millerRabin_bases (n trials : Nat) (x : Ports) :
    Ports.Follows (fun e => ∃ lo hi v, e = .randRange lo hi v) x (millerRabin n trials x).ports := by
  induction trials generalizing x with
  | zero => exact follows_refl _ _
  | succ k ih =>
    refine follows_andThen (follows_draw (fun _ => ⟨_, _, _, rfl⟩) x) fun a y _ => ?_
    split
    · exact ih y
    · exact follows_refl _ _

/-! ## Trial division (R95) -/

theorem trialDivBy_prime {primes : List Nat} {n : Nat} (h : trialDivBy primes n = .prime) : n ∈ primes := by
  induction primes with
  | nil => simp [trialDivBy] at h
  | cons p rest ih =>
    unfold trialDivBy at h
    split at h
    · rename_i e; simp [e]
    · split at h
      · simp at h
      · exact List.mem_cons_of_mem _ (ih h)

theorem trialDivBy_unknown {primes : List Nat} {n : Nat} (h : trialDivBy primes n = .unknown) :
    ∀ p ∈ primes, n % p ≠ 0 := by
  induction primes with
  | nil => simp
  | cons p rest ih =>
    unfold trialDivBy at h
    split at h
    · simp at h
    · split at h
      · simp at h
      · rename_i h2
        intro q hq
        rcases List.mem_cons.mp hq with rfl | hq
        · exact h2
        · exact ih h q hq

/-! ## One candidate (R97) -/

theorem follows_probablePrime (c trials : Nat) (x : Ports) :
    Ports.Follows (fun e => e.isRandom = true) x (probablePrime c trials x).ports := by
  unfold probablePrime
  split
  · exact follows_refl _ _
  · exact follows_refl _ _
  · exact follows_millerRabin c trials x

theorem probablePrime_not_exhausted (c trials : Nat) (x y : Ports) : probablePrime c trials x ≠ .exhausted y := by
  unfold probablePrime
  split
  · simp
  · simp
  · exact millerRabin_not_exhausted c trials x y

/-- The candidate of a pass of the search is accepted: it is taken for prime, and is 3 mod 4 where that is asked. -/
theorem probablePrime_true {c trials : Nat} {x y : Ports} (h : probablePrime c trials x = .yields true y) :
    c ∈ Config.smallPrimes ∨ (trialDiv c = .unknown ∧ millerRabin c trials x = .yields true y) := by
  unfold probablePrime at h
  split at h
  · rename_i ht; exact Or.inl (trialDivBy_prime ht)
  · simp at h
  · rename_i ht; exact Or.inr ⟨ht, h⟩

/-! ## The search (R97) -/

theorem follows_primeSearchLoop (bits : Nat) (need3 : Bool) (trials retry bound sampled : Nat) (x : Ports) :
    Ports.Follows (fun e => e.isRandom = true) x (primeSearchLoop bits need3 trials retry bound sampled x).ports := by
  induction bound generalizing sampled x with
  | zero => exact follows_refl _ _
  | succ b ih =>
    unfold primeSearchLoop
    split
    · exact follows_refl _ _
    · refine follows_andThen (follows_randBits bits x) fun r y _ => ?_
      refine follows_andThen (follows_probablePrime _ _ y) fun ok z _ => ?_
      split
      · exact follows_refl _ _
      · exact ih _ z

theorem follows_primeSearch (bits : Nat) (need3 : Bool) (trials retry sampled : Nat) (x : Ports) :
    Ports.Follows (fun e => e.isRandom = true) x (primeSearch bits need3 trials retry sampled x).ports :=
  follows_primeSearchLoop ..

/-- Any bound above the number of answers gives the same search: the bound never ends it. -/
theorem primeSearchLoop_bound (bits : Nat) (need3 : Bool) (trials retry : Nat) :
    ∀ (b1 b2 sampled : Nat) (x : Ports), x.answers.length < b1 → x.answers.length < b2 →
      primeSearchLoop bits need3 trials retry b1 sampled x = primeSearchLoop bits need3 trials retry b2 sampled x := by
  intro b1
  induction b1 with
  | zero => intro b2 sampled x h1 h2; omega
  | succ b1 ih =>
    intro b2 sampled x h1 h2
    cases b2 with
    | zero => omega
    | succ b2 =>
      unfold primeSearchLoop
      split
      · rfl
      · cases hx : x.answers with
        | nil => simp [randBits, draw, hx]
        | cons r rest =>
          rw [randBits, draw_cons _ _ _ hx, andThen_yields, andThen_yields]
          generalize hp : probablePrime _ trials _ = res
          have hf := follows_length (follows_probablePrime (candidate bits (r % 2 ^ bits)) trials
            { answers := rest, repliesLeft := x.repliesLeft, history := x.history ++ [.randBits bits (r % 2 ^ bits)] })
          rw [hp] at hf
          rw [hx] at h1 h2
          simp only [List.length_cons] at h1 h2
          cases res with
          | exhausted y => rfl
          | waits y => rfl
          | yields ok y =>
            simp only [andThen_yields]
            split
            · rfl
            · simp only [Run.ports] at hf
              exact ih b2 _ y (by omega) (by omega)

/-- The search is the loop of R97: the check against the bound of candidates, one candidate, then the rest. -/
theorem primeSearch_eq (bits : Nat) (need3 : Bool) (trials retry sampled : Nat) (x : Ports) :
    primeSearch bits need3 trials retry sampled x =
      if retry ≠ 0 ∧ sampled = retry then .exhausted x
      else (randBits bits x).andThen fun r y =>
        (probablePrime (candidate bits r) trials y).andThen fun ok z =>
          if ok && (!need3 || decide (candidate bits r % 4 = 3)) then .yields (candidate bits r, sampled + 1) z
          else primeSearch bits need3 trials retry (sampled + 1) z := by
  unfold primeSearch
  rw [primeSearchLoop]
  split
  · rfl
  · cases hx : x.answers with
    | nil => simp [randBits, draw, hx]
    | cons r rest =>
      rw [randBits, draw_cons _ _ _ hx, andThen_yields, andThen_yields]
      have hf := follows_length (follows_probablePrime (candidate bits (r % 2 ^ bits)) trials
        { answers := rest, repliesLeft := x.repliesLeft, history := x.history ++ [.randBits bits (r % 2 ^ bits)] })
      generalize probablePrime _ trials _ = res at hf ⊢
      cases res with
      | exhausted y => rfl
      | waits y => rfl
      | yields ok y =>
        simp only [andThen_yields]
        split
        · rfl
        · simp only [Run.ports] at hf
          exact primeSearchLoop_bound _ _ _ _ _ _ _ _ (by simp; omega) (by omega)

/-- What a search that yields has found (R95 to R97, R100, R101). -/
theorem primeSearchLoop_yields {bits : Nat} {need3 : Bool} {trials retry bound sampled : Nat} {x y : Ports} {c k : Nat}
    (hb : 2 ≤ bits) (h : primeSearchLoop bits need3 trials retry bound sampled x = .yields (c, k) y) :
    2 ^ (bits - 1) ≤ c ∧ c < 2 ^ bits ∧ c % 2 = 1 ∧ (need3 = true → c % 4 = 3) ∧
      (c ∈ Config.smallPrimes ∨ (trialDiv c = .unknown ∧ ∃ z, millerRabin c trials z = .yields true y)) ∧
      sampled < k ∧ y.repliesLeft = x.repliesLeft := by
  induction bound generalizing sampled x with
  | zero => simp [primeSearchLoop] at h
  | succ b ih =>
    unfold primeSearchLoop at h
    split at h
    · simp at h
    · rw [andThen_eq_yields] at h
      obtain ⟨r, x1, h1, h⟩ := h
      rw [andThen_eq_yields] at h
      obtain ⟨ok, x2, h2, h⟩ := h
      rw [randBits, draw_eq_yields] at h1
      obtain ⟨r0, rest, hx, rfl, rfl⟩ := h1
      have hrep : x2.repliesLeft = x.repliesLeft := by
        unfold probablePrime at h2
        split at h2
        · simp only [Run.yields.injEq] at h2; rw [← h2.2]
        · simp only [Run.yields.injEq] at h2; rw [← h2.2]
        · rw [millerRabin_repliesLeft h2]
      split at h
      · rename_i hacc
        simp only [Run.yields.injEq, Prod.mk.injEq] at h
        obtain ⟨⟨rfl, rfl⟩, rfl⟩ := h
        simp only [Bool.and_eq_true, Bool.or_eq_true, Bool.not_eq_true', decide_eq_true_eq] at hacc
        obtain ⟨rfl, hacc⟩ := hacc
        refine ⟨candidate_ge _ _, candidate_lt hb (Nat.mod_lt _ (by positivity)), candidate_odd _ _, ?_, ?_, by omega, hrep⟩
        · intro h3; rcases hacc with h | h
          · rw [h3] at h; simp at h
          · exact h
        · rcases probablePrime_true h2 with h | ⟨h, h'⟩
          · exact Or.inl h
          · exact Or.inr ⟨h, _, h'⟩
      · obtain ⟨a1, a2, a3, a4, a5, a6, a7⟩ := ih h
        exact ⟨a1, a2, a3, a4, a5, by omega, by rw [a7, hrep]⟩

/-- What a search that yields leaves of the history: last the draw of its candidate, then the events of its test (R96, R97). -/
theorem primeSearchLoop_history {bits : Nat} {need3 : Bool} {trials retry bound sampled : Nat} {x y : Ports} {c k : Nat}
    (h : primeSearchLoop bits need3 trials retry bound sampled x = .yields (c, k) y) :
    ∃ (r : Nat) (earlier : List Event) (z : Ports), c = candidate bits r ∧
      z.history = x.history ++ earlier ++ [.randBits bits r] ∧ probablePrime c trials z = .yields true y := by
  induction bound generalizing sampled x with
  | zero => simp [primeSearchLoop] at h
  | succ b ih =>
    unfold primeSearchLoop at h
    split at h
    · simp at h
    · rw [andThen_eq_yields] at h
      obtain ⟨r, x1, h1, h⟩ := h
      rw [andThen_eq_yields] at h
      obtain ⟨ok, x2, h2, h⟩ := h
      rw [randBits, draw_eq_yields] at h1
      obtain ⟨r0, rest, -, rfl, rfl⟩ := h1
      split at h
      · rename_i hacc
        simp only [Run.yields.injEq, Prod.mk.injEq] at h
        obtain ⟨⟨rfl, -⟩, rfl⟩ := h
        obtain ⟨rfl, -⟩ := Bool.and_eq_true_iff.mp hacc
        exact ⟨_, [], _, rfl, by simp, h2⟩
      · obtain ⟨r, earlier, z, e1, e2, e3⟩ := ih h
        have hf := follows_probablePrime (candidate bits (r0 % 2 ^ bits)) trials
          { answers := rest, repliesLeft := x.repliesLeft, history := x.history ++ [.randBits bits (r0 % 2 ^ bits)] }
        rw [h2] at hf
        obtain ⟨-, mid, hm, -⟩ := hf
        refine ⟨r, .randBits bits (r0 % 2 ^ bits) :: (mid ++ earlier), z, e1, ?_, e3⟩
        rw [e2]
        simp only [Run.ports] at hm
        rw [hm]
        simp

theorem primeSearch_yields {bits : Nat} {need3 : Bool} {trials retry sampled : Nat} {x y : Ports} {c k : Nat}
    (hb : 2 ≤ bits) (h : primeSearch bits need3 trials retry sampled x = .yields (c, k) y) :
    2 ^ (bits - 1) ≤ c ∧ c < 2 ^ bits ∧ c % 2 = 1 ∧ (need3 = true → c % 4 = 3) ∧
      (c ∈ Config.smallPrimes ∨ (trialDiv c = .unknown ∧ ∃ z, millerRabin c trials z = .yields true y)) ∧
      sampled < k ∧ y.repliesLeft = x.repliesLeft :=
  primeSearchLoop_yields hb h

/-- A search that yields has taken at least one answer. -/
theorem primeSearch_length {bits : Nat} {need3 : Bool} {trials retry sampled : Nat} {x y : Ports} {ck : Nat × Nat}
    (h : primeSearch bits need3 trials retry sampled x = .yields ck y) : y.answers.length < x.answers.length := by
  rw [primeSearch_eq] at h
  split at h
  · simp at h
  · rw [andThen_eq_yields] at h
    obtain ⟨r, x1, h1, h⟩ := h
    rw [randBits, draw_eq_yields] at h1
    obtain ⟨r0, rest, hx, rfl, rfl⟩ := h1
    have hf : Ports.Follows (fun e => e.isRandom = true)
        { answers := rest, repliesLeft := x.repliesLeft, history := x.history ++ [.randBits bits (r0 % 2 ^ bits)] } y := by
      have := follows_andThen (follows_probablePrime (candidate bits (r0 % 2 ^ bits)) trials
          { answers := rest, repliesLeft := x.repliesLeft, history := x.history ++ [.randBits bits (r0 % 2 ^ bits)] })
        (f := fun ok z => if ok && (!need3 || decide (candidate bits (r0 % 2 ^ bits) % 4 = 3)) then
            .yields (candidate bits (r0 % 2 ^ bits), sampled + 1) z
          else primeSearch bits need3 trials retry (sampled + 1) z) (by
            intro ok z _
            split
            · exact follows_refl _ _
            · exact follows_primeSearch _ _ _ _ _ _)
      rw [h] at this
      exact this
    have := follows_length hf
    rw [hx]
    simp only [List.length_cons] at this ⊢
    omega

/-- Only a bounded search is exhausted (60_exceptions R173). -/
theorem primeSearchLoop_exhausted {bits : Nat} {need3 : Bool} {trials retry bound sampled : Nat} {x y : Ports}
    (h : primeSearchLoop bits need3 trials retry bound sampled x = .exhausted y) : retry ≠ 0 := by
  induction bound generalizing sampled x with
  | zero => simp [primeSearchLoop] at h
  | succ b ih =>
    unfold primeSearchLoop at h
    split at h
    · rename_i hr; exact hr.1
    · rw [andThen_eq_exhausted] at h
      rcases h with h | ⟨r, x1, h1, h⟩
      · exact absurd h (draw_not_exhausted _ _ _ _)
      · rw [andThen_eq_exhausted] at h
        rcases h with h | ⟨ok, x2, h2, h⟩
        · exact absurd h (probablePrime_not_exhausted _ _ _ _)
        · split at h
          · simp at h
          · exact ih h

theorem primeSearch_exhausted {bits : Nat} {need3 : Bool} {trials retry sampled : Nat} {x y : Ports}
    (h : primeSearch bits need3 trials retry sampled x = .exhausted y) : retry ≠ 0 :=
  primeSearchLoop_exhausted h

/-! ## Counting candidates (60_exceptions R173) -/

/-- The Miller-Rabin rounds draw no candidate. -/
theorem millerRabin_noCandidate (n trials : Nat) (x : Ports) :
    Ports.Follows (fun e => e.isCandidate = false) x (millerRabin n trials x).ports := by
  induction trials generalizing x with
  | zero => exact follows_refl _ _
  | succ k ih =>
    unfold millerRabin
    refine follows_andThen (follows_draw (P := fun e => e.isCandidate = false)
      (event := fun v => .randRange 2 (n - 2) v) (fun _ => rfl) x) fun a y _ => ?_
    split
    · exact ih y
    · exact follows_refl _ _

theorem probablePrime_noCandidate (c trials : Nat) (x : Ports) :
    Ports.Follows (fun e => e.isCandidate = false) x (probablePrime c trials x).ports := by
  unfold probablePrime
  split
  · exact follows_refl _ _
  · exact follows_refl _ _
  · exact millerRabin_noCandidate c trials x

/-- The number of candidate draws from one set of ports to another. -/
def Ports.Candidates (x y : Ports) (n : Nat) : Prop :=
  ∃ events, y.history = x.history ++ events ∧ events.countP Event.isCandidate = n

theorem candidates_refl (x : Ports) : Ports.Candidates x x 0 := ⟨[], by simp, rfl⟩

theorem candidates_trans {x y z : Ports} {m n : Nat} (h1 : Ports.Candidates x y m) (h2 : Ports.Candidates y z n) :
    Ports.Candidates x z (m + n) := by
  obtain ⟨e1, a1, b1⟩ := h1
  obtain ⟨e2, a2, b2⟩ := h2
  exact ⟨e1 ++ e2, by rw [a2, a1, List.append_assoc], by rw [List.countP_append, b1, b2]⟩

theorem candidates_of_follows {x y : Ports} (h : Ports.Follows (fun e => e.isCandidate = false) x y) :
    Ports.Candidates x y 0 := by
  obtain ⟨-, events, h1, h2⟩ := h
  refine ⟨events, h1, ?_⟩
  rw [List.countP_eq_zero]
  intro e he
  simp [h2 e he]

/-- A pass of the search that goes on or yields has drawn one candidate. -/
theorem primeSearchLoop_candidates {bits : Nat} {need3 : Bool} {trials retry bound sampled : Nat} {x : Ports} :
    (∀ c k y, primeSearchLoop bits need3 trials retry bound sampled x = .yields (c, k) y →
      (sampled ≤ retry → retry ≠ 0 → k ≤ retry) ∧ sampled ≤ k ∧ Ports.Candidates x y (k - sampled)) ∧
      ∀ y, primeSearchLoop bits need3 trials retry bound sampled x = .exhausted y → sampled ≤ retry →
        Ports.Candidates x y (retry - sampled) := by
  induction bound generalizing sampled x with
  | zero => simp [primeSearchLoop]
  | succ b ih =>
    unfold primeSearchLoop
    split
    · rename_i hr
      refine ⟨fun c k y h => (nomatch h), fun y h _ => ?_⟩
      cases h
      rw [hr.2, Nat.sub_self]
      exact candidates_refl _
    · rename_i hr
      cases hx : x.answers with
      | nil => rw [randBits_nil hx]; exact ⟨fun _ _ _ h => (nomatch h), fun _ h => (nomatch h)⟩
      | cons r rest =>
        rw [randBits, draw_cons _ _ _ hx, andThen_yields]
        have hf := candidates_of_follows (probablePrime_noCandidate (candidate bits (r % 2 ^ bits)) trials
          { answers := rest, repliesLeft := x.repliesLeft, history := x.history ++ [.randBits bits (r % 2 ^ bits)] })
        have h1 : Ports.Candidates x ⟨rest, x.repliesLeft, x.history ++ [.randBits bits (r % 2 ^ bits)]⟩ 1 :=
          ⟨_, rfl, rfl⟩
        have h2 := candidates_trans h1 hf
        cases hp : probablePrime (candidate bits (r % 2 ^ bits)) trials
            { answers := rest, repliesLeft := x.repliesLeft, history := x.history ++ [.randBits bits (r % 2 ^ bits)] } with
        | exhausted y => exact absurd hp (probablePrime_not_exhausted _ _ _ _)
        | waits y => exact ⟨fun _ _ _ h => (nomatch h), fun _ h => (nomatch h)⟩
        | yields ok y =>
          rw [hp] at h2
          simp only [andThen_yields]
          split
          · refine ⟨fun c k z h => ?_, fun _ h => (nomatch h)⟩
            simp only [Run.yields.injEq, Prod.mk.injEq] at h
            obtain ⟨⟨-, rfl⟩, rfl⟩ := h
            refine ⟨fun a e => by omega, by omega, ?_⟩
            rw [Nat.add_sub_cancel_left]
            exact h2
          · obtain ⟨i1, i2⟩ := ih (sampled := sampled + 1) (x := y)
            refine ⟨fun c k z h => ?_, fun z h hs => ?_⟩
            · obtain ⟨j1, j2, j3⟩ := i1 c k z h
              refine ⟨fun a e => j1 (by omega) e, by omega, ?_⟩
              rw [show k - sampled = 1 + 0 + (k - (sampled + 1)) by omega]
              exact candidates_trans h2 j3
            · have hne : retry ≠ 0 := primeSearchLoop_exhausted h
              have j := i2 z h (by omega)
              rw [show retry - sampled = 1 + 0 + (retry - (sampled + 1)) by omega]
              exact candidates_trans h2 j

end Sys2Proof.Machine
end

