-- ==== Sys2Proof/Laws/Generators.lean ====
section
/-! SUPPORT. What the QCG and BBS stages come to: the emitted bits, the factors, the seed (41_generators R110 to R118). -/

namespace Sys2Proof.Machine

/-! ## Emitted bits (R111, R116) -/

@[simp] theorem emitBits_length (step : Nat → Nat) (count x : Nat) : (emitBits step count x).1.length = count := by
  induction count generalizing x with
  | zero => rfl
  | succ c ih => simp [emitBits, ih]

/-- The last state is the seed stepped `count` times. -/
theorem emitBits_snd (step : Nat → Nat) (count x : Nat) : (emitBits step count x).2 = step^[count] x := by
  induction count generalizing x with
  | zero => rfl
  | succ c ih => rw [Function.iterate_succ_apply]; exact ih _

/-- Emitted bit k is the least significant bit of x_{k+1}. -/
theorem emitBits_getElem? (step : Nat → Nat) {count k : Nat} (x : Nat) (h : k < count) :
    (emitBits step count x).1[k]? = some (lsb (step^[k + 1] x)) := by
  induction count generalizing x k with
  | zero => omega
  | succ c ih =>
    cases k with
    | zero => simp [emitBits]
    | succ k =>
      simp only [emitBits, List.getElem?_cons_succ]
      rw [ih (step x) (by omega), Function.iterate_succ_apply step (k + 1)]

/-- A shorter run is a prefix of a longer one (R118). -/
theorem emitBits_take (step : Nat → Nat) {short long : Nat} (x : Nat) (h : short ≤ long) :
    (emitBits step long x).1.take short = (emitBits step short x).1 := by
  induction short generalizing long x with
  | zero => simp [emitBits]
  | succ c ih =>
    cases long with
    | zero => omega
    | succ l => simp [emitBits, ih (step x) (show c ≤ l by omega)]

/-- One QCG step depends only on the residue modulo QCG_M (R112). -/
theorem qStep_mod (x : Nat) : qStep (x % Config.qcgM) = qStep x := by
  unfold qStep
  exact (((Nat.mod_modEq x _).pow 2).mul_left _ |>.add ((Nat.mod_modEq x _).mul_left _)).add_right _

theorem emitBits_qStep_mod (count x : Nat) :
    (emitBits qStep count (x % Config.qcgM)).1 = (emitBits qStep count x).1 := by
  cases count with
  | zero => rfl
  | succ c => simp [emitBits, qStep_mod]

/-! ## The factors (R113) -/

theorem follows_bbsQLoop (bits p trials retry bound sampled : Nat) (x : Ports) :
    Ports.Follows (fun e => e.isRandom = true) x (bbsQLoop bits p trials retry bound sampled x).ports := by
  induction bound generalizing sampled x with
  | zero => exact follows_refl _ _
  | succ b ih =>
    unfold bbsQLoop
    refine follows_andThen (follows_primeSearch ..) fun found y _ => ?_
    split
    · exact ih _ y
    · exact follows_refl _ _

/-- Any bound above the number of answers gives the same resampling: the bound never ends it. -/
theorem bbsQLoop_bound (bits p trials retry : Nat) :
    ∀ (b1 b2 sampled : Nat) (x : Ports), x.answers.length < b1 → x.answers.length < b2 →
      bbsQLoop bits p trials retry b1 sampled x = bbsQLoop bits p trials retry b2 sampled x := by
  intro b1
  induction b1 with
  | zero => intro b2 sampled x h1; omega
  | succ b1 ih =>
    intro b2 sampled x h1 h2
    cases b2 with
    | zero => omega
    | succ b2 =>
      unfold bbsQLoop
      cases hr : primeSearch bits true trials retry sampled x with
      | exhausted y => rfl
      | waits y => rfl
      | yields found y =>
        have := primeSearch_length hr
        simp only [andThen_yields]
        split
        · exact ih b2 _ y (by omega) (by omega)
        · rfl

/-- The resampling is the loop of R113: a prime, again while it equals p. -/
theorem bbsFactor_eq (bits p trials retry sampled : Nat) (x : Ports) :
    bbsFactor bits p trials retry sampled x =
      (primeSearch bits true trials retry sampled x).andThen fun found y =>
        if found.1 = p then bbsFactor bits p trials retry found.2 y else .yields found y := by
  unfold bbsFactor
  rw [bbsQLoop]
  cases hr : primeSearch bits true trials retry sampled x with
  | exhausted y => rfl
  | waits y => rfl
  | yields found y =>
    have := primeSearch_length hr
    simp only [andThen_yields]
    split
    · exact bbsQLoop_bound _ _ _ _ _ _ _ _ (by omega) (by omega)
    · rfl

/-- What the resampling yields: a prime of the search other than p. -/
theorem bbsQLoop_yields {bits p trials retry bound sampled : Nat} {x y : Ports} {q k : Nat}
    (h : bbsQLoop bits p trials retry bound sampled x = .yields (q, k) y) :
    q ≠ p ∧ ∃ sampled' x', primeSearch bits true trials retry sampled' x' = .yields (q, k) y := by
  induction bound generalizing sampled x with
  | zero => simp [bbsQLoop] at h
  | succ b ih =>
    unfold bbsQLoop at h
    rw [andThen_eq_yields] at h
    obtain ⟨found, x1, h1, h⟩ := h
    split at h
    · exact ih h
    · rename_i hne
      simp only [Run.yields.injEq] at h
      obtain ⟨rfl, rfl⟩ := h
      exact ⟨hne, _, _, h1⟩

theorem bbsQLoop_exhausted {bits p trials retry bound sampled : Nat} {x y : Ports}
    (h : bbsQLoop bits p trials retry bound sampled x = .exhausted y) : retry ≠ 0 := by
  induction bound generalizing sampled x with
  | zero => simp [bbsQLoop] at h
  | succ b ih =>
    unfold bbsQLoop at h
    rw [andThen_eq_exhausted] at h
    rcases h with h | ⟨found, x1, -, h⟩
    · exact primeSearch_exhausted h
    · split at h
      · exact ih h
      · simp at h

/-! ## The seed (R114) -/

theorem follows_bbsSeedLoop (nmod bound : Nat) (x : Ports) :
    Ports.Follows (fun e => e.isRandom = true) x (bbsSeedLoop nmod bound x).ports := by
  induction bound generalizing x with
  | zero => exact follows_refl _ _
  | succ b ih =>
    unfold bbsSeedLoop
    refine follows_andThen (follows_randRange 1 (nmod - 1) x) fun s y _ => ?_
    split
    · exact follows_refl _ _
    · exact ih y

theorem bbsSeedLoop_bound (nmod : Nat) :
    ∀ (b1 b2 : Nat) (x : Ports), x.answers.length < b1 → x.answers.length < b2 →
      bbsSeedLoop nmod b1 x = bbsSeedLoop nmod b2 x := by
  intro b1
  induction b1 with
  | zero => intro b2 x h1; omega
  | succ b1 ih =>
    intro b2 x h1 h2
    cases b2 with
    | zero => omega
    | succ b2 =>
      unfold bbsSeedLoop
      cases hx : x.answers with
      | nil => simp [randRange_nil hx]
      | cons r rest =>
        rw [hx] at h1 h2
        simp only [List.length_cons] at h1 h2
        rw [randRange, draw_cons _ _ _ hx, andThen_yields, andThen_yields]
        split
        · rfl
        · exact ih b2 _ (by simp; omega) (by simp; omega)

/-- The seed draws are the loop of R114: a seed, again while it is not coprime to the modulus. -/
theorem bbsSeedDraw_eq (nmod : Nat) (x : Ports) :
    bbsSeedDraw nmod x =
      (randRange 1 (nmod - 1) x).andThen fun s y =>
        if Nat.gcd s nmod = 1 then .yields s y else bbsSeedDraw nmod y := by
  unfold bbsSeedDraw
  rw [bbsSeedLoop]
  cases hx : x.answers with
  | nil => simp [randRange_nil hx]
  | cons r rest =>
    rw [randRange, draw_cons _ _ _ hx, andThen_yields, andThen_yields]
    split
    · rfl
    · exact bbsSeedLoop_bound _ _ _ _ (by simp) (by simp)

theorem bbsSeedLoop_yields {nmod bound : Nat} {x y : Ports} {s : Nat} (h : bbsSeedLoop nmod bound x = .yields s y) :
    Nat.gcd s nmod = 1 := by
  induction bound generalizing x with
  | zero => simp [bbsSeedLoop] at h
  | succ b ih =>
    unfold bbsSeedLoop at h
    rw [andThen_eq_yields] at h
    obtain ⟨s', x1, -, h⟩ := h
    split at h
    · rename_i hg
      simp only [Run.yields.injEq] at h
      rw [← h.1]; exact hg
    · exact ih h

theorem bbsSeedLoop_not_exhausted (nmod bound : Nat) (x y : Ports) : bbsSeedLoop nmod bound x ≠ .exhausted y := by
  induction bound generalizing x with
  | zero => simp [bbsSeedLoop]
  | succ b ih =>
    unfold bbsSeedLoop
    intro h
    rw [andThen_eq_exhausted] at h
    rcases h with h | ⟨s, x1, -, h⟩
    · exact draw_not_exhausted _ _ _ _ h
    · split at h
      · simp at h
      · exact ih _ h

theorem follows_bbsSeed (nmod : Nat) (x : Ports) :
    Ports.Follows (fun e => e.isRandom = true) x (bbsSeed nmod x).ports :=
  follows_andThen (follows_bbsSeedLoop ..) fun _ _ _ => follows_refl _ _

/-! ## The start of a BBS command (R116) -/

theorem follows_bbsStart (bits trials retry : Nat) (x : Ports) :
    Ports.Follows (fun e => e.isRandom = true) x (bbsStart bits trials retry x).ports := by
  refine follows_andThen (follows_andThen (follows_primeSearch ..) fun p y _ =>
    follows_andThen (follows_bbsQLoop ..) fun _ _ _ => follows_refl _ _) fun pq y _ => ?_
  exact follows_andThen (follows_bbsSeed _ y) fun _ _ _ => follows_refl _ _

/-- What BBS starts from: two different primes of the search, and x_0 the square of a seed coprime to their product. -/
theorem bbsStart_yields {bits trials retry : Nat} {x y : Ports} {p q x0 : Nat}
    (h : bbsStart bits trials retry x = .yields ((p, q), x0) y) :
    p ≠ q ∧ (∃ k x1 y1, primeSearch bits true trials retry 0 x1 = .yields (p, k) y1) ∧
      (∃ j k x1 y1, primeSearch bits true trials retry j x1 = .yields (q, k) y1) ∧
      ∃ s, Nat.gcd s (p * q) = 1 ∧ x0 = s * s % (p * q) := by
  unfold bbsStart bbsSetup at h
  rw [andThen_eq_yields] at h
  obtain ⟨pq, x1, h1, h⟩ := h
  rw [andThen_eq_yields] at h1
  obtain ⟨⟨p', kp⟩, x2, hp, h1⟩ := h1
  rw [andThen_eq_yields] at h1
  obtain ⟨⟨q', kq⟩, x3, hq, h1⟩ := h1
  simp only [Run.yields.injEq] at h1
  obtain ⟨rfl, rfl⟩ := h1
  rw [andThen_eq_yields] at h
  obtain ⟨x0', x4, hs, h⟩ := h
  simp only [Run.yields.injEq, Prod.mk.injEq] at h
  obtain ⟨⟨⟨rfl, rfl⟩, rfl⟩, rfl⟩ := h
  unfold bbsSeed at hs
  rw [andThen_eq_yields] at hs
  obtain ⟨s, x5, hs1, hs2⟩ := hs
  simp only [Run.yields.injEq] at hs2
  obtain ⟨hne, j, x6, hq'⟩ := bbsQLoop_yields hq
  exact ⟨fun e => hne e.symm, ⟨_, _, _, hp⟩, ⟨_, _, _, _, hq'⟩, s, bbsSeedLoop_yields hs1, hs2.1.symm⟩

theorem bbsStart_exhausted {bits trials retry : Nat} {x y : Ports}
    (h : bbsStart bits trials retry x = .exhausted y) : retry ≠ 0 := by
  unfold bbsStart bbsSetup at h
  rw [andThen_eq_exhausted] at h
  rcases h with h | ⟨pq, x1, -, h⟩
  · rw [andThen_eq_exhausted] at h
    rcases h with h | ⟨p, x2, -, h⟩
    · exact primeSearch_exhausted h
    · rw [andThen_eq_exhausted] at h
      rcases h with h | ⟨q, x3, -, h⟩
      · exact bbsQLoop_exhausted h
      · simp at h
  · rw [andThen_eq_exhausted] at h
    rcases h with h | ⟨x0, x2, -, h⟩
    · unfold bbsSeed at h
      rw [andThen_eq_exhausted] at h
      rcases h with h | ⟨s, x3, -, h⟩
      · exact absurd h (bbsSeedLoop_not_exhausted _ _ _ _)
      · simp at h
    · simp at h

/-! ## Counting candidates over p and every q (60_exceptions R173) -/

theorem bbsQLoop_candidates {bits p trials retry bound sampled : Nat} {x y : Ports}
    (h : bbsQLoop bits p trials retry bound sampled x = .exhausted y) (hs : sampled ≤ retry) :
    Ports.Candidates x y (retry - sampled) := by
  have hne := bbsQLoop_exhausted h
  induction bound generalizing sampled x with
  | zero => simp [bbsQLoop] at h
  | succ b ih =>
    unfold bbsQLoop at h
    rw [andThen_eq_exhausted] at h
    rcases h with h | ⟨⟨q, k⟩, x1, h1, h⟩
    · exact primeSearchLoop_candidates.2 y h hs
    · split at h
      · obtain ⟨a, b, c⟩ := primeSearchLoop_candidates.1 _ _ _ h1
        have := a hs hne
        rw [show retry - sampled = (k - sampled) + (retry - k) by omega]
        exact candidates_trans c (ih h this)
      · simp at h

/-- An exhausted BBS has drawn exactly CFG_RETRY candidates. -/
theorem bbsStart_candidates {bits trials retry : Nat} {x y : Ports}
    (h : bbsStart bits trials retry x = .exhausted y) : Ports.Candidates x y retry := by
  have hne := bbsStart_exhausted h
  unfold bbsStart bbsSetup at h
  rw [andThen_eq_exhausted] at h
  rcases h with h | ⟨pq, x1, -, h⟩
  · rw [andThen_eq_exhausted] at h
    rcases h with h | ⟨⟨p, k⟩, x2, h1, h⟩
    · exact primeSearchLoop_candidates.2 y h (Nat.zero_le _)
    · rw [andThen_eq_exhausted] at h
      rcases h with h | ⟨q, x3, -, h⟩
      · obtain ⟨a, b, c⟩ := primeSearchLoop_candidates.1 _ _ _ h1
        have := a (Nat.zero_le _) hne
        rw [show retry = (k - 0) + (retry - k) by omega]
        exact candidates_trans c (bbsQLoop_candidates h this)
      · simp at h
  · rw [andThen_eq_exhausted] at h
    rcases h with h | ⟨x0, x2, -, h⟩
    · unfold bbsSeed at h
      rw [andThen_eq_exhausted] at h
      rcases h with h | ⟨s, x3, -, h⟩
      · exact absurd h (bbsSeedLoop_not_exhausted _ _ _ _)
      · simp at h
    · simp at h

end Sys2Proof.Machine
end

