-- ==== Sys2Proof/Laws/Yarrow.lean ====
section
/-! SUPPORT. What the YARROW unit's stages come to: a rekey, a reseed, an emitted block, a block request, a run of block
requests and the loop of YGEN (42_yarrow R122 to R131). -/

namespace Sys2Proof.Machine

/-! ## The default adaptors (R134) -/

theorem fitBlock_length {p : Params} (h : p.altFitBlock = none) (h8 : 8 * p.k ≤ p.blk) (block : Nat) :
    (fitBlock p block).length = p.k := by
  simp only [fitBlock, h, List.length_take, bytesOfNat_length]
  omega

/-- The default FitBlock: byte j of the key is byte j of the block, the most significant first. -/
theorem fitBlock_getElem {p : Params} (h : p.altFitBlock = none) (hm : p.blk % 8 = 0) (h8 : 8 * p.k ≤ p.blk) (block : Nat)
    {j : Nat} (hj : j < p.k) : (fitBlock p block)[j]? = some (BitVec.ofNat 8 (block / 2 ^ (p.blk - 8 * (j + 1)))) := by
  have hb : j < p.blk / 8 := by omega
  have he : 8 * (p.blk / 8 - 1 - j) = p.blk - 8 * (j + 1) := by omega
  simp only [fitBlock, h, List.getElem?_take_of_lt hj, bytesOfNat, List.getElem?_map, List.getElem?_range hb, Option.map_some]
  rw [show (256 : Nat) = 2 ^ 8 from rfl, ← Nat.pow_mul, he]

/-! ## Nothing of the unit is exhausted -/

theorem hashAll_not_exhausted (p : Params) (ms : List (List Byte)) (x y : Ports) : hashAll p ms x ≠ .exhausted y := by
  induction ms generalizing x with
  | nil => simp [hashAll]
  | cons m rest ih =>
    unfold hashAll
    intro h
    rw [andThen_eq_exhausted] at h
    rcases h with h | ⟨_, z, -, h⟩
    · exact invoke_not_exhausted _ _ _ _ h
    · exact ih _ h

theorem hashChain_not_exhausted (p : Params) (e : List Byte) (rounds : Nat) (v : List Byte) (x y : Ports) :
    hashChain p e rounds v x ≠ .exhausted y := by
  induction rounds generalizing v x with
  | zero => simp [hashChain]
  | succ k ih =>
    unfold hashChain
    intro h
    rw [andThen_eq_exhausted] at h
    rcases h with h | ⟨_, z, -, h⟩
    · exact invoke_not_exhausted _ _ _ _ h
    · exact ih _ _ h

theorem chain3_not_exhausted (p : Params) (key e : List Byte) (x y : Ports) : chain3 p key e x ≠ .exhausted y := by
  unfold chain3
  split
  · exact hashChain_not_exhausted _ _ _ _ _ _
  · intro h
    rw [andThen_eq_exhausted] at h
    rcases h with h | ⟨_, z, -, h⟩
    · exact hashAll_not_exhausted _ _ _ _ h
    · simp at h

theorem reseed_not_exhausted (p : Params) (h : Handle) (x y : Ports) : reseed p h x ≠ .exhausted y := by
  unfold reseed
  intro e
  rw [andThen_eq_exhausted] at e
  rcases e with e | ⟨_, z, -, e⟩
  · exact draw_not_exhausted _ _ _ _ e
  · simp only at e
    rw [andThen_eq_exhausted] at e
    rcases e with e | ⟨_, z, -, e⟩
    · exact chain3_not_exhausted _ _ _ _ _ e
    · rw [andThen_eq_exhausted] at e
      rcases e with e | ⟨_, z, -, e⟩
      · exact invoke_not_exhausted _ _ _ _ e
      · simp at e

theorem blockRequest_not_exhausted (p : Params) (h : Handle) (x y : Ports) : blockRequest p h x ≠ .exhausted y := by
  unfold blockRequest
  intro e
  rw [andThen_eq_exhausted] at e
  rcases e with e | ⟨h1, z, -, e⟩
  · unfold rekeyIfDue at e
    split at e
    · unfold rekey at e
      rw [andThen_eq_exhausted] at e
      rcases e with e | ⟨_, _, -, e⟩
      · exact invoke_not_exhausted _ _ _ _ e
      · simp at e
    · simp at e
  · rw [andThen_eq_exhausted] at e
    rcases e with e | ⟨h2, z2, -, e⟩
    · unfold reseedIfDue at e
      split at e
      · exact reseed_not_exhausted _ _ _ _ e
      · simp at e
    · unfold emitBlock at e
      rw [andThen_eq_exhausted] at e
      rcases e with e | ⟨_, _, -, e⟩
      · exact invoke_not_exhausted _ _ _ _ e
      · simp at e

theorem blockRequests_not_exhausted (p : Params) (n : Nat) (h : Handle) (x y : Ports) :
    blockRequests p n h x ≠ .exhausted y := by
  induction n generalizing h x with
  | zero => simp [blockRequests]
  | succ k ih =>
    unfold blockRequests
    intro e
    rw [andThen_eq_exhausted] at e
    rcases e with e | ⟨_, z, -, e⟩
    · exact blockRequest_not_exhausted _ _ _ _ e
    · rw [andThen_eq_exhausted] at e
      rcases e with e | ⟨_, z, -, e⟩
      · exact ih _ _ e
      · simp at e

/-! ## The events of the unit (R133) -/

theorem follows_hashAll (p : Params) (ms : List (List Byte)) (x : Ports) :
    Ports.Follows (fun e => e.isYarrow = true) x (hashAll p ms x).ports := by
  induction ms generalizing x with
  | nil => exact follows_refl _ _
  | cons m rest ih =>
    exact follows_andThen (follows_invoke (P := fun e => e.isYarrow = true) rfl x) fun _ y _ => ih y

theorem follows_hashChain (p : Params) (e : List Byte) (rounds : Nat) (v : List Byte) (x : Ports) :
    Ports.Follows (fun e => e.isYarrow = true) x (hashChain p e rounds v x).ports := by
  induction rounds generalizing v x with
  | zero => exact follows_refl _ _
  | succ k ih =>
    exact follows_andThen (follows_invoke (P := fun e => e.isYarrow = true) rfl x) fun v y _ => ih v y

theorem follows_chain3 (p : Params) (key e : List Byte) (x : Ports) :
    Ports.Follows (fun e => e.isYarrow = true) x (chain3 p key e x).ports := by
  unfold chain3
  split
  · exact follows_hashChain ..
  · exact follows_andThen (follows_hashAll ..) fun _ _ _ => follows_refl _ _

theorem follows_entropyBytes (k : Nat) (x : Ports) :
    Ports.Follows (fun e => e.isYarrow = true) x (entropyBytes k x).ports :=
  follows_draw (P := fun e => e.isYarrow = true) (event := fun b => .entropyBytes k b) (fun _ => rfl) x

theorem follows_reseed (p : Params) (h : Handle) (x : Ports) :
    Ports.Follows (fun e => e.isYarrow = true) x (reseed p h x).ports := by
  refine follows_andThen (follows_entropyBytes p.elen x) fun _ y _ => ?_
  refine follows_andThen (follows_chain3 ..) fun _ z _ => ?_
  exact follows_andThen (follows_invoke (P := fun e => e.isYarrow = true) rfl z) fun _ _ _ => follows_refl _ _

theorem follows_blockRequest (p : Params) (h : Handle) (x : Ports) :
    Ports.Follows (fun e => e.isYarrow = true) x (blockRequest p h x).ports := by
  unfold blockRequest
  refine follows_andThen ?_ fun h1 y _ => ?_
  · unfold rekeyIfDue
    split
    · exact follows_andThen (follows_invoke (P := fun e => e.isYarrow = true) rfl x) fun _ _ _ => follows_refl _ _
    · exact follows_refl _ _
  · refine follows_andThen ?_ fun h2 z _ => ?_
    · unfold reseedIfDue
      split
      · exact follows_reseed ..
      · exact follows_refl _ _
    · exact follows_andThen (follows_invoke (P := fun e => e.isYarrow = true) rfl z) fun _ _ _ => follows_refl _ _

theorem follows_blockRequests (p : Params) (n : Nat) (h : Handle) (x : Ports) :
    Ports.Follows (fun e => e.isYarrow = true) x (blockRequests p n h x).ports := by
  induction n generalizing h x with
  | zero => exact follows_refl _ _
  | succ k ih =>
    refine follows_andThen (follows_blockRequest p h x) fun out y _ => ?_
    exact follows_andThen (ih out.2 y) fun _ _ _ => follows_refl _ _

/-! ## One block request (R122 to R126) -/

theorem rekeyIfDue_yields {p : Params} {h h' : Handle} {x y : Ports} (e : rekeyIfDue p h x = .yields h' y) :
    h'.ctr = h.ctr ∧ h'.pool = h.pool ∧ h'.pg = h.pg ∧ h'.pt = h.pt ∧ h'.ptRem = h.ptRem ∧ y.answers = x.answers ∧
      h'.pgRem = (if h.pgRem = 0#32 then h.pg else h.pgRem) ∧
      h'.key = (if h.pgRem = 0#32 then fitBlock p (cipherBlock p h.key h.ctr) else h.key) := by
  unfold rekeyIfDue at e
  split at e
  · rename_i h0
    unfold rekey at e
    rw [andThen_eq_yields] at e
    obtain ⟨b, z, e1, e2⟩ := e
    obtain ⟨rfl, ha, -⟩ := invoke_eq_yields e1
    simp only [Run.yields.injEq] at e2
    obtain ⟨rfl, rfl⟩ := e2
    simp [h0, ha]
  · rename_i h0
    simp only [Run.yields.injEq] at e
    obtain ⟨rfl, rfl⟩ := e
    simp [h0]

theorem reseedIfDue_yields {p : Params} {h h' : Handle} {x y : Ports} (e : reseedIfDue p h x = .yields h' y) :
    h'.pg = h.pg ∧ h'.pt = h.pt ∧ h'.pgRem = h.pgRem ∧
      h'.ptRem = (if h.ptRem = 0#32 then h.pt else h.ptRem) ∧
      h'.ctr = (if h.ptRem = 0#32 then nextCtr p h.ctr else h.ctr) := by
  unfold reseedIfDue at e
  split at e
  · rename_i h0
    unfold reseed at e
    rw [andThen_eq_yields] at e
    obtain ⟨raw, z, e1, e⟩ := e
    simp only at e
    rw [andThen_eq_yields] at e
    obtain ⟨c, z2, -, e⟩ := e
    rw [andThen_eq_yields] at e
    obtain ⟨d, z3, -, e⟩ := e
    simp only [Run.yields.injEq] at e
    obtain ⟨rfl, rfl⟩ := e
    simp [h0]
  · rename_i h0
    simp only [Run.yields.injEq] at e
    obtain ⟨rfl, rfl⟩ := e
    simp [h0]

theorem emitBlock_yields {p : Params} {h h' : Handle} {x y : Ports} {b : Nat} (e : emitBlock p h x = .yields (b, h') y) :
    b = cipherBlock p h.key h.ctr ∧
      h' = { h with ctr := nextCtr p h.ctr, pgRem := h.pgRem - 1#32, ptRem := h.ptRem - 1#32 } := by
  unfold emitBlock at e
  rw [andThen_eq_yields] at e
  obtain ⟨b', z, e1, e2⟩ := e
  obtain ⟨rfl, -, -⟩ := invoke_eq_yields e1
  simp only [Run.yields.injEq, Prod.mk.injEq] at e2
  exact ⟨e2.1.1.symm, e2.1.2.symm⟩

/-- What a block request does to the thresholds, the countdowns and the counter. -/
theorem blockRequest_yields {p : Params} {h h' : Handle} {x y : Ports} {b : Nat}
    (e : blockRequest p h x = .yields (b, h') y) :
    h'.pg = h.pg ∧ h'.pt = h.pt ∧
      h'.pgRem = (if h.pgRem = 0#32 then h.pg else h.pgRem) - 1#32 ∧
      h'.ptRem = (if h.ptRem = 0#32 then h.pt else h.ptRem) - 1#32 ∧
      h'.ctr = nextCtr p (if h.ptRem = 0#32 then nextCtr p h.ctr else h.ctr) ∧
      b < 2 ^ p.blk := by
  unfold blockRequest at e
  rw [andThen_eq_yields] at e
  obtain ⟨h1, x1, e1, e⟩ := e
  rw [andThen_eq_yields] at e
  obtain ⟨h2, x2, e2, e3⟩ := e
  obtain ⟨a1, a2, a3, a4, a5, a6, a7, -⟩ := rekeyIfDue_yields e1
  obtain ⟨b1, b2, b3, b4, b5⟩ := reseedIfDue_yields e2
  obtain ⟨rfl, rfl⟩ := emitBlock_yields e3
  simp only [b1, b2, b3, b4, b5, a1, a3, a4, a5, a7]
  exact ⟨trivial, trivial, trivial, trivial, trivial, cipherBlock_lt _ _ _⟩

/-! ## All invocations answered -/

theorem hashAll_answered (p : Params) (ms : List (List Byte)) {x : Ports} (h : x.repliesLeft = none) :
    ∃ y, hashAll p ms x = .yields () y ∧ y.repliesLeft = none ∧ y.answers = x.answers := by
  induction ms generalizing x with
  | nil => exact ⟨x, rfl, h, rfl⟩
  | cons m rest ih =>
    unfold hashAll
    rw [invokeHash, invoke_of_all_answered _ _ h, andThen_yields]
    exact ih h

theorem hashChain_answered (p : Params) (e : List Byte) (rounds : Nat) (v : List Byte) {x : Ports}
    (h : x.repliesLeft = none) :
    ∃ c y, hashChain p e rounds v x = .yields c y ∧ y.repliesLeft = none ∧ y.answers = x.answers := by
  induction rounds generalizing v x with
  | zero => exact ⟨v, x, rfl, h, rfl⟩
  | succ k ih =>
    unfold hashChain
    rw [invokeHash, invoke_of_all_answered _ _ h, andThen_yields]
    exact ih _ h

theorem chain3_answered (p : Params) (key e : List Byte) {x : Ports} (h : x.repliesLeft = none) :
    ∃ c y, chain3 p key e x = .yields c y ∧ y.repliesLeft = none ∧ y.answers = x.answers := by
  unfold chain3
  split
  · exact hashChain_answered _ _ _ _ h
  · obtain ⟨y, hy, h1, h2⟩ := hashAll_answered p (Config.otherChainMessages ‹_› p key e) h
    rw [hy, andThen_yields]
    exact ⟨_, y, rfl, h1, h2⟩

/-- The default chain with every invocation answered: three hashes, each over the previous value and the entropy (R124). -/
theorem chain3_default {p : Params} (hp : p.altChain = none) (key e : List Byte) (answers : List Nat)
    (history : List Event) (v1 v2 v3 : List Byte) (h1 : v1 = hashBytes p (key ++ e)) (h2 : v2 = hashBytes p (v1 ++ e))
    (h3 : v3 = hashBytes p (v2 ++ e)) :
    chain3 p key e ⟨answers, none, history⟩ = .yields v3
      ⟨answers, none, history ++ [.hash (key ++ e) v1, .hash (v1 ++ e) v2, .hash (v2 ++ e) v3]⟩ := by
  subst h1 h2 h3
  simp [chain3, hp, Config.chainRounds, hashChain, invokeHash, invoke, Run.andThen, Ports.record]

/-- With the cipher and hash answering and an entropy pull answered where one is due, a block request yields a block. -/
theorem blockRequest_answered (p : Params) (h : Handle) {x : Ports} (hr : x.repliesLeft = none)
    (ha : h.ptRem = 0#32 → x.answers ≠ []) :
    ∃ b h' y, blockRequest p h x = .yields (b, h') y ∧ y.repliesLeft = none ∧
      y.answers = x.answers.drop (if h.ptRem = 0#32 then 1 else 0) := by
  have key : ∀ (h1 : Handle) (x1 : Ports), x1.repliesLeft = none → x1.answers = x.answers → h1.ptRem = h.ptRem →
      ∃ b h' y, ((reseedIfDue p h1 x1).andThen fun h x => emitBlock p h x) = .yields (b, h') y ∧ y.repliesLeft = none ∧
        y.answers = x.answers.drop (if h.ptRem = 0#32 then 1 else 0) := by
    intro h1 x1 hr1 ha1 hp1
    unfold reseedIfDue
    rw [hp1]
    by_cases h0 : h.ptRem = 0#32
    · rw [if_pos h0, if_pos h0]
      unfold reseed
      cases hx : x.answers with
      | nil => exact absurd hx (ha h0)
      | cons r rest =>
        rw [entropyBytes, draw_cons _ _ _ (ha1.trans hx), andThen_yields]
        simp only
        obtain ⟨c, y, hc, hy1, hy2⟩ := chain3_answered p h1.key (poolOut p (poolAccum p h1.pool (bytesOfNat p.elen r)))
          (x := { answers := rest, repliesLeft := x1.repliesLeft,
                  history := x1.history ++ [.entropyBytes p.elen (bytesOfNat p.elen r)] }) hr1
        rw [hc]
        obtain ⟨answers, replies, history⟩ := y
        cases hy1
        simp only [invokeHash, invokeCipher, emitBlock, invoke_answered, andThen_yields]
        exact ⟨_, _, _, rfl, rfl, by simpa using hy2⟩
    · rw [if_neg h0, if_neg h0, andThen_yields, emitBlock, invokeCipher, invoke_of_all_answered _ _ hr1, andThen_yields]
      exact ⟨_, _, _, rfl, hr1, by simpa using ha1⟩
  unfold blockRequest rekeyIfDue
  by_cases h0 : h.pgRem = 0#32
  · rw [if_pos h0, rekey, invokeCipher, invoke_of_all_answered _ _ hr, andThen_yields, andThen_yields]
    exact key _ _ hr rfl rfl
  · rw [if_neg h0, andThen_yields]
    exact key _ _ hr rfl rfl

/-- With the cipher and hash answering and an answer for each request, a run of block requests yields its blocks. -/
theorem blockRequests_answered (p : Params) (n : Nat) (h : Handle) {x : Ports} (hr : x.repliesLeft = none)
    (ha : n ≤ x.answers.length) :
    ∃ blocks h' y, blockRequests p n h x = .yields (blocks, h') y ∧ y.repliesLeft = none ∧ blocks.length = n := by
  induction n generalizing h x with
  | zero => exact ⟨[], h, x, rfl, hr, rfl⟩
  | succ k ih =>
    obtain ⟨b, h1, y, e, hr1, ha1⟩ := blockRequest_answered p h hr (fun _ he => by rw [he] at ha; simp at ha)
    have hl : k ≤ y.answers.length := by
      rw [ha1, List.length_drop]; split <;> omega
    obtain ⟨blocks, h2, z, e2, hr2, hb⟩ := ih h1 hr1 hl
    refine ⟨b :: blocks, h2, z, ?_, hr2, by simp [hb]⟩
    rw [blockRequests, e, andThen_yields, e2, andThen_yields]

/-! ## A run of block requests -/

theorem blockRequests_length {p : Params} {n : Nat} {h h' : Handle} {x y : Ports} {blocks : List Nat}
    (e : blockRequests p n h x = .yields (blocks, h') y) : blocks.length = n := by
  induction n generalizing h x blocks with
  | zero => simp only [blockRequests, Run.yields.injEq, Prod.mk.injEq] at e; rw [← e.1.1]; rfl
  | succ k ih =>
    unfold blockRequests at e
    rw [andThen_eq_yields] at e
    obtain ⟨out, z, -, e⟩ := e
    rw [andThen_eq_yields] at e
    obtain ⟨⟨bs, h2⟩, z2, e1, e⟩ := e
    simp only [Run.yields.injEq, Prod.mk.injEq] at e
    obtain ⟨⟨rfl, rfl⟩, rfl⟩ := e
    simp [ih e1]

/-- A run of block requests is a run of its first ones, then a run of the rest. -/
theorem blockRequests_add (p : Params) (m n : Nat) (h : Handle) (x : Ports) :
    blockRequests p (m + n) h x =
      (blockRequests p m h x).andThen fun first y => (blockRequests p n first.2 y).andThen fun rest z =>
        .yields (first.1 ++ rest.1, rest.2) z := by
  induction m generalizing h x with
  | zero =>
    simp only [Nat.zero_add, blockRequests, andThen_yields, List.nil_append]
    cases blockRequests p n h x <;> rfl
  | succ k ih =>
    rw [Nat.succ_add, blockRequests, blockRequests]
    cases blockRequest p h x with
    | exhausted y => rfl
    | waits y => rfl
    | yields out y =>
      simp only [andThen_yields, ih]
      cases blockRequests p k out.2 y with
      | exhausted z => rfl
      | waits z => rfl
      | yields first z =>
        simp only [andThen_yields]
        cases blockRequests p n first.2 z <;> rfl

/-! ## The loop of YGEN (R127, R128) -/

/-- YGEN makes ⌈need / BLK⌉ block requests and keeps the first `need` bits of their blocks, most significant first. -/
theorem ygenLoop_eq {p : Params} (hb : 1 ≤ p.blk) (bound need : Nat) (h : Handle) (x : Ports) (hn : need ≤ bound) :
    ygenLoop p bound need h x =
      (blockRequests p ((need + p.blk - 1) / p.blk) h x).andThen fun out y =>
        .yields ((out.1.flatMap (bitsOfNat p.blk)).take need, out.2) y := by
  induction bound generalizing need h x with
  | zero =>
    have : need = 0 := by omega
    subst this
    rw [Nat.div_eq_of_lt (by omega)]
    rfl
  | succ b ih =>
    unfold ygenLoop
    by_cases h0 : need = 0
    · subst h0
      rw [if_pos rfl, Nat.div_eq_of_lt (by omega)]
      rfl
    · rw [if_neg h0]
      have hc : (need + p.blk - 1) / p.blk = (need - p.blk + p.blk - 1) / p.blk + 1 := by
        by_cases hle : p.blk ≤ need
        · rw [show need + p.blk - 1 = (need - p.blk + p.blk - 1) + p.blk by omega, Nat.add_div_right _ (by omega)]
        · have hz : need - p.blk = 0 := by omega
          rw [hz, Nat.zero_add, Nat.div_eq_of_lt (show p.blk - 1 < p.blk by omega),
            show need + p.blk - 1 = (need - 1) + p.blk by omega, Nat.add_div_right _ (by omega), Nat.div_eq_of_lt (by omega)]
      rw [hc, blockRequests]
      cases hr : blockRequest p h x with
      | exhausted y => rfl
      | waits y => rfl
      | yields out y =>
        simp only [andThen_yields]
        rw [ih (need - p.blk) out.2 y (by omega)]
        cases blockRequests p ((need - p.blk + p.blk - 1) / p.blk) out.2 y with
        | exhausted z => rfl
        | waits z => rfl
        | yields rest z =>
          simp only [andThen_yields, List.flatMap_cons, List.take_append, bitsOfNat_length]

theorem follows_ygenLoop {p : Params} (hb : 1 ≤ p.blk) (need : Nat) (h : Handle) (x : Ports) :
    Ports.Follows (fun e => e.isYarrow = true) x (ygenLoop p need need h x).ports := by
  rw [ygenLoop_eq hb need need h x le_rfl]
  exact follows_andThen (follows_blockRequests ..) fun _ _ _ => follows_refl _ _

theorem ygenLoop_not_exhausted {p : Params} (hb : 1 ≤ p.blk) (need : Nat) (h : Handle) (x y : Ports) :
    ygenLoop p need need h x ≠ .exhausted y := by
  rw [ygenLoop_eq hb need need h x le_rfl]
  intro e
  rw [andThen_eq_exhausted] at e
  rcases e with e | ⟨_, _, -, e⟩
  · exact blockRequests_not_exhausted _ _ _ _ _ e
  · simp at e

/-- YGEN produces exactly the requested bits, from the handle its block requests leave (R128). -/
theorem ygenLoop_yields {p : Params} (hb : 1 ≤ p.blk) {need : Nat} {h h' : Handle} {x y : Ports} {bits : List Bool}
    (e : ygenLoop p need need h x = .yields (bits, h') y) :
    bits.length = need ∧ ∃ blocks, blockRequests p ((need + p.blk - 1) / p.blk) h x = .yields (blocks, h') y := by
  rw [ygenLoop_eq hb need need h x le_rfl, andThen_eq_yields] at e
  obtain ⟨out, z, e1, e2⟩ := e
  simp only [Run.yields.injEq, Prod.mk.injEq] at e2
  obtain ⟨⟨rfl, rfl⟩, rfl⟩ := e2
  refine ⟨?_, out.1, e1⟩
  have hl : (out.1.flatMap (bitsOfNat p.blk)).length = p.blk * out.1.length := by
    generalize out.1 = l
    induction l with
    | nil => rfl
    | cons b rest ih => rw [List.flatMap_cons, List.length_append, ih, bitsOfNat_length, List.length_cons]; ring
  have := Nat.div_add_mod (need + p.blk - 1) p.blk
  have := Nat.mod_lt (need + p.blk - 1) (show p.blk > 0 by omega)
  rw [List.length_take, hl, blockRequests_length (blocks := out.1) (h' := out.2) e1]
  omega

/-- Bit `i` of a run of blocks is a bit of block `i / BLK`, counted from its most significant one (R127). -/
theorem flatMap_bits_getElem? {width : Nat} (hw : 1 ≤ width) (blocks : List Nat) (i : Nat) :
    (blocks.flatMap (bitsOfNat width))[i]? = blocks[i / width]?.map (fun b => b.testBit (width - 1 - i % width)) := by
  induction blocks generalizing i with
  | nil => simp
  | cons b rest ih =>
    rw [List.flatMap_cons]
    by_cases h : i < width
    · rw [List.getElem?_append_left (by simpa using h), Nat.div_eq_of_lt h, Nat.mod_eq_of_lt h]
      simp [bitsOfNat, h]
    · rw [List.getElem?_append_right (by simp; omega), bitsOfNat_length, ih,
        Nat.div_eq_sub_div (a := i) (by omega) (by omega), Nat.mod_eq_sub_mod (a := i) (by omega), List.getElem?_cons_succ]

end Sys2Proof.Machine
end

