-- ==== Sys2Proof/Laws/Exec.lean ====
section
/-! SUPPORT. What each command can come to: for every next state of a meaning, the way its pseudocode ended. The provers
cite these instead of unfolding a body. -/

namespace Sys2Proof.Machine

/-! ## Ending a command -/

@[simp] theorem finish_completes (v r : Bool) (s : State) : finish (.completes v r s) = .next (completeCommand v r s) := rfl

@[simp] theorem finish_raises (e : ErrCode) (d : Results) (s : State) :
    finish (.raises e d s) = .next (raiseError e d s) := rfl

@[simp] theorem finish_faults (o : Operand) : finish (.faults o) = .fault (.unwrittenOperand o) := rfl

@[simp] theorem finish_hangs (x : Ports) (s : State) : finish (.hangs x s) = .next (hang x s) := rfl

@[simp] theorem finish_invalidParameter (s : State) :
    finish (invalidParameter s) = .next (raiseError .invalidParameter .nothing s) := rfl

/-- A command that ends in a next state completes, raises an error or hangs. -/
theorem finish_next {e : Ending} {t : State} (h : finish e = .next t) :
    (∃ v r s, e = .completes v r s ∧ t = completeCommand v r s) ∨
      (∃ c d s, e = .raises c d s ∧ t = raiseError c d s) ∨ ∃ x s, e = .hangs x s ∧ t = hang x s := by
  cases e with
  | completes v r s => cases h; exact .inl ⟨v, r, s, rfl, rfl⟩
  | raises c d s => cases h; exact .inr (.inl ⟨c, d, s, rfl, rfl⟩)
  | faults o => cases h
  | hangs x s => cases h; exact .inr (.inr ⟨x, s, rfl, rfl⟩)

/-- A stretch with invocations, then the end of its command. -/
theorem finish_endRun {α : Type} {r : Run α} {d : Results} {s : State} {f : α → State → Ending} {t : State}
    (h : finish (endRun r d s f) = .next t) :
    (∃ a x, r = .yields a x ∧ finish (f a { s with ext := x }) = .next t) ∨
      (∃ x, r = .exhausted x ∧ t = raiseError .primeSearchExhausted d { s with ext := x }) ∨
      ∃ x, r = .waits x ∧ t = hang x s := by
  cases r with
  | yields a x => exact .inl ⟨a, x, rfl, h⟩
  | exhausted x => cases h; exact .inr (.inl ⟨x, rfl, rfl⟩)
  | waits x => cases h; exact .inr (.inr ⟨x, rfl, rfl⟩)

/-! ## Operands -/

theorem withBn_next {reg : Bn} {s t : State} {f : Nat → Ending} (h : finish (withBn reg s f) = .next t) :
    ∃ v, s.bnValue reg = some v ∧ finish (f v) = .next t := by
  unfold withBn at h
  split at h
  · cases h
  · rename_i v hv; exact ⟨v, hv, h⟩

theorem withArg0_next {s t : State} {f : Nat → Ending} (h : finish (withArg0 s f) = .next t) :
    ∃ v, s.arg0 = some v ∧ finish (f v.toNat) = .next t := by
  unfold withArg0 at h
  split at h
  · cases h
  · rename_i v hv; exact ⟨v, hv, h⟩

theorem withSeed_next {s t : State} {f : Nat → Ending} (h : finish (withSeed s f) = .next t) :
    ∃ v, s.seed = some v ∧ finish (f v.toNat) = .next t := by
  unfold withSeed at h
  split at h
  · cases h
  · rename_i v hv; exact ⟨v, hv, h⟩

theorem withBits_next {count : Nat} {s t : State} {f : List Bool → Ending} (h : finish (withBits count s f) = .next t) :
    ∃ bits, Memory.readRun s.bbuf 0 count = .ok bits ∧ finish (f bits) = .next t := by
  unfold withBits at h
  split at h
  · cases h
  · rename_i v hv; exact ⟨v, hv, h⟩

theorem withBytes_next {count : Nat} {s t : State} {f : List Byte → Ending} (h : finish (withBytes count s f) = .next t) :
    ∃ bytes, Memory.readRun s.pbuf 0 count = .ok bytes ∧ finish (f bytes) = .next t := by
  unfold withBytes at h
  split at h
  · cases h
  · rename_i v hv; exact ⟨v, hv, h⟩

theorem lengthAdmitted_iff (length : Nat) (s : State) :
    lengthAdmitted length s = true ↔ 1 ≤ length ∧ length ≤ s.params.lmax := by
  simp [lengthAdmitted]

/-! ## The PRIME unit -/

/-- MODEXP rejects the modulus 0, or writes BN_R (40_prime R98). -/
theorem execModexp_next {s t : State} (h : execModexp s = .next t) :
    (s.bnValue .n = some 0 ∧ t = raiseError .invalidParameter .nothing s) ∨
      ∃ n a e, n ≠ 0 ∧ s.bnValue .n = some n ∧ s.bnValue .a = some a ∧ s.bnValue .e = some e ∧
        t = completeCommand false false (s.setBn .r (modExp a e n)) := by
  obtain ⟨n, hn, h⟩ := withBn_next h
  split at h
  · rename_i h0; subst h0; cases h; exact .inl ⟨hn, rfl⟩
  · rename_i h0
    obtain ⟨a, ha, h⟩ := withBn_next h
    obtain ⟨e, he, h⟩ := withBn_next h
    cases h
    exact .inr ⟨n, a, e, h0, hn, ha, he, rfl⟩

/-- MRTEST rejects its parameters, answers with a verdict, or waits for a base (40_prime R99). -/
theorem execMrtest_next {s t : State} (h : execMrtest s = .next t) :
    t = raiseError .invalidParameter .nothing s ∨
      ∃ n, s.cfgTrials ≠ 0#32 ∧ s.bnValue .n = some n ∧ n % 2 = 1 ∧ 5 ≤ n ∧
        ((∃ v x, millerRabin n s.cfgTrials.toNat s.ext = .yields v x ∧ t = completeCommand v false { s with ext := x }) ∨
          ∃ x, millerRabin n s.cfgTrials.toNat s.ext = .waits x ∧ t = hang x s) := by
  unfold execMrtest mrtestBody at h
  split at h
  · cases h; exact .inl rfl
  · rename_i ht
    obtain ⟨n, hn, h⟩ := withBn_next h
    split at h
    · cases h; exact .inl rfl
    · rename_i hv
      refine .inr ⟨n, ht, hn, by omega, by omega, ?_⟩
      rcases finish_endRun h with ⟨v, x, hr, h⟩ | ⟨x, hr, -⟩ | ⟨x, hr, h⟩
      · cases h; exact .inl ⟨v, x, hr, rfl⟩
      · exact absurd hr (millerRabin_not_exhausted _ _ _ _)
      · exact .inr ⟨x, hr, h⟩

/-- GENPRIME and GENPRIME3 reject their parameters, or end as the search ends (40_prime R100, R101). -/
theorem genprimeBody_next {need3 : Bool} {bits : Nat} {s t : State} (h : finish (genprimeBody need3 bits s) = .next t) :
    t = raiseError .invalidParameter .nothing s ∨
      (2 ≤ bits ∧ bits ≤ s.params.w ∧ s.cfgTrials ≠ 0#32 ∧
        ((∃ p k x, primeSearch bits need3 s.cfgTrials.toNat s.cfgRetry.toNat 0 s.ext = .yields (p, k) x ∧
            t = completeCommand false false (State.setBn { s with ext := x } .r p)) ∨
          (∃ x, primeSearch bits need3 s.cfgTrials.toNat s.cfgRetry.toNat 0 s.ext = .exhausted x ∧
            t = raiseError .primeSearchExhausted .prime { s with ext := x }) ∨
          ∃ x, primeSearch bits need3 s.cfgTrials.toNat s.cfgRetry.toNat 0 s.ext = .waits x ∧ t = hang x s)) := by
  unfold genprimeBody at h
  split at h
  · cases h; exact .inl rfl
  split at h
  · cases h; exact .inl rfl
  split at h
  · cases h; exact .inl rfl
  rename_i h1 h2 h3
  refine .inr ⟨by omega, by omega, h3, ?_⟩
  rcases finish_endRun h with ⟨⟨p, k⟩, x, hr, h⟩ | ⟨x, hr, h⟩ | ⟨x, hr, h⟩
  · cases h; exact .inl ⟨p, k, x, hr, rfl⟩
  · exact .inr (.inl ⟨x, hr, h⟩)
  · exact .inr (.inr ⟨x, hr, h⟩)

/-! ## The generators -/

/-- QCG rejects its length, or writes the sequence (41_generators R111). -/
theorem execQcg_next {length : Nat} {s t : State} (h : execQcg length s = .next t) :
    t = raiseError .invalidParameter .nothing s ∨
      ∃ seed, 1 ≤ length ∧ length ≤ s.params.lmax ∧ s.seed = some seed ∧
        t = completeCommand false false (s.setSequence (emitBits qStep length seed.toNat).1) := by
  unfold execQcg qcgBody at h
  split at h
  · cases h; exact .inl rfl
  · rename_i hl
    simp only [Bool.not_eq_true, Bool.not_eq_false', lengthAdmitted_iff] at hl
    obtain ⟨seed, hs, h⟩ := withSeed_next h
    cases h
    exact .inr ⟨seed, hl.1, hl.2, hs, rfl⟩

/-- The state BBS writes from its factors and x_0. -/
def bbsResult (length : Nat) (start : (Nat × Nat) × Nat) (s : State) : State :=
  (s.setSequence (emitBits (bStep (start.1.1 * start.1.2)) length start.2).1).setBbsResults start.1.1 start.1.2
    (start.1.1 * start.1.2) (emitBits (bStep (start.1.1 * start.1.2)) length start.2).2

/-- BBS rejects its parameters, or ends as its draws of factors and seed end (41_generators R116). -/
theorem execBbs_next {length : Nat} {s t : State} (h : execBbs length s = .next t) :
    t = raiseError .invalidParameter .nothing s ∨
      ∃ pb, 1 ≤ length ∧ length ≤ s.params.lmax ∧ s.arg0 = some pb ∧ 2 ≤ pb.toNat ∧ 2 * pb.toNat ≤ s.params.w ∧
        s.cfgTrials ≠ 0#32 ∧
        ((∃ start x, bbsStart pb.toNat s.cfgTrials.toNat s.cfgRetry.toNat s.ext = .yields start x ∧
            t = completeCommand false false (bbsResult length start { s with ext := x })) ∨
          (∃ x, bbsStart pb.toNat s.cfgTrials.toNat s.cfgRetry.toNat s.ext = .exhausted x ∧
            t = raiseError .primeSearchExhausted .bbs { s with ext := x }) ∨
          ∃ x, bbsStart pb.toNat s.cfgTrials.toNat s.cfgRetry.toNat s.ext = .waits x ∧ t = hang x s) := by
  unfold execBbs bbsBody at h
  split at h
  · cases h; exact .inl rfl
  · rename_i hl
    simp only [Bool.not_eq_true, Bool.not_eq_false', lengthAdmitted_iff] at hl
    obtain ⟨pb, hp, h⟩ := withArg0_next h
    split at h
    · cases h; exact .inl rfl
    split at h
    · cases h; exact .inl rfl
    split at h
    · cases h; exact .inl rfl
    rename_i h1 h2 h3
    refine .inr ⟨pb, hl.1, hl.2, hp, by omega, by omega, h3, ?_⟩
    rcases finish_endRun h with ⟨start, x, hr, h⟩ | ⟨x, hr, h⟩ | ⟨x, hr, h⟩
    · cases h; exact .inl ⟨start, x, hr, rfl⟩
    · exact .inr (.inl ⟨x, hr, h⟩)
    · exact .inr (.inr ⟨x, hr, h⟩)

/-! ## The YARROW unit -/

/-- YINIT rejects its thresholds, constructs the handle, or waits for the key (42_yarrow R121). -/
theorem execYinit_next {s t : State} (h : execYinit s = .next t) :
    t = raiseError .invalidParameter .nothing s ∨
      (s.cfgPg ≠ 0#32 ∧ s.cfgPt ≠ 0#32 ∧
        ((∃ key x, entropyBytes s.params.k s.ext = .yields key x ∧
            t = completeCommand false false { s with ext := x, handle := some (newHandle s key) }) ∨
          ∃ x, entropyBytes s.params.k s.ext = .waits x ∧ t = hang x s)) := by
  unfold execYinit yinitBody at h
  split at h
  · cases h; exact .inl rfl
  split at h
  · cases h; exact .inl rfl
  rename_i h1 h2
  refine .inr ⟨h1, h2, ?_⟩
  rcases finish_endRun h with ⟨key, x, hr, h⟩ | ⟨x, hr, -⟩ | ⟨x, hr, h⟩
  · cases h; exact .inl ⟨key, x, hr, rfl⟩
  · exact absurd hr (draw_not_exhausted _ _ _ _)
  · exact .inr ⟨x, hr, h⟩

/-- YGEN rejects its length or an absent handle, or ends as its block requests end (42_yarrow R128). -/
theorem execYgen_next {length : Nat} {s t : State} (h : execYgen length s = .next t) :
    t = raiseError .invalidParameter .nothing s ∨
      ∃ hd, 1 ≤ length ∧ length ≤ s.params.lmax ∧ s.handle = some hd ∧
        ((∃ bits hd' x, ygenLoop s.params length length hd s.ext = .yields (bits, hd') x ∧
            t = completeCommand false false { State.setSequence { s with ext := x } bits with handle := some hd' }) ∨
          (∃ x, ygenLoop s.params length length hd s.ext = .exhausted x ∧
            t = raiseError .primeSearchExhausted .nothing { s with ext := x }) ∨
          ∃ x, ygenLoop s.params length length hd s.ext = .waits x ∧ t = hang x s) := by
  unfold execYgen ygenBody at h
  split at h
  · cases h; exact .inl rfl
  · rename_i hl
    simp only [Bool.not_eq_true, Bool.not_eq_false', lengthAdmitted_iff] at hl
    split at h
    · cases h; exact .inl rfl
    · rename_i hd hh
      refine .inr ⟨hd, hl.1, hl.2, hh, ?_⟩
      rcases finish_endRun h with ⟨⟨bits, hd'⟩, x, hr, h⟩ | ⟨x, hr, h⟩ | ⟨x, hr, h⟩
      · cases h; exact .inl ⟨bits, hd', x, hr, rfl⟩
      · exact .inr (.inl ⟨x, hr, h⟩)
      · exact .inr (.inr ⟨x, hr, h⟩)

/-- YDROP destroys the handle (42_yarrow R129). -/
theorem execYdrop_eq (s : State) : execYdrop s = .next (completeCommand false false { s with handle := none }) := rfl

/-! ## The STAT unit -/

/-- The state in which a test runs: only T_N of the result bank is written (43_stat_tests R143). -/
def statStart (s : State) : State :=
  { s with bank := { Bank.unwritten with n := some s.blen } }

/-- A STAT command rejects its parameters with an unwritten bank, or runs its test on the sequence (43_stat_tests R143). -/
theorem statBody_next {test : List Bool → State → Ending} {s t : State} (h : finish (statBody test s) = .next t) :
    t = raiseError .invalidParameter .nothing { s with bank := Bank.unwritten } ∨
      ∃ bits, 2 ≤ s.blen.toNat ∧ s.blen.toNat ≤ s.params.lmax ∧ s.cfgConst ≠ 0#32 ∧
        Memory.readRun s.bbuf 0 s.blen.toNat = .ok bits ∧ bits.length = s.blen.toNat ∧
        finish (test bits (statStart s)) = .next t := by
  unfold statBody at h
  simp only at h
  split at h
  · cases h; exact .inl rfl
  split at h
  · cases h; exact .inl rfl
  split at h
  · cases h; exact .inl rfl
  rename_i h1 h2 h3
  obtain ⟨bits, hb, h⟩ := withBits_next h
  exact .inr ⟨bits, by omega, by omega, h3, hb, memory_readRun_length hb, h⟩

/-- With its parameters admitted and its sequence written, a STAT command runs its test (43_stat_tests R143). -/
theorem statBody_runs {test : List Bool → State → Ending} {s : State} {bits : List Bool} (h1 : 2 ≤ s.blen.toNat)
    (h2 : s.blen.toNat ≤ s.params.lmax) (h3 : s.cfgConst ≠ 0#32) (h4 : Memory.readRun s.bbuf 0 s.blen.toNat = .ok bits) :
    finish (statBody test s) = finish (test bits (statStart s)) := by
  unfold statBody
  simp only
  rw [if_neg (by omega), if_neg (by omega), if_neg h3]
  unfold withBits
  simp only [h4]
  rfl

/-- FREQ completes with a statistic. -/
theorem freqTest_next {bits : List Bool} {s t : State} (h : finish (freqTest bits s) = .next t) :
    t = completeCommand (leConst s.cfgConst (freqSum bits).natAbs bits.length) true
      { s with bank :=
        { s.bank with
          ones := some (BitVec.ofNat 32 (onesCount bits))
          num := some (BitVec.ofNat 64 (freqSum bits).natAbs)
          den2 := some (BitVec.ofNat 64 bits.length) } } := by
  cases h; rfl

/-- RUNS completes with a statistic, or raises DegenerateInput with the counts alone. -/
theorem runsTest_next {bits : List Bool} {s t : State} (h : finish (runsTest bits s) = .next t) :
    (∃ v b, t = completeCommand v true { s with bank := b } ∧ b.n = s.bank.n ∧ b.num.isSome = true ∧
        b.den2.isSome = true) ∨
      ∃ b, t = raiseError .degenerateInput .nothing { s with bank := b } := by
  unfold runsTest at h
  simp only at h
  split at h
  · cases h; exact .inr ⟨_, rfl⟩
  · cases h; exact .inl ⟨_, _, rfl, rfl, rfl, rfl⟩

/-- EXCUR completes with the 18 statistics, or raises DegenerateInput with the counts alone. -/
theorem excurTest_next {bits : List Bool} {s t : State} (h : finish (excurTest bits s) = .next t) :
    (∃ v b, t = completeCommand v true { s with bank := b } ∧ b.n = s.bank.n ∧ b.theta.isSome = true ∧
        b.numj.isSome = true ∧ b.den2j.isSome = true) ∨
      (∃ b, t = raiseError .degenerateInput .nothing { s with bank := b }) ∧
        zeroReturns s.params.excLClosing bits = 0 := by
  unfold excurTest at h
  simp only at h
  split at h
  · rename_i hl; cases h; exact .inr ⟨⟨_, rfl⟩, hl⟩
  · cases h; exact .inl ⟨_, _, rfl, rfl, rfl, rfl, rfl⟩

/-! ## The PACK unit -/

/-- PACK rejects its length, or writes the whole bytes (44_packing R160). -/
theorem execPack_next {s t : State} (h : execPack s = .next t) :
    t = raiseError .invalidParameter .nothing s ∨
      ∃ bits, s.blen.toNat ≤ s.params.lmax ∧ Memory.readRun s.bbuf 0 (8 * (s.blen.toNat / 8)) = .ok bits ∧
        bits.length = 8 * (s.blen.toNat / 8) ∧
        t = completeCommand false false (s.setBytes (packBits (s.blen.toNat / 8) bits)) := by
  unfold execPack packBody at h
  split at h
  · cases h; exact .inl rfl
  · rename_i h1
    obtain ⟨bits, hb, h⟩ := withBits_next h
    cases h
    exact .inr ⟨bits, by omega, hb, memory_readRun_length hb, rfl⟩

/-- UNPACK rejects its length, or writes the bits (44_packing R161). -/
theorem execUnpack_next {s t : State} (h : execUnpack s = .next t) :
    t = raiseError .invalidParameter .nothing s ∨
      ∃ bytes, s.plen.toNat ≤ pbufCapacity s.params ∧ Memory.readRun s.pbuf 0 s.plen.toNat = .ok bytes ∧
        bytes.length = s.plen.toNat ∧
        t = completeCommand false false (s.setSequence (unpackBytes bytes)) := by
  unfold execUnpack unpackBody at h
  split at h
  · cases h; exact .inl rfl
  · rename_i h1
    obtain ⟨bytes, hb, h⟩ := withBytes_next h
    cases h
    exact .inr ⟨bytes, by omega, hb, memory_readRun_length hb, rfl⟩

end Sys2Proof.Machine
end

