-- ==== Sys2Proof/Laws/Bus.lean ====
section
/-! SUPPORT. What a step and a host action can come to, and the address map read in both directions (20_memory R52, R53). -/

namespace Sys2Proof.Machine

/-! ## A step -/

/-- The three ways a step can end in a next state: a host action, the sequencer, or nothing moves. -/
theorem step_next {s t : State} (h : step s = .next t) :
    (∃ act rest, hostTurn s = some (act, rest) ∧ hostAct act { s with host := rest } = .next t) ∨
      (hostTurn s = none ∧ sequencerRuns s = true ∧ configAdmitted s.params = true ∧
        ((∃ i, decode s.cmd = .ok i ∧ exec i s = .next t) ∨
          ∃ r, decode s.cmd = .error r ∧ t = raiseError .invalidParameter .nothing s)) ∨
      (hostTurn s = none ∧ sequencerRuns s = false ∧ t = s) := by
  unfold step at h
  cases ht : hostTurn s with
  | some item => rw [ht] at h; exact .inl ⟨item.1, item.2, rfl, h⟩
  | none =>
    rw [ht] at h
    simp only at h
    cases hs : sequencerRuns s with
    | false => rw [hs] at h; cases h; exact .inr (.inr ⟨rfl, rfl, rfl⟩)
    | true =>
      rw [hs, if_pos rfl] at h
      unfold sequencerStep at h
      split at h
      · rename_i hc
        unfold fetchWord at h
        refine .inr (.inl ⟨rfl, rfl, hc, ?_⟩)
        split at h
        · rename_i i hi; exact .inl ⟨i, hi, h⟩
        · rename_i r hr; cases h; exact .inr ⟨r, hr, rfl⟩
      · cases h

/-- When the host does not move and a command is in execution, a step is the sequencer's. -/
theorem step_sequencer {s : State} (h1 : hostTurn s = none) (h2 : sequencerRuns s = true) : step s = sequencerStep s := by
  unfold step; rw [h1]; simp only [h2, if_true]

/-- The sequencer executes the command CMD encodes, in an admitted configuration. -/
theorem sequencerStep_ok {s : State} {i : Instr} (h1 : configAdmitted s.params = true) (h2 : decode s.cmd = .ok i) :
    sequencerStep s = exec i s := by
  unfold sequencerStep fetchWord; rw [if_pos h1, h2]

/-- When it is a host action's turn, the step is that action. -/
theorem step_host {s : State} {act : HostAct} {rest : List HostItem} (h : hostTurn s = some (act, rest)) :
    step s = hostAct act { s with host := rest } := by
  unfold step; rw [h]

/-- The host's first action moves unless it waits for BUSY to fall. -/
theorem hostTurn_cons {s : State} {item : HostItem} {rest : List HostItem} (h : s.host = item :: rest) :
    hostTurn s = if s.status.busy && !item.early then none else some (item.act, rest) := by
  unfold hostTurn; rw [h]

/-! ## A host action -/

theorem hostRead_next {addr bytes : Nat} {s t : State} (h : hostRead addr bytes s = .next t) :
    ∃ r, accessed s.params addr bytes = some r ∧ (s.status.busy && !readableWhileBusy r) = false ∧ t = noteRead addr r s := by
  unfold hostRead at h
  split at h
  · cases h
  · rename_i r hr
    split at h
    · cases h
    · rename_i hb; cases h; exact ⟨r, hr, by simpa using hb, rfl⟩

theorem hostWrite_next {addr bytes : Nat} {v : Word} {s t : State} (h : hostWrite addr bytes v s = .next t) :
    ∃ r, accessed s.params addr bytes = some r ∧ s.status.busy = false ∧ t = s.writeReg v r := by
  unfold hostWrite at h
  split at h
  · cases h
  · rename_i r hr
    split at h
    · cases h
    · rename_i hb; cases h; exact ⟨r, hr, by simpa using hb, rfl⟩

/-! ## The address map -/

/-- Every place the map lists is found at its offset. -/
theorem accessed_offset {p : Params} (hp : configAdmitted p = true) {r : Reg} (h : r.mapped p = true) :
    accessed p r.offset 4 = some r := by
  simp only [configAdmitted, Bool.and_eq_true, decide_eq_true_eq] at hp
  have hw : limbCount p ≤ 64 := by have := hp.1.1.1.1; unfold limbCount; omega
  have hl : p.lmax / 32 ≤ 32768 := by have := hp.1.1.1.2; norm_num at this; omega
  have hm : pbufCapacity p / 4 ≤ 32768 := by have := hp.1.1.1.2; norm_num at this; unfold pbufCapacity; omega
  have key : ∀ (w : Nat), r.offset = 4 * w → placeAt w = some r → accessed p r.offset 4 = some r := by
    intro w h1 h2
    unfold accessed regAt
    rw [h1, if_pos ⟨rfl, by omega⟩, Nat.mul_div_cancel_left _ (by omega), h2]
    simp [h]
  have low : r.offset % 4 = 0 → placeAt (r.offset / 4) = some r → accessed p r.offset 4 = some r :=
    fun h1 h2 => key (r.offset / 4) (by omega) h2
  cases r with
  | yCtr i =>
    simp only [Reg.mapped, decide_eq_true_eq] at h
    interval_cases i <;> exact low rfl rfl
  | tTheta i =>
    simp only [Reg.mapped, decide_eq_true_eq] at h
    refine key (0x40 + i) (by simp only [Reg.offset]; omega) ?_
    unfold placeAt
    rw [if_neg (by omega), if_pos (by omega), Nat.add_sub_cancel_left]
  | tNumj i =>
    simp only [Reg.mapped, decide_eq_true_eq] at h
    refine key (0x60 + i) (by simp only [Reg.offset]; omega) ?_
    unfold placeAt
    rw [if_neg (by omega), if_neg (by omega), if_pos (by omega), Nat.add_sub_cancel_left]
  | tDen2j i =>
    simp only [Reg.mapped, decide_eq_true_eq] at h
    refine key (0x80 + i) (by simp only [Reg.offset]; omega) ?_
    unfold placeAt
    rw [if_neg (by omega), if_neg (by omega), if_neg (by omega), if_pos (by omega), Nat.add_sub_cancel_left]
  | bn reg i =>
    simp only [Reg.mapped, decide_eq_true_eq] at h
    have hi : bnIndex reg < 8 := by cases reg <;> decide
    refine key (0x100 + (0x40 * bnIndex reg + i)) (by simp only [Reg.offset]; omega) ?_
    unfold placeAt
    rw [if_neg (by omega), if_neg (by omega), if_neg (by omega), if_neg (by omega), if_pos (by omega),
      Nat.add_sub_cancel_left, Nat.mul_add_div (by omega), Nat.mul_add_mod, Nat.div_eq_of_lt (by omega),
      Nat.mod_eq_of_lt (by omega), Nat.add_zero]
    cases reg <;> rfl
  | bbuf i =>
    simp only [Reg.mapped, decide_eq_true_eq] at h
    refine key (0x4000 + i) (by simp only [Reg.offset]; omega) ?_
    unfold placeAt
    rw [if_neg (by omega), if_neg (by omega), if_neg (by omega), if_neg (by omega), if_neg (by omega), if_neg (by omega),
      if_pos (by omega), Nat.add_sub_cancel_left]
  | pbuf i =>
    simp only [Reg.mapped, decide_eq_true_eq] at h
    refine key (0x10000 + i) (by simp only [Reg.offset]; omega) ?_
    unfold placeAt
    rw [if_neg (by omega), if_neg (by omega), if_neg (by omega), if_neg (by omega), if_neg (by omega), if_neg (by omega),
      if_neg (by omega), Nat.add_sub_cancel_left]
  | tNum high => cases high <;> exact low rfl rfl
  | tDen2 high => cases high <;> exact low rfl rfl
  | _ => exact low rfl rfl

theorem lowReg_offset {w : Nat} {r : Reg} (h : lowReg w = some r) : r.offset = 4 * w := by
  unfold lowReg at h
  split at h <;> first | (cases h; rfl) | cases h

theorem placeAt_offset {w : Nat} {r : Reg} (h : placeAt w = some r) : r.offset = 4 * w := by
  unfold placeAt at h
  split at h
  · exact lowReg_offset h
  split at h
  · cases h; simp only [Reg.offset]; omega
  split at h
  · cases h; simp only [Reg.offset]; omega
  split at h
  · cases h; simp only [Reg.offset]; omega
  split at h
  · cases h
    have : bnIndex (bnAt ((w - 0x100) / 0x40)) = (w - 0x100) / 0x40 := by
      have : (w - 0x100) / 0x40 < 8 := by omega
      generalize (w - 0x100) / 0x40 = k at this
      interval_cases k <;> rfl
    simp only [Reg.offset, this]
    omega
  split at h
  · cases h
  split at h
  · cases h; simp only [Reg.offset]; omega
  · cases h; simp only [Reg.offset]; omega

/-- Every admitted access reaches a listed place, at its offset, four bytes wide. -/
theorem accessed_some {p : Params} {addr bytes : Nat} {r : Reg} (h : accessed p addr bytes = some r) :
    bytes = 4 ∧ addr = r.offset ∧ r.mapped p = true := by
  unfold accessed at h
  split at h
  · rename_i hb
    unfold regAt at h
    split at h
    · cases h
    · rename_i r' hr
      split at h
      · rename_i hm
        cases h
        exact ⟨hb.1, by rw [placeAt_offset hr]; omega, hm⟩
      · cases h
  · cases h

/-! ## What a read returns -/

/-- A written cell of a BBUF word stands in its bit of the word (20_memory R54). -/
theorem bbufWord_getLsbD {m : Memory Bool} {i k : Nat} {b : Bool} (free : Word) (hk : k < 32)
    (h : Memory.get? m (32 * i + k) = some b) : (bbufWord m free i).getLsbD (31 - k) = b := by
  have := natOfBits_testBit ((List.range 32).map
    (fun t => (Memory.get? m (32 * i + t)).getD (free.toNat.testBit (31 - t)))) k (by simpa using hk)
  simp only [List.length_map, List.length_range, List.getElem_map, List.getElem_range, h, Option.getD_some] at this
  rw [bbufWord, BitVec.getLsbD_ofNat, decide_eq_true (by omega), Bool.true_and]
  exact this

/-- A written cell of a PBUF word stands in its byte of the word (20_memory R55). -/
theorem pbufWord_extract {m : Memory Byte} {i k : Nat} {b : Byte} (free : Word) (hk : k < 4)
    (h : Memory.get? m (4 * i + k) = some b) : (pbufWord m free i).extractLsb' (24 - 8 * k) 8 = b := by
  have hb := b.isLt
  generalize hf : (fun t => (Memory.get? m (4 * i + t)).getD (BitVec.ofNat 8 (free.toNat / 256 ^ (3 - t)))) = f
  have hfk : f k = b := by rw [← hf]; simp [h]
  have h0 := (f 0).isLt
  have h1 := (f 1).isLt
  have h2 := (f 2).isLt
  have h3 := (f 3).isLt
  have hr : List.range 4 = [0, 1, 2, 3] := rfl
  apply BitVec.eq_of_toNat_eq
  rw [pbufWord, hf, hr, BitVec.extractLsb'_toNat, BitVec.toNat_ofNat, Nat.shiftRight_eq_div_pow]
  simp only [List.map_cons, List.map_nil, natOfBytes, List.foldl_cons, List.foldl_nil]
  obtain rfl | rfl | rfl | rfl : k = 0 ∨ k = 1 ∨ k = 2 ∨ k = 3 := by omega
  all_goals
    rw [hfk] at *
    norm_num
    omega

/-- Limb `i` of a number is its bits from 32·i on (20_memory R56). -/
theorem limb_getLsbD (i v : Nat) {b : Nat} (hb : b < 32) : (limb i v).getLsbD b = v.testBit (32 * i + b) := by
  rw [limb, BitVec.getLsbD_ofNat, decide_eq_true hb, Bool.true_and, Nat.testBit_div_two_pow, Nat.add_comm]

/-- The fields of STATUS in their bits, the reserved bits 0 (10_state R22). -/
theorem statusWord_fields (t : Status) :
    t.word.getLsbD 0 = t.busy ∧ t.word.getLsbD 1 = t.done ∧ t.word.getLsbD 2 = t.verdict ∧ t.word.getLsbD 3 = t.rvalid ∧
      t.word.getLsbD 4 = t.yvalid ∧ t.word.extractLsb' 5 3 = 0#3 ∧ t.word.extractLsb' 8 4 = t.err ∧
      t.word.extractLsb' 12 20 = 0#20 := by
  obtain ⟨busy, done, verdict, rvalid, yvalid, err⟩ := t
  revert busy done verdict rvalid yvalid err
  decide +kernel

/-- Whatever stands for the unwritten, a read returns what the place holds in its layout (20_memory R54 to R59). -/
theorem readWord_readsAs (s : State) (free : Word) (r : Reg) : s.ReadsAs (s.readWord free r) r := by
  cases r with
  | status => exact statusWord_fields s.status
  | yCtr i => exact fun h hh b hb => by simp [State.readWord, State.regValue, hh, limb_getLsbD i h.ctr hb]
  | bn reg i => exact fun n hn b hb => by simp [State.readWord, State.regValue, hn, limb_getLsbD i n hb]
  | tNum high => exact fun u hu => by cases high <;> simp [State.readWord, State.regValue, hu, half64]
  | tDen2 high => exact fun u hu => by cases high <;> simp [State.readWord, State.regValue, hu, half64]
  | bbuf i => exact fun k hk b hb => bbufWord_getLsbD free hk hb
  | pbuf i => exact fun k hk b hb => pbufWord_extract free hk hb
  | arg0 => exact fun u hu => by simp [State.readWord, State.regValue, hu]
  | seed => exact fun u hu => by simp [State.readWord, State.regValue, hu]
  | yPgrem => exact fun u hu => by simp [State.readWord, State.regValue, hu]
  | yPtrem => exact fun u hu => by simp [State.readWord, State.regValue, hu]
  | yPg => exact fun u hu => by simp [State.readWord, State.regValue, hu]
  | yPt => exact fun u hu => by simp [State.readWord, State.regValue, hu]
  | tN => exact fun u hu => by simp [State.readWord, State.regValue, hu]
  | tOnes => exact fun u hu => by simp [State.readWord, State.regValue, hu]
  | tVn => exact fun u hu => by simp [State.readWord, State.regValue, hu]
  | tL => exact fun u hu => by simp [State.readWord, State.regValue, hu]
  | tTheta i => exact fun u hu hi => by simp [State.readWord, State.regValue, hu, hi]
  | tNumj i => exact fun u hu hi => by simp [State.readWord, State.regValue, hu, hi]
  | tDen2j i => exact fun u hu hi => by simp [State.readWord, State.regValue, hu, hi]
  | _ => rfl

end Sys2Proof.Machine
end

