-- ==== Sys2Proof/Laws/PerInstr.lean ====
section
/-! SUPPORT. The per-instruction family: the two fields of every command's word (30_encoding R70 to R73, R79). -/

namespace Sys2Proof.Laws.Encoding

/-- The word of a well-formed command has the command's opcode in bits 7:0 and its immediate, or 0, in bits 31:8. -/
def Statement (i : Instr) : Prop :=
  i.wellFormed = true → opcodeField (encode i) = i.opcode ∧ imm24Field (encode i) = i.imm.getD 0

/-- The fields of `imm * 256 + opcode` for an immediate of 24 bits. -/
theorem fields {imm opcode : Nat} (h1 : imm < 2 ^ 24) (h2 : opcode < 256) :
    opcodeField (BitVec.ofNat 32 (imm * 256 + opcode)) = opcode ∧
      imm24Field (BitVec.ofNat 32 (imm * 256 + opcode)) = imm := by
  have h : (BitVec.ofNat 32 (imm * 256 + opcode)).toNat = imm * 256 + opcode := by
    rw [BitVec.toNat_ofNat]
    exact Nat.mod_eq_of_lt (by omega)
  simp only [opcodeField, imm24Field, h]
  omega

theorem modexp : Statement .modexp := fun _ => fields (by decide) (by decide)
theorem mrtest : Statement .mrtest := fun _ => fields (by decide) (by decide)
theorem genprime (bits : Nat) : Statement (.genprime bits) := fun h => fields (of_decide_eq_true h) (by simp [Instr.opcode])
theorem genprime3 (bits : Nat) : Statement (.genprime3 bits) := fun h => fields (of_decide_eq_true h) (by simp [Instr.opcode])
theorem qcg (length : Nat) : Statement (.qcg length) := fun h => fields (of_decide_eq_true h) (by simp [Instr.opcode])
theorem bbs (length : Nat) : Statement (.bbs length) := fun h => fields (of_decide_eq_true h) (by simp [Instr.opcode])
theorem yinit : Statement .yinit := fun _ => fields (by decide) (by decide)
theorem ygen (length : Nat) : Statement (.ygen length) := fun h => fields (of_decide_eq_true h) (by simp [Instr.opcode])
theorem ydrop : Statement .ydrop := fun _ => fields (by decide) (by decide)
theorem freq : Statement .freq := fun _ => fields (by decide) (by decide)
theorem runs : Statement .runs := fun _ => fields (by decide) (by decide)
theorem excur : Statement .excur := fun _ => fields (by decide) (by decide)
theorem pack : Statement .pack := fun _ => fields (by decide) (by decide)
theorem unpack : Statement .unpack := fun _ => fields (by decide) (by decide)

end Sys2Proof.Laws.Encoding
end

