-- ==== Sys2Proof/Tests/Slice0.lean ====
section
/-! SUPPORT. Checks of the model against the words and vectors of the spec (30_encoding, 95_test_vectors), and for each
obligation with hypotheses a witness that something meets them, one for each clause. -/

namespace Sys2Proof.Tests
open Sys2Proof Sys2Proof.Machine

-- One theorem at a time: many evaluations waiting side by side would each hold a thread.
set_option Elab.async false

/-! ## Small states -/

/-- A small configuration: W = 64 and LMAX = 64, the rest standard. -/
def small : Params := { Params.standard with w := 64, lmax := 64 }

/-- The small configuration with the answers of the toy fixture the first two block requests of V-Y1 take, and those of
one rekey and reseed (95_test_vectors section 2.5). -/
def toy : Params :=
  { small with
    cipherTable := [(([0xA5, 0xC3], 0), 0x271E), (([0xA5, 0xC3], 1), 0x88E7), (([0xA5, 0xC3], 2), 0xEAB0),
      (([0xEA, 0xB0], 2), 0x7877), (([0x68, 0xB5], 4), 0xEC40)]
    hashTable := [([0xEA, 0xB0, 0xBE, 0xEF], 0xE3AB), ([0xE3, 0xAB, 0xBE, 0xEF], 0xA24D),
      ([0xA2, 0x4D, 0xBE, 0xEF], 0xB550), ([0xB5, 0x50, 0xEA, 0xB0], 0x68B5)] }

/-- The block after reset in a configuration. -/
def idle (p : Params) : State := State.initial p

/-- The block of the small configuration with the answers of its draws. -/
def drawing (answers : List Nat) : State := { idle small with ext := ⟨answers, none, []⟩ }

/-- A bit sequence in BBUF, with its length. -/
def holding (bits : List Bool) : State :=
  { idle small with bbuf := Memory.cells 0 bits, blen := BitVec.ofNat 32 bits.length }

/-- The block with one pending host action that does not wait. -/
def hosted (act : HostAct) : State := { idle small with host := [⟨act, true⟩] }

/-- Operands of MODEXP. -/
def powering (a e n : Nat) : State :=
  (((idle small).setBn .a a).setBn .e e).setBn .n n

/-- A live handle of the toy fixture. -/
def handleOf (key : List Byte) (ctr : Nat) (pgRem ptRem : Word) : Handle :=
  { key := key, ctr := ctr, pool := [0x00, 0x00], pgRem := pgRem, ptRem := ptRem, pg := 2#32, pt := 3#32 }

/-- The handle after the YINIT of V-Y1. -/
def fresh : Handle := handleOf [0xA5, 0xC3] 0 2#32 3#32

/-- The toy block with a live handle. -/
def live (h : Handle) (answers : List Nat) : State :=
  { idle toy with handle := some h, status := { Status.reset with yvalid := true }, ext := ⟨answers, none, []⟩ }

/-- A field of the next state, if there is one. -/
def after {α : Type} (o : Host.Outcome State Fault Refusal) (f : State → α) : Option α :=
  (nextOf o).map f

/-- What `after` shows, as a next state. -/
theorem next_of_after {α : Type} {o : Host.Outcome State Fault Refusal} {f : State → α} {v : α} (h : after o f = some v) :
    ∃ t, o = .next t ∧ f t = v := by
  cases o with
  | next t => exact ⟨t, rfl, by simpa [after, nextOf] using h⟩
  | fault e => simp [after, nextOf] at h
  | refused r => simp [after, nextOf] at h

/-- A command that ended without an error. -/
def endsWell (t : State) : Bool × BitVec 4 := (t.status.done, t.status.err)

/-! ## Well-formedness: an ill-formed term for each check (30_encoding R72) -/

theorem test_wellFormed_accepts :
    [Instr.modexp, .mrtest, .genprime 16777215, .genprime3 0, .qcg 1, .bbs 16777215, .yinit, .ygen 0, .ydrop, .freq, .runs,
      .excur, .pack, .unpack].all Instr.wellFormed = true := by decide

theorem test_wellFormed_refuses :
    [Instr.genprime 16777216, .genprime3 16777216, .qcg 16777216, .bbs 16777216, .ygen 16777216].any Instr.wellFormed
      = false := by decide

/-! ## Decoding: words written out from 30_encoding R70 to R75, imm24 in bits 31:8 and the opcode in bits 7:0 -/

theorem test_decode_prime :
    decode 0b00000000000000000000000000010000#32 = .ok .modexp ∧ decode 0b00000000000000000000000000010001#32 = .ok .mrtest ∧
      decode 0b00000000000000000000010100010010#32 = .ok (.genprime 5) ∧
      decode 0b00000000000000001010000000010011#32 = .ok (.genprime3 160) := by decide

theorem test_decode_generators :
    decode 0b00000000000000000001000000100000#32 = .ok (.qcg 16) ∧
      decode 0b00010000000000000000000000100000#32 = .ok (.qcg 1048576) ∧
      decode 0b00000000000000000000110000100001#32 = .ok (.bbs 12) := by decide

theorem test_decode_yarrow :
    decode 0b00000000000000000000000000110000#32 = .ok .yinit ∧
      decode 0b00000000000000000001010000110001#32 = .ok (.ygen 20) ∧
      decode 0b00000000000000000000000000110010#32 = .ok .ydrop := by decide

theorem test_decode_stat_pack :
    decode 0b00000000000000000000000001000000#32 = .ok .freq ∧ decode 0b00000000000000000000000001000001#32 = .ok .runs ∧
      decode 0b00000000000000000000000001000010#32 = .ok .excur ∧ decode 0b00000000000000000000000001010000#32 = .ok .pack ∧
      decode 0b00000000000000000000000001010001#32 = .ok .unpack := by decide

/-- Every opcode that is not one of the fourteen is refused (R74). -/
theorem test_decode_illegal :
    ((List.range 256).filter fun c => match decode (BitVec.ofNat 32 c) with
      | .ok _ => true
      | .error _ => false)
      = [0x10, 0x11, 0x12, 0x13, 0x20, 0x21, 0x30, 0x31, 0x32, 0x40, 0x41, 0x42, 0x50, 0x51] := by decide +kernel

/-- A format N opcode with a non-zero immediate is refused, at its lowest and highest bit (R75, V-C15). -/
theorem test_decode_reserved :
    ([0x10, 0x11, 0x30, 0x32, 0x40, 0x41, 0x42, 0x50, 0x51].all fun c =>
      match decode (BitVec.ofNat 32 (0x100 + c)), decode (BitVec.ofNat 32 (0x80000000 + c)) with
      | .error _, .error _ => true
      | _, _ => false) = true := by decide +kernel

theorem test_decodeTableWord : decodeTableWord 32 0x1020 = some (.qcg 16) ∧ decodeTableWord 32 0x140 = none := by decide

/-! ## The protocol, reset and the bus -/

/-- V-C13, V-C15: STATUS = 0x102 and ERRLOG bit 1. -/
theorem test_rejected_word :
    after (step (State.reset.withFetchWord 32 0x00)) (fun t => (t.status.word, t.errlog)) = some (0x102#32, 0x2#32) ∧
      after (step (State.reset.withFetchWord 32 0x140)) (fun t => (t.status.word, t.errlog)) = some (0x102#32, 0x2#32) := by
  decide +kernel

/-- V-C5 with V-Q3: the placed command is the first that runs after reset. -/
theorem test_placed_word :
    after (step (State.withFetchWord { State.reset with seed := some 12345#32 } 32 0x1020)) (fun t => (t.blen, t.status.word))
      = some (16#32, 0x2#32) := by decide +kernel

/-- 20_memory R54: bit 31 of the word is cell 0 and bit 0 is cell 31. -/
theorem test_bbuf_write :
    after (step (hosted (.write 0x10000 4 0x80000001#32)))
      (fun t => (Memory.get? t.bbuf 0, Memory.get? t.bbuf 1, Memory.get? t.bbuf 31)) = some (some true, some false, some true) := by
  decide +kernel

/-- 20_memory R55: the most significant byte of the word is byte 0. -/
theorem test_pbuf_write :
    after (step (hosted (.write 0x40000 4 0xB20F0102#32))) (fun t => (Memory.get? t.pbuf 0, Memory.get? t.pbuf 3))
      = some (some 0xB2#8, some 0x02#8) := by decide +kernel

/-- 10_state R38, 20_memory R51: a read of ID. -/
theorem test_read_id : after (step (hosted (.read 0 4))) (fun t => t.reads) = some [(0, 0x49535031#32)] := by decide +kernel

/-- 70_reset_and_hazards R191: a reset during a command. -/
theorem test_reset_during_command :
    after (step { hosted (.reset 0) with status := { Status.reset with busy := true }, errlog := 2#32, cfgPg := 7#32 })
      (fun t => (t.status.word, t.errlog, t.cfgPg)) = some (0#32, 0#32, 10#32) := by decide +kernel

/-- 30_encoding R81: BATTERY stops at the first failure. -/
theorem test_battery_stop :
    stopUnlessVerdict 5 { idle small with host := scriptBattery.drop 3 } = { idle small with host := [] } := by decide +kernel

/-! ## One step of each command (95_test_vectors sections 2.2 to 2.7) -/

/-- V-P1. -/
theorem test_modexp : after (exec .modexp (powering 4 13 497)) (fun t => (t.bnValue .r, t.status.word)) = some (some 445, 0x2#32) := by
  decide +kernel

/-- V-P10: the product exceeds W. -/
theorem test_modexp_wide :
    after (exec .modexp (powering (2 ^ 63) 2 (2 ^ 64 - 59))) (fun t => t.bnValue .r) = some (some 13835058055282164538) := by
  decide +kernel

/-- V-P26: round 1 passes and round 2 is composite. -/
theorem test_mrtest_composite :
    after (exec .mrtest { (drawing [50, 2]).setBn .n 561 with cfgTrials := 2#32 }) (fun t => t.status.word) = some 0x2#32 := by
  decide +kernel

/-- V-P26c. -/
theorem test_mrtest_smallest :
    after (exec .mrtest { (drawing [2]).setBn .n 5 with cfgTrials := 1#32 }) (fun t => t.status.word) = some 0x6#32 := by
  decide +kernel

/-- V-P23: a composite that passes. -/
theorem test_genprime_probable :
    after (exec (.genprime 21) { drawing [325076, 2, 3] with cfgTrials := 2#32 }) (fun t => (t.bnValue .r, t.status.word))
      = some (some 1373653, 0x2#32) := by decide +kernel

/-- V-P24: exhausted. -/
theorem test_genprime_exhausted :
    after (exec (.genprime 5) { drawing [10] with cfgRetry := 1#32 }) (fun t => (t.bnValue .r, t.status.word, t.errlog))
      = some (none, 0x302#32, 0x8#32) := by decide +kernel

/-- V-P22: 37 passes but is 1 mod 4. -/
theorem test_genprime3 :
    after (exec (.genprime3 6) { drawing [5, 2, 10, 2] with cfgTrials := 1#32 }) (fun t => (t.bnValue .r, t.ext.history.length))
      = some (some 43, 4) := by decide +kernel

/-- V-Q6. -/
theorem test_qcg :
    after (exec (.qcg 32) { idle small with seed := some 12345#32 }) (fun t => (t.readWord 0#32 (.bbuf 0), t.blen))
      = some (0x9220461D#32, 32#32) := by decide +kernel

/-- V-Q4: the seed 2^32 - 1 is the residue 0, so the modulus is not 2^32. -/
theorem test_qcg_modulus :
    after (exec (.qcg 16) { idle small with seed := some 4294967295#32 }) (fun t => t.readWord 0#32 (.bbuf 0))
      = some 0xFEE30000#32 := by decide +kernel

/-- V-B1. -/
theorem test_bbs :
    after (exec (.bbs 12) { drawing [2, 2, 6, 19, 3] with arg0 := some 5#32 })
      (fun t => (t.readWord 0#32 (.bbuf 0), t.bnValue .nmod, t.bnValue .x)) = some (0x8B300000#32, some 437, some 351) := by
  decide +kernel

/-- V-B2: the bound counts the candidates for p and q together. -/
theorem test_bbs_exhausted :
    after (exec (.bbs 12) { drawing [2, 2] with arg0 := some 5#32, cfgRetry := 2#32 }) (fun t => (t.status.word, t.bnValue .p))
      = some (0x302#32, none) := by decide +kernel

/-- V-Y1, the YINIT line. -/
theorem test_yinit :
    after (exec .yinit { idle toy with cfgPg := 2#32, cfgPt := 3#32, ext := ⟨[0xA5C3], none, []⟩ })
      (fun t => (t.handle, t.status.word)) = some (some fresh, 0x12#32) := by decide +kernel

/-- V-Y1, the YGEN 20 line: the last 12 bits of the second block are discarded. -/
theorem test_ygen :
    after (exec (.ygen 20) (live fresh [])) (fun t => (t.readWord 0#32 (.bbuf 0), t.handle))
      = some (0x271E8000#32, some (handleOf [0xA5, 0xC3] 2 0#32 1#32)) := by decide +kernel

/-- V-Y1, request 4: the reseed advances the counter and the old key enters the last hash. -/
theorem test_ygen_reseed :
    after (exec (.ygen 16) (live (handleOf [0xEA, 0xB0] 3 1#32 0#32) [0xBEEF])) (fun t => (t.readWord 0#32 (.bbuf 0), t.handle))
      = some (0xEC400000#32, some { handleOf [0x68, 0xB5] 5 0#32 2#32 with pool := [0xBE, 0xEF] }) := by decide +kernel

/-- V-Y6: after YDROP no handle is left. -/
theorem test_ydrop : after (exec .ydrop (live fresh [])) (fun t => (t.handle, t.status.word)) = some (none, 0x2#32) := by
  decide +kernel

/-- V-F4: a statistic equal to CONST passes. -/
theorem test_freq_equal :
    after (exec .freq { holding [true, true, true, true] with cfgConst := 200000000#32 }) (fun t => (t.bank.num, t.status.word))
      = some (some 4#64, 0xE#32) := by decide +kernel

/-- V-F5. -/
theorem test_freq_above :
    after (exec .freq { holding [true, true, true, true] with cfgConst := 199999999#32 }) (fun t => t.status.word)
      = some 0xA#32 := by decide +kernel

/-- V-R1. -/
theorem test_runs :
    after (exec .runs (holding [false, true, false, true, false, true, false, true]))
      (fun t => (t.bank.num, t.bank.den2, t.status.word)) = some (some 32#64, some 1024#64, 0xE#32) := by decide +kernel

/-- V-R3. -/
theorem test_runs_degenerate :
    after (exec .runs (holding (List.replicate 8 true))) (fun t => (t.bank.vn, t.bank.num, t.status.word))
      = some (some 1#32, none, 0x202#32) := by decide +kernel

/-- The example of 43_stat_tests R152: state 1 exactly at the threshold fails. -/
theorem test_excur_strict :
    after (exec .excur { holding [true, true, false, true, false, true, false, true, false, false] with cfgConst := 200000000#32 })
      (fun t => (t.regValue (.tNumj 9), t.regValue (.tDen2j 10), t.status.word)) = some (some 4#32, some 12#32, 0xA#32) := by
  decide +kernel

/-- 43_stat_tests R152: a walk that never returns to 0. -/
theorem test_excur_degenerate :
    after (exec .excur (holding [true, true, true, true])) (fun t => (t.bank.l, t.regValue (.tTheta 12), t.status.word))
      = some (some 0#32, some 1#32, 0x202#32) := by decide +kernel

/-- The example of 44_packing R160. -/
theorem test_pack :
    after (exec .pack (holding [true, false, true, true, false, false, true, false, true, true, true]))
      (fun t => (t.pbuf, t.plen)) = some ([(0, 0xB2#8)], 1#32) := by decide +kernel

/-- The example of 44_packing R161. -/
theorem test_unpack :
    after (exec .unpack { idle small with pbuf := [(0, 0xB2#8), (1, 0x0F#8)], plen := 2#32 })
      (fun t => (t.readWord 0#32 (.bbuf 0), t.blen)) = some (0xB20F0000#32, 16#32) := by decide +kernel

/-! ## Witnesses: for each obligation with hypotheses, something that meets them, clause by clause -/

/-- The block with the word `w` just written to CMD and the host idle. -/
def running (w : Word) : State := { idle small with cmd := w, status := { Status.reset with busy := true } }

theorem witness_DecodeOfEncode : (Instr.bbs 16777215).wellFormed = true ∧ Instr.unpack.wellFormed = true := by decide

theorem witness_EncodeOfDecode : decode 0xFFFFFF20#32 = .ok (.qcg 16777215) ∧ decode 0x00000051#32 = .ok .unpack := by decide

theorem witness_RejectedWordsComplete :
    (hostTurn (running 0x00000000#32) = none ∧ sequencerRuns (running 0x00000000#32) = true ∧
      configAdmitted (running 0x00000000#32).params = true ∧ (running 0x00000000#32).cmd.toNat % 256 = 0 ∧
      0 ∉ [0x10, 0x11, 0x12, 0x13, 0x20, 0x21, 0x30, 0x31, 0x32, 0x40, 0x41, 0x42, 0x50, 0x51]) ∧
      ((running 0xFFFFFFFF#32).cmd.toNat % 256 = 0xFF ∧
        0xFF ∉ [0x10, 0x11, 0x12, 0x13, 0x20, 0x21, 0x30, 0x31, 0x32, 0x40, 0x41, 0x42, 0x50, 0x51]) ∧
      ((running 0x00000110#32).cmd.toNat % 256 = 0x10 ∧ (running 0x00000110#32).cmd.toNat / 256 ≠ 0) ∧
      (running 0xFFFFFF51#32).cmd.toNat % 256 = 0x51 ∧ (running 0xFFFFFF51#32).cmd.toNat / 256 ≠ 0 := by decide

theorem witness_StepRunsDecodedCommand :
    (hostTurn (running 0x32#32) = none ∧ sequencerRuns (running 0x32#32) = true ∧ decode (running 0x32#32).cmd = .ok .ydrop ∧
      configAdmitted (running 0x32#32).params = true) ∧
      configAdmitted { running 0x32#32 with params := { small with blk := 8 } }.params = false := by decide

theorem witness_CmdWriteStarts :
    (hosted (.write 0x004 4 0x32#32)).host = [⟨.write 0x004 4 0x32#32, true⟩] ∧
      (hosted (.write 0x004 4 0x32#32)).status.busy = false ∧ (hosted (.write 0x004 4 0x32#32)).waiting = false ∧
      { hosted (.write 0x004 4 0x32#32) with status := { Status.reset with busy := true } }.status.busy = true := by decide

theorem witness_PlacedWordRuns : (Instr.qcg 0).wellFormed = true ∧ configAdmitted State.reset.params = true := by decide

theorem witness_IdleAndHungStay :
    (hostTurn State.reset = none ∧ State.reset.status.busy = false) ∧
      hostTurn { running 0x12#32 with waiting := true } = none ∧ { running 0x12#32 with waiting := true }.waiting = true := by decide

theorem witness_ResetFromOutside :
    (hosted (.reset 0)).host = [⟨.reset 0, true⟩] ∧ (hosted (.reset 0)).status.busy = false ∧
      { running 0x12#32 with host := [⟨.reset 3, true⟩] }.host = [⟨.reset 3, true⟩] := by decide

theorem witness_HostReadKeepsBlock :
    (accessed small 0x10004 4 = some (.bbuf 1) ∧ (hosted (.read 0x10004 4)).status.busy = false) ∧
      ∀ c ∈ [(0x000, Reg.id), (0x004, .cmd), (0x008, .status), (0x00C, .errlog)], accessed small c.1 4 = some c.2 ∧
        c.2 ∈ [Reg.status, .errlog, .id, .cmd] := by decide

/-- Written places at the ends of the ranges: the last bit of a BBUF word, the last byte of a PBUF word, the high limb of a
bignum register, the last limb of Y_CTR, the high half of T_NUM and the last excursion entry. -/
theorem witness_HostReadKeepsBlock_written :
    Memory.get? (holding (List.replicate 32 true)).bbuf (32 * 0 + 31) = some true ∧
      Memory.get? { idle small with pbuf := [(3, 0xB2#8)] }.pbuf (4 * 0 + 3) = some 0xB2#8 ∧
      (accessed small 0x404 4 = some (.bn .a 1) ∧ (powering (2 ^ 63) 2 3).bnValue .a = some (2 ^ 63)) ∧
      (accessed toy 0x09C 4 = some (.yCtr 7) ∧ (live fresh []).handle = some fresh) ∧
      (accessed small 0x0B4 4 = some (.tNum true) ∧ { Bank.unwritten with num := some 5#64 }.num = some 5#64) ∧
      accessed small 0x244 4 = some (.tDen2j 17) ∧
      { Bank.unwritten with den2j := some (forStates (fun _ => 1#32)) }.den2j = some (forStates (fun _ => 1#32)) := by
  decide +kernel

/-- No place of the map has the offset 0x034, the first gap. -/
theorem witness_HostAccessRefusals :
    (∀ r : Reg, r.mapped small = true → r.offset ≠ 0x034) ∧ 2 ≠ 4 ∧ 0x006 % 4 ≠ 0 ∧
      (accessed small 0x02C 4 = some .blen ∧ Reg.blen ∉ [Reg.status, .errlog, .id, .cmd] ∧ (running 0x12#32).status.busy = true) := by
  refine ⟨fun r _ => ?_, by decide⟩
  cases r with
  | tNum high => cases high <;> decide
  | tDen2 high => cases high <;> decide
  | _ => simp only [Reg.offset]; omega

theorem witness_AddressMap :
    configAdmitted small = true ∧ (Reg.bbuf 1).mapped small = true ∧ (Reg.pbuf 1).mapped small = true ∧
      (Reg.bn .x 1).mapped small = true ∧ (Reg.tDen2j 17).mapped small = true ∧ (Reg.bbuf 2).mapped small = false ∧
      (7 < 8 ∧ 17 < 18 ∧ 1 < small.w / 32 ∧ 1 < small.lmax / 32 ∧ 1 < small.lmax / 8 / 4) := by decide

theorem witness_BbufWindow :
    configAdmitted small = true ∧ (hosted (.write (0x10000 + 4 * 1) 4 5#32)).host = [⟨.write (0x10000 + 4 * 1) 4 5#32, true⟩] ∧
      1 < small.lmax / 32 ∧ (hosted (.write (0x10000 + 4 * 1) 4 5#32)).status.busy = false := by decide

theorem witness_PbufWindow :
    configAdmitted small = true ∧ (hosted (.write (0x40000 + 4 * 1) 4 5#32)).host = [⟨.write (0x40000 + 4 * 1) 4 5#32, true⟩] ∧
      1 < small.lmax / 8 / 4 ∧ (hosted (.write (0x40000 + 4 * 1) 4 5#32)).status.busy = false := by decide

theorem witness_BignumLimbs :
    configAdmitted small = true ∧ (Reg.bn .n 1).offset = 0x604 ∧ Bn.n ∈ [Bn.a, .e, .n] ∧ 1 < small.w / 32 ∧
      (powering 4 13 497).bnValue .n = some 497 ∧ (idle small).bnValue .n = none := by decide

theorem witness_HostWriteEffect :
    ∀ c ∈ [(0x000, Reg.id), (0x030, .plen), (0x02C, .blen), (0x028, .seed), (0x024, .cfgRetry), (0x020, .cfgConst),
        (0x01C, .cfgTrials), (0x018, .cfgPt), (0x014, .cfgPg), (0x010, .arg0)],
      accessed small c.1 4 = some c.2 ∧ (hosted (.write c.1 4 9#32)).status.busy = false ∧ (c.2 = .id → c.2.readOnly = true) := by
  decide

theorem witness_KeyAndPoolHidden :
    (live fresh []).handle = some fresh ∧ (∀ n, HostAct.read 0x040 4 ≠ .reset n) ∧
      ∃ t, hostAct (.read 0x040 4) (live fresh []) = .next t ∧ t.reads = [(0x040, 2#32)] :=
  ⟨rfl, fun _ => by simp, next_of_after (by decide +kernel)⟩

theorem witness_ModexpResult :
    (idle small).bnValue .n = none ∧ (powering 4 13 0).bnValue .n = some 0 ∧
      (((idle small).setBn .n 1).bnValue .n = some 1 ∧ ((idle small).setBn .n 1).bnValue .a = none) ∧
      ((((idle small).setBn .a 0).setBn .n 1).bnValue .a = some 0 ∧ (((idle small).setBn .a 0).setBn .n 1).bnValue .e = none) ∧
      (powering 0 0 1).bnValue .n = some 1 ∧ (powering 0 0 1).bnValue .a = some 0 ∧ (powering 0 0 1).bnValue .e = some 0 := by
  decide +kernel

theorem witness_DecomposeUnique : 3 % 2 = 1 ∧ 3 ≤ 3 ∧ 3 - 1 = 2 ^ 1 * 1 ∧ 1 % 2 = 1 := by decide

theorem witness_MillerRabinRound : 5 % 2 = 1 ∧ 5 ≤ 5 ∧ 2 ≤ 3 ∧ 3 ≤ 5 - 2 ∧ 5 - 1 = 2 ^ 2 * 1 ∧ 1 % 2 = 1 := by decide

/-- MRTEST on 221 with CFG_TRIALS = 2. V-P18, V-P19: the base 174 passes and 137 does not. -/
def testing (answers : List Nat) : State := { (drawing answers).setBn .n 221 with cfgTrials := 2#32 }

/-- How many of the bases `MRTEST` would draw pass, up to the first composite round. -/
def passing (s : State) : Nat :=
  (((s.ext.answers.take s.cfgTrials.toNat).map (inRange 2 219)).takeWhile (mrRound 221)).length

theorem witness_MrtestResult :
    (({ idle small with cfgTrials := 0#32 }).cfgTrials = 0#32 ∧ (idle small).cfgTrials ≠ 0#32 ∧ (idle small).bnValue .n = none) ∧
      (((idle small).setBn .n 4).bnValue .n = some 4 ∧ ((idle small).setBn .n 3).bnValue .n = some 3 ∧
        ((idle small).setBn .n 5).bnValue .n = some 5) ∧
      ((testing [174, 174]).bnValue .n = some 221 ∧ 221 % 2 = 1 ∧ 5 ≤ 221) ∧
      passing (testing [174, 174]) = (testing [174, 174]).cfgTrials.toNat ∧
      (passing (testing [174, 137]) = 1 ∧ (testing [174, 137]).ext.answers.length = 2) ∧
      (passing (testing [174]) = 1 ∧ (testing [174]).ext.answers.length = 1 ∧ 1 < (testing [174]).cfgTrials.toNat) := by
  decide +kernel

/-- Candidates of 2, 5 and 11 bits: the listed prime 3, 27 = 3·9, and 1517 with no listed divisor. -/
theorem witness_PrimeSearchPass :
    ((1 ≠ 0 ∧ 1 = 1) ∧ ¬(0 ≠ 0 ∧ 1 = 0) ∧ ¬(2 ≠ 0 ∧ 1 = 2)) ∧ (drawing []).ext.answers = [] ∧
      (0 % 2 ^ 2 ||| 2 ^ (2 - 1) ||| 1) ∈ [2, 3, 5, 7, 11, 13, 17, 19, 23, 29, 31] ∧
      (10 % 2 ^ 5 ||| 2 ^ (5 - 1) ||| 1) ∉ [2, 3, 5, 7, 11, 13, 17, 19, 23, 29, 31] ∧
      (∃ p ∈ [2, 3, 5, 7, 11, 13, 17, 19, 23, 29, 31], (10 % 2 ^ 5 ||| 2 ^ (5 - 1) ||| 1) % p = 0) ∧
      ∀ p ∈ [2, 3, 5, 7, 11, 13, 17, 19, 23, 29, 31], (492 % 2 ^ 11 ||| 2 ^ (11 - 1) ||| 1) % p ≠ 0 := by decide

theorem witness_GenprimeResult :
    configAdmitted small = true ∧ (1 < 2 ∧ small.w < 65 ∧ { idle small with cfgTrials := 0#32 }.cfgTrials = 0#32) ∧
      (2 ≤ 2 ∧ 64 ≤ small.w ∧ (idle small).cfgTrials ≠ 0#32) ∧
      primeSearch 2 false 5 0 0 ⟨[0], none, []⟩ = .yields (3, 1) ⟨[], none, [.randBits 2 0]⟩ ∧
      primeSearch 5 false 5 1 0 ⟨[10], none, []⟩ = .exhausted ⟨[], none, [.randBits 5 10]⟩ ∧
      primeSearch 5 true 5 0 0 ⟨[], none, []⟩ = .waits ⟨[], none, []⟩ := by decide +kernel

/-- 3 for GENPRIME3 2, and 37 with one passing base for GENPRIME 6. -/
theorem witness_GenprimeFirstCandidate :
    (0 % 2 ^ 2 ||| 2 ^ (2 - 1) ||| 1) = 3 ∧ 3 % 4 = 3 ∧ 3 ∈ [2, 3, 5, 7, 11, 13, 17, 19, 23, 29, 31] ∧
      (5 % 2 ^ 6 ||| 2 ^ (6 - 1) ||| 1) = 37 ∧ (∀ p ∈ [2, 3, 5, 7, 11, 13, 17, 19, 23, 29, 31], 37 % p ≠ 0) ∧
      (1#32).toNat ≤ [2].length ∧ (∀ b ∈ [2].take 1, mrRound 37 (inRange 2 35 b) = true) ∧ configAdmitted small = true ∧
      6 ≤ small.w ∧ (drawing [5, 2]).ext.answers = 5 :: [2] := by decide +kernel

theorem witness_GenprimeResultRange :
    configAdmitted (drawing [0]).params = true ∧ (∃ t, exec (.genprime 2) (drawing [0]) = .next t ∧ endsWell t = (true, 0#4)) ∧
      ∃ t, exec (.genprime3 6) (drawing [10, 2, 2, 2, 2, 2]) = .next t ∧ endsWell t = (true, 0#4) :=
  ⟨by decide, next_of_after (by decide +kernel), next_of_after (by decide +kernel)⟩

theorem witness_ExhaustionCountsCandidates :
    (∃ t, exec (.genprime 5) { drawing [10] with cfgRetry := 1#32 } = .next t ∧ endsWell t = (true, 3#4)) ∧
      ∃ t, exec (.bbs 12) { drawing [2, 2] with arg0 := some 5#32, cfgRetry := 2#32 } = .next t ∧ endsWell t = (true, 3#4) :=
  ⟨next_of_after (by decide +kernel), next_of_after (by decide +kernel)⟩

theorem witness_QcgResult :
    (0 = 0 ∧ small.lmax < 65) ∧ (1 ≤ 1 ∧ 64 ≤ small.lmax) ∧ (idle small).seed = none ∧
      { idle small with seed := some 0#32 }.seed = some 0#32 := by decide

theorem witness_QcgSeedResidue :
    { idle small with seed := some 4294967295#32 }.seed = some 4294967295#32 ∧ 1 ≤ 64 ∧ 64 ≤ small.lmax := by decide

theorem witness_QcgPrefix :
    1 ≤ 1 ∧ 1 ≤ 64 ∧ 64 ≤ small.lmax ∧
      (∃ t, exec (.qcg 1) { idle small with seed := some 1#32 } = .next t ∧ t.blen = 1#32) ∧
      ∃ u, exec (.qcg 64) { idle small with seed := some 1#32 } = .next u ∧ u.blen = 64#32 :=
  ⟨by decide, by decide, by decide, next_of_after (by decide +kernel), next_of_after (by decide +kernel)⟩

theorem witness_BbsSetupAndSeed :
    primeSearch 5 true 5 0 1 ⟨[6], none, []⟩ = .yields (23, 2) ⟨[], none, [.randBits 5 6]⟩ ∧ 23 ≠ 19 ∧
      primeSearch 5 true 5 0 1 ⟨[2], none, []⟩ = .yields (19, 2) ⟨[], none, [.randBits 5 2]⟩ ∧
      primeSearch 5 true 5 1 1 ⟨[2], none, []⟩ = .exhausted ⟨[2], none, []⟩ ∧
      primeSearch 5 true 5 0 1 ⟨[], none, []⟩ = .waits ⟨[], none, []⟩ ∧
      (Nat.gcd (inRange 1 436 3) 437 = 1 ∧ Nat.gcd (inRange 1 436 19) 437 ≠ 1) := by decide +kernel

theorem witness_BbsResult :
    configAdmitted small = true ∧ small.lmax < 65 ∧ (1 ≤ 64 ∧ 64 ≤ small.lmax) ∧ (idle small).arg0 = none ∧
      ((1#32).toNat < 2 ∧ small.w < 2 * (33#32).toNat) ∧
      (2 ≤ (5#32).toNat ∧ 2 * (32#32).toNat ≤ small.w ∧ (idle small).cfgTrials ≠ 0#32) ∧
      bbsStart 5 5 0 ⟨[2, 6, 3], none, []⟩
        = .yields ((19, 23), 9) ⟨[], none, [.randBits 5 2, .randBits 5 6, .randRange 1 436 3]⟩ ∧
      bbsStart 5 5 1 ⟨[2], none, []⟩ = .exhausted ⟨[], none, [.randBits 5 2]⟩ ∧
      bbsStart 5 5 0 ⟨[2], none, []⟩ = .waits ⟨[], none, [.randBits 5 2]⟩ := by decide +kernel

theorem witness_BbsFactors :
    ({ drawing [2, 6, 3] with arg0 := some 5#32 }).arg0 = some 5#32 ∧
      ∃ t, exec (.bbs 1) { drawing [2, 6, 3] with arg0 := some 5#32 } = .next t ∧ endsWell t = (true, 0#4) :=
  ⟨rfl, next_of_after (by decide +kernel)⟩

/-- V-B3, at both ends of the range of ARG0 and both kinds of CFG_RETRY. -/
theorem witness_BbsSmallPrimeBits :
    (∃ t, exec (.bbs 8) { drawing [7, 7] with arg0 := some 2#32 } = .next t ∧ endsWell t = (false, 0#4)) ∧
      (∃ t, exec (.bbs 8) { drawing [7] with arg0 := some 4#32, cfgRetry := 1#32 } = .next t ∧ endsWell t = (true, 3#4)) ∧
      (1#32).toNat ≤ (drawing [7]).ext.answers.length :=
  ⟨next_of_after (by decide +kernel), next_of_after (by decide +kernel), by decide⟩

theorem witness_YinitResult :
    ({ idle toy with cfgPg := 0#32 }.cfgPg = 0#32 ∧ { idle toy with cfgPt := 0#32 }.cfgPt = 0#32) ∧
      ((idle toy).cfgPg ≠ 0#32 ∧ (idle toy).cfgPt ≠ 0#32 ∧ (idle toy).ext.answers = []) ∧
      (drawing [0xA5C3]).ext.answers = 0xA5C3 :: [] ∧ bytesOfNat small.k 0xA5C3 = [0xA5, 0xC3] ∧
      (idle toy).params.altPool = none := by decide

theorem witness_BlockRequestSteps :
    toy.altChain = none ∧ (handleOf [0xA5, 0xC3] 2 0#32 1#32).pgRem = 0#32 ∧ (handleOf [0xA5, 0xC3] 2 0#32 1#32).ptRem ≠ 0#32 ∧
      (handleOf [0xEA, 0xB0] 3 1#32 0#32).ptRem = 0#32 ∧ (handleOf [0xEA, 0xB0] 3 1#32 0#32).pgRem ≠ 0#32 ∧
      [0xBEEF] = 0xBEEF :: ([] : List Nat) ∧ bytesOfNat toy.elen 0xBEEF = [0xBE, 0xEF] ∧
      (toy.altFitBlock = none ∧ toy.blk % 8 = 0 ∧ 8 * toy.k ≤ toy.blk ∧ 1 < toy.k) ∧ toy.altFitDigest = none ∧
      toy.altPool = none := by decide

/-- The first two block requests of V-Y1, the second after a run of none. -/
theorem witness_CounterMonotone :
    1 ≤ toy.cw ∧ fresh.ctr < 2 ^ toy.cw ∧ 0 + 2 < 2 ^ (toy.cw - 1) ∧
      blockRequest toy fresh ⟨[], none, []⟩
        = .yields (0x271E, handleOf [0xA5, 0xC3] 1 1#32 2#32) ⟨[], none, [.encryptBlock [0xA5, 0xC3] 0 0x271E]⟩ ∧
      blockRequests toy 0 (handleOf [0xA5, 0xC3] 1 1#32 2#32) ⟨[], none, []⟩
        = .yields ([], handleOf [0xA5, 0xC3] 1 1#32 2#32) ⟨[], none, []⟩ ∧
      blockRequest toy (handleOf [0xA5, 0xC3] 1 1#32 2#32) ⟨[], none, []⟩
        = .yields (0x88E7, handleOf [0xA5, 0xC3] 2 0#32 1#32) ⟨[], none, [.encryptBlock [0xA5, 0xC3] 1 0x88E7]⟩ := by decide +kernel

/-- V-Y1: two requests of a fresh handle, then the one whose rekey fires. -/
theorem witness_Cadence :
    fresh.ctr = 0 ∧ fresh.pgRem = fresh.pg ∧ fresh.ptRem = fresh.pt ∧ fresh.pg ≠ 0#32 ∧ fresh.pt ≠ 0#32 ∧
      blockRequests toy 2 fresh ⟨[], none, []⟩
        = .yields ([0x271E, 0x88E7], handleOf [0xA5, 0xC3] 2 0#32 1#32)
          ⟨[], none, [.encryptBlock [0xA5, 0xC3] 0 0x271E, .encryptBlock [0xA5, 0xC3] 1 0x88E7]⟩ ∧
      blockRequest toy (handleOf [0xA5, 0xC3] 2 0#32 1#32) ⟨[], none, []⟩
        = .yields (0x7877, handleOf [0xEA, 0xB0] 3 1#32 0#32)
          ⟨[], none, [.encryptBlock [0xA5, 0xC3] 2 0xEAB0, .encryptBlock [0xEA, 0xB0] 2 0x7877]⟩ := by decide +kernel

theorem witness_YgenResult :
    configAdmitted toy = true ∧ toy.lmax < 65 ∧ (1 ≤ 20 ∧ 20 ≤ toy.lmax) ∧ (idle toy).handle = none ∧
      (live fresh []).handle = some fresh ∧ (20 + toy.blk - 1) / toy.blk = 2 ∧
      (∃ out x, blockRequests toy 2 fresh (live fresh []).ext = .yields out x) ∧
      blockRequests toy 1 (handleOf [0xEA, 0xB0] 3 1#32 0#32) ⟨[], none, []⟩ = .waits ⟨[], none, []⟩ ∧
      (live fresh [1, 2]).ext.repliesLeft = none ∧ 2 ≤ (live fresh [1, 2]).ext.answers.length :=
  ⟨by decide, by decide, by decide, rfl, rfl, by decide, ⟨_, _, witness_Cadence.2.2.2.2.2.1⟩, by decide +kernel, rfl, by decide⟩

/-- V-Y2: YGEN 16 twice against YGEN 32. -/
theorem witness_YgenSplit :
    configAdmitted toy = true ∧ 1 ≤ 16 ∧ 16 + 16 ≤ toy.lmax ∧ 16 % toy.blk = 0 ∧
      ∃ t, exec (.ygen 16) (live fresh []) = .next t ∧
        (endsWell t, after (exec (.ygen 16) t) endsWell, after (exec (.ygen 32) (live fresh [])) endsWell)
          = ((true, 0#4), some (true, 0#4), some (true, 0#4)) :=
  ⟨by decide, by decide, by decide, by decide, next_of_after (by decide +kernel)⟩

theorem witness_HandleWriters :
    ∃ t, exec .ydrop (live fresh []) = .next t ∧ decide (t.handle ≠ (live fresh []).handle) = true :=
  next_of_after (by decide +kernel)

theorem witness_PrimitivesByCommand :
    configAdmitted (drawing [0]).params = true ∧ (∃ t, exec (.genprime 2) (drawing [0]) = .next t ∧ t.ext.answers = []) ∧
      ∃ t, exec (.ygen 20) (live fresh []) = .next t ∧ t.ext.history.length = 2 :=
  ⟨by decide, next_of_after (by decide +kernel), next_of_after (by decide +kernel)⟩

/-- One state for each of the four ways to end: YDROP, QCG 0, RUNS on equal bits, GENPRIME exhausted. -/
theorem witness_ErrorCodesByCommand :
    (∃ t, exec .ydrop (idle small) = .next t ∧ endsWell t = (true, 0#4)) ∧
      (∃ t, exec (.qcg 0) (idle small) = .next t ∧ endsWell t = (true, 1#4)) ∧
      (∃ t, exec .runs (holding [true, true]) = .next t ∧ endsWell t = (true, 2#4)) ∧
      ∃ t, exec (.genprime 5) { drawing [10] with cfgRetry := 1#32 } = .next t ∧ endsWell t = (true, 3#4) :=
  ⟨next_of_after (by decide +kernel), next_of_after (by decide +kernel), next_of_after (by decide +kernel),
    next_of_after (by decide +kernel)⟩

/-- Lengths 1, LMAX + 1, a zero threshold, an unwritten cell, and a written sequence of the least length 2. -/
theorem witness_FreqResult :
    configAdmitted small = true ∧ ((holding [true]).blen.toNat < 2 ∧ small.lmax < (65#32).toNat ∧
      { holding [true] with cfgConst := 0#32 }.cfgConst = 0#32) ∧
      (2 ≤ (2#32).toNat ∧ (64#32).toNat ≤ small.lmax ∧ (holding [true, false]).cfgConst ≠ 0#32) ∧
      (Memory.get? (idle small).bbuf 0 = none) ∧
      ([true, false].length = (holding [true, false]).blen.toNat ∧
        ∀ k < (holding [true, false]).blen.toNat, Memory.get? (holding [true, false]).bbuf k = [true, false][k]?) := by decide

/-- As for FREQ, with equal bits and with bits that differ. -/
theorem witness_RunsResult :
    (∀ k < 2, Memory.get? (holding [true, true]).bbuf k = [true, true][k]?) ∧ 2 - [true, true].count true = 0 ∧
      (∀ k < 2, Memory.get? (holding [true, false]).bbuf k = [true, false][k]?) ∧
      [true, false].count true ≠ 0 ∧ 2 - [true, false].count true ≠ 0 := by decide

/-- As for FREQ, with a walk that never returns to 0 and with one that does. -/
theorem witness_ExcurResult :
    (∀ k < 2, Memory.get? (holding [true, true]).bbuf k = [true, true][k]?) ∧
      (List.range 2).countP (fun k => decide (2 * (([true, true].take (k + 1)).count true : Int) - ((k + 1 : Nat) : Int) = 0)) = 0 ∧
      (∀ k < 2, Memory.get? (holding [true, false]).bbuf k = [true, false][k]?) ∧
      (List.range 2).countP (fun k => decide (2 * (([true, false].take (k + 1)).count true : Int) - ((k + 1 : Nat) : Int) = 0)) = 1 := by
  decide

theorem witness_ComparatorIsReal : 1#32 ≠ 0#32 ∧ 0 < 1 := by decide

/-- FREQ after another test left its bank. -/
theorem witness_TestsAreIndependent :
    Instr.freq ∈ [Instr.freq, .runs, .excur] ∧
      { holding [true, false] with bank := { Bank.unwritten with l := some 1#32 } }.blen = (holding [true, false]).blen ∧
      ∃ t, exec .freq (holding [true, false]) = .next t ∧ endsWell t = (true, 0#4) :=
  ⟨by decide, rfl, next_of_after (by decide +kernel)⟩

/-- BLEN = LMAX + 1; the first byte unwritten; BLEN = 0 and BLEN = 8 written. -/
theorem witness_PackResult :
    small.lmax < (65#32).toNat ∧ (64#32).toNat ≤ small.lmax ∧
      (0 < 8 * ((8#32).toNat / 8) ∧ Memory.get? (idle small).bbuf 0 = none) ∧
      (∀ i < 8 * ((0#32).toNat / 8), Memory.get? (idle small).bbuf i ≠ none) ∧
      ∀ i < 8 * ((holding (List.replicate 9 true)).blen.toNat / 8), Memory.get? (holding (List.replicate 9 true)).bbuf i ≠ none := by
  decide

theorem witness_UnpackResult :
    small.lmax / 8 < (9#32).toNat ∧ (8#32).toNat ≤ small.lmax / 8 ∧ (0 < (1#32).toNat ∧ Memory.get? (idle small).pbuf 0 = none) ∧
      ∀ i < (1#32).toNat, Memory.get? { idle small with pbuf := [(0, 0xB2#8)] }.pbuf i ≠ none := by decide

theorem witness_PackUnpackRoundTrip :
    configAdmitted small = true ∧ (∃ t, exec .pack (holding (List.replicate 9 true)) = .next t ∧ endsWell t = (true, 0#4)) ∧
      ∃ t, exec .unpack { idle small with pbuf := [(0, 0xB2#8)], plen := 1#32 } = .next t ∧ endsWell t = (true, 0#4) :=
  ⟨by decide, next_of_after (by decide +kernel), next_of_after (by decide +kernel)⟩

theorem witness_FramePrime :
    (∃ t, exec .modexp (powering 4 13 497) = .next t ∧ endsWell t = (true, 0#4)) ∧
      (∃ t, exec .mrtest { (drawing [2]).setBn .n 5 with cfgTrials := 1#32 } = .next t ∧ endsWell t = (true, 0#4)) ∧
      (∃ t, exec (.genprime 2) (drawing [0]) = .next t ∧ endsWell t = (true, 0#4)) ∧
      ∃ t, exec (.genprime3 2) (drawing [0]) = .next t ∧ endsWell t = (true, 0#4) :=
  ⟨next_of_after (by decide +kernel), next_of_after (by decide +kernel), next_of_after (by decide +kernel),
    next_of_after (by decide +kernel)⟩

/-- Each of the four commands ended well; QCG 0 and a hung BBS; an exhausted BBS. -/
theorem witness_FrameBitWriters :
    ((∃ t, exec (.qcg 1) { idle small with seed := some 1#32 } = .next t ∧ endsWell t = (true, 0#4)) ∧
      (∃ t, exec (.bbs 1) { drawing [2, 6, 3] with arg0 := some 5#32 } = .next t ∧ endsWell t = (true, 0#4)) ∧
      (∃ t, exec (.ygen 1) (live fresh []) = .next t ∧ endsWell t = (true, 0#4)) ∧
      (∃ t, exec .unpack (idle small) = .next t ∧ endsWell t = (true, 0#4))) ∧
      (∃ t, exec (.qcg 0) (idle small) = .next t ∧ endsWell t = (true, 1#4)) ∧
      (∃ t, exec (.bbs 1) { drawing [] with arg0 := some 5#32 } = .next t ∧ endsWell t = (false, 0#4)) ∧
      ∃ t, exec (.bbs 1) { drawing [2] with arg0 := some 5#32, cfgRetry := 1#32 } = .next t ∧ endsWell t = (true, 3#4) :=
  ⟨⟨next_of_after (by decide +kernel), next_of_after (by decide +kernel), next_of_after (by decide +kernel),
    next_of_after (by decide +kernel)⟩, next_of_after (by decide +kernel), next_of_after (by decide +kernel),
    next_of_after (by decide +kernel)⟩

theorem witness_FrameHandleCommands :
    (∃ t, exec .yinit { idle toy with ext := ⟨[0xA5C3], none, []⟩ } = .next t ∧ endsWell t = (true, 0#4)) ∧
      ∃ t, exec .ydrop (idle toy) = .next t ∧ endsWell t = (true, 0#4) :=
  ⟨next_of_after (by decide +kernel), next_of_after (by decide +kernel)⟩

theorem witness_FrameStat :
    (∃ t, exec .freq (holding [true, false]) = .next t ∧ endsWell t = (true, 0#4)) ∧
      (∃ t, exec .runs (holding [true, false]) = .next t ∧ endsWell t = (true, 0#4)) ∧
      ∃ t, exec .excur (holding [true, true]) = .next t ∧ endsWell t = (true, 2#4) :=
  ⟨next_of_after (by decide +kernel), next_of_after (by decide +kernel), next_of_after (by decide +kernel)⟩

theorem witness_FramePack :
    (∃ t, exec .pack (idle small) = .next t ∧ endsWell t = (true, 0#4)) ∧
      ∃ t, exec .pack { idle small with blen := 65#32 } = .next t ∧ endsWell t = (true, 1#4) :=
  ⟨next_of_after (by decide +kernel), next_of_after (by decide +kernel)⟩

/-- A step of the sequencer and a step of the host, from states that satisfy the invariant. -/
theorem witness_StepKeepsInv :
    (running 0x32#32).Inv ∧ (∃ t, step (running 0x32#32) = .next t ∧ endsWell t = (true, 0#4)) ∧
      (hosted (.read 0 4)).Inv ∧ ∃ t, step (hosted (.read 0 4)) = .next t ∧ t.reads.length = 1 :=
  ⟨by unfold State.Inv; decide, next_of_after (by decide +kernel), by unfold State.Inv; decide, next_of_after (by decide +kernel)⟩

/-- A step of the host and a step of the sequencer that sets a bit. -/
theorem witness_ErrlogSticky :
    (∃ t, step (hosted (.write 0x00C 4 0#32)) = .next t ∧ t.errlog = 0#32) ∧
      ∃ t, step { running 0x00#32 with errlog := 0x4#32 } = .next t ∧ t.errlog = 0x6#32 :=
  ⟨next_of_after (by decide +kernel), next_of_after (by decide +kernel)⟩

end Sys2Proof.Tests
end

section
/-! The reset table (10_state R44). -/

namespace Sys2Proof.Machine

/-- The word of 10_state R22 with every field of STATUS at 0. -/
@[simp] theorem statusReset_word : Status.reset.word = 0#32 := rfl

@[simp] theorem bnBank_get_unwritten (reg : Bn) : BnBank.unwritten.get reg = [] := by
  cases reg <;> rfl

/-- Cell by cell, as the reset table says it of the eight bignum registers. -/
theorem bnBank_unwritten_cell (reg : Bn) (i : Nat) : Memory.get? (BnBank.unwritten.get reg) i = none := by
  rw [bnBank_get_unwritten, memory_get_nil]

/-- The registers hold the table's literals by definition; what is left to show is the word of STATUS and that no cell of a
buffer or of a bignum register is written. -/
theorem initial_resetTable (p : Params) : (State.initial p).ResetTable := by
  have idWord : (State.initial p).regValue .id = some 0x49535031#32 := rfl
  have status : (State.initial p).status.word = 0#32 := statusReset_word
  have bbuf : ∀ i, Memory.get? (State.initial p).bbuf i = none := memory_get_nil
  have pbuf : ∀ i, Memory.get? (State.initial p).pbuf i = none := memory_get_nil
  have bignums : ∀ reg i, Memory.get? ((State.initial p).bn.get reg) i = none := bnBank_unwritten_cell
  exact ⟨idWord, rfl, status, rfl, rfl, rfl, rfl, rfl, rfl, rfl, rfl, rfl, rfl, bbuf, pbuf, bignums, rfl, rfl, rfl, rfl⟩

/-- Settles O9: the table holds of the block built with any configuration, so of the standard one. -/
theorem resetTableHolds : Obligations.ResetTableHolds :=
  ⟨initial_resetTable, initial_resetTable Params.standard⟩

end Sys2Proof.Machine
end

section
/-! Rejected command words (30_encoding R74, R75). -/

namespace Sys2Proof

/-- The opcodes of the map (30_encoding R73). -/
def mapOpcodes : List Nat := [0x10, 0x11, 0x12, 0x13, 0x20, 0x21, 0x30, 0x31, 0x32, 0x40, 0x41, 0x42, 0x50, 0x51]

/-- The opcodes of format N, whose commands have no immediate (30_encoding R71, R73). -/
def formatNOpcodes : List Nat := [0x10, 0x11, 0x30, 0x32, 0x40, 0x41, 0x42, 0x50, 0x51]

theorem opcode_mem_mapOpcodes (i : Instr) : i.opcode ∈ mapOpcodes := by
  cases i <;> simp [Instr.opcode, mapOpcodes]

theorem opcode_mem_formatNOpcodes_iff (i : Instr) : i.opcode ∈ formatNOpcodes ↔ i.imm = none := by
  cases i <;> simp [Instr.opcode, Instr.imm, formatNOpcodes]

theorem decodeN_eq_ok {imm : Nat} {i j : Instr} : decodeN imm i = .ok j ↔ imm = 0 ∧ i = j := by
  unfold decodeN
  split <;> simp [*]

/-- A decoded command has the opcode field of its word, and the immediate field, which is 0 in format N: every branch of the
decoder returns the command of the opcode it matched (30_encoding R70 to R75). -/
theorem fields_of_decode_eq_ok {w : Word} {i : Instr} (h : decode w = .ok i) :
    opcodeField w = i.opcode ∧ imm24Field w = i.imm.getD 0 := by
  unfold decode at h
  split at h <;> rename_i opcode
  -- no opcode of the map
  case h_15 => cases h
  -- format L: genprime, genprime3, qcg, bbs, ygen
  case h_3 | h_4 | h_5 | h_6 | h_8 => cases h; exact ⟨opcode, rfl⟩
  -- format N
  all_goals
    obtain ⟨imm, rfl⟩ := decodeN_eq_ok.mp h
    exact ⟨opcode, imm⟩

/-- A word that no command has the fields of is rejected. -/
theorem decode_error_of_rejected {w : Word}
    (h : opcodeField w ∉ mapOpcodes ∨ opcodeField w ∈ formatNOpcodes ∧ imm24Field w ≠ 0) :
    ∃ r, decode w = .error r := by
  cases hd : decode w with
  | error r => exact ⟨r, rfl⟩
  | ok i =>
    obtain ⟨opcode, imm⟩ := fields_of_decode_eq_ok hd
    rw [opcode, imm, opcode_mem_formatNOpcodes_iff] at h
    rcases h with unmapped | ⟨formatN, nonzero⟩
    · exact absurd (opcode_mem_mapOpcodes i) unmapped
    · exact absurd (congrArg (·.getD 0) formatN) nonzero

namespace Machine

/-- With no results to drop, a raised error leaves what `State.failed` says of its code (60_exceptions R178). -/
theorem raiseError_nothing_eq_failed (e : ErrCode) (s : State) : raiseError e .nothing s = s.failed e.code :=
  raiseError_nothing e s

/-- A rejected word raises InvalidParameter, whose code is 1 (30_encoding R74, R75). -/
theorem rejectWord_eq_failed (s : State) : rejectWord s = .next (s.failed 1) :=
  congrArg Host.Outcome.next (raiseError_nothing_eq_failed .invalidParameter s)

/-- The sequencer rejects the word in CMD when it encodes no command, in an admitted configuration. -/
theorem sequencerStep_error {s : State} {r : DecodeReject} (admitted : configAdmitted s.params = true)
    (rejected : decode s.cmd = .error r) : sequencerStep s = rejectWord s := by
  unfold sequencerStep fetchWord
  rw [if_pos admitted, rejected]

/-- Settles O4: the decoder rejects both kinds of word, and a rejected word completes with InvalidParameter. -/
theorem rejectedWordsComplete : Obligations.RejectedWordsComplete := by
  intro s noHostTurn runs admitted fields
  obtain ⟨r, rejected⟩ : ∃ r, decode s.cmd = .error r := decode_error_of_rejected fields
  rw [step_sequencer noHostTurn runs, sequencerStep_error admitted rejected, rejectWord_eq_failed]

end Machine

end Sys2Proof
end

section
/-! The arithmetic of the PRIME unit and MODEXP (40_prime R91 to R93, R98). -/

namespace Sys2Proof.Machine

/-! ## Decompose (R92) -/

/-- Halving stops at the odd part, whatever fuel is left beyond the power of 2. -/
theorem splitTwos_two_pow_mul_odd {fuel s t : Nat} (odd : t % 2 = 1) (enough : s ≤ fuel) :
    splitTwos fuel (2 ^ s * t) = (s, t) := by
  induction s generalizing fuel with
  | zero => cases fuel <;> simp [splitTwos, odd]
  | succ s ih =>
    obtain ⟨fuel, rfl⟩ : ∃ f, fuel = f + 1 := ⟨fuel - 1, by omega⟩
    have double : 2 ^ (s + 1) * t = 2 * (2 ^ s * t) := by ring
    have half : 2 * (2 ^ s * t) / 2 = 2 ^ s * t := by omega
    rw [double, splitTwos, if_pos (by omega), half, ih (by omega)]

/-- The fuel of `decompose` is enough, as 2^s is at most n - 1: any pair with the properties is the one it returns. -/
theorem decompose_eq {n s t : Nat} (product : n - 1 = 2 ^ s * t) (odd : t % 2 = 1) : decompose n = (s, t) := by
  have le : 2 ^ s ≤ 2 ^ s * t := Nat.le_mul_of_pos_right _ (by omega)
  have enough : s ≤ Nat.log2 (2 ^ s * t) :=
    (Nat.le_log2 (Nat.ne_of_gt ((Nat.two_pow_pos s).trans_le le))).mpr le
  rw [decompose, product, splitTwos_two_pow_mul_odd odd enough]

/-- Settles O20: `decompose_spec` is the existence and `decompose_eq` the uniqueness. -/
theorem decomposeUnique : Obligations.DecomposeUnique := by
  intro n odd three
  obtain ⟨product, oddPart, one⟩ := decompose_spec odd three
  exact ⟨product, one, oddPart, fun _ _ => decompose_eq⟩

/-! ## A Miller-Rabin round (R93) -/

/-- A round passes at once on 1 or n - 1, or at one of the s - 1 squarings that follow. -/
theorem mrRound_iff {n a s t : Nat} (pos : 0 < n) (h : decompose n = (s, t)) :
    mrRound n a = true ↔ a ^ t % n = 1 ∨ a ^ t % n = n - 1 ∨
      ∃ i, 1 ≤ i ∧ i ≤ s - 1 ∧ a ^ (2 ^ i * t) % n = n - 1 := by
  have square (i : Nat) : (a ^ t % n) ^ 2 ^ i % n = a ^ (2 ^ i * t) % n := by
    rw [← Nat.pow_mod, ← Nat.pow_mul, Nat.mul_comm]
  rw [mrRound_eq, h, modExp_eq a t pos, ← or_assoc]
  split
  · next first => simp [first]
  · next first => simp only [mrSquares_iff, square, first, false_or]

/-- Settles O21: the exponent t is the case i = 0 of 2^i * t, which s ≥ 1 puts among the i below s. -/
theorem millerRabinRound : Obligations.MillerRabinRound := by
  intro n a s t odd five _ _ product oddPart
  have decomposed : decompose n = (s, t) := decompose_eq product oddPart
  have one : 1 ≤ s := by
    obtain ⟨-, -, h⟩ := decompose_spec odd (by omega)
    rwa [decomposed] at h
  rw [mrRound_iff (by omega) decomposed]
  refine or_congr_right ⟨?_, ?_⟩
  · rintro (first | ⟨i, -, le, later⟩)
    · exact ⟨0, one, by simpa using first⟩
    · exact ⟨i, by omega, later⟩
  · rintro ⟨i, lt, hit⟩
    cases i with
    | zero => exact .inl (by simpa using hit)
    | succ i => exact .inr ⟨i + 1, by omega, by omega, hit⟩

/-! ## MODEXP (R98) -/

theorem withBn_of_unwritten {reg : Bn} {s : State} (h : s.bnValue reg = none) (f : Nat → Ending) :
    withBn reg s f = .faults (.bn reg) := by
  rw [withBn, h]

theorem withBn_of_written {reg : Bn} {s : State} {v : Nat} (h : s.bnValue reg = some v) (f : Nat → Ending) :
    withBn reg s f = f v := by
  rw [withBn, h]

theorem exec_modexp (s : State) : exec .modexp s = finish (modexpBody s) := rfl

theorem completeCommand_eq_completed (verdict rvalid : Bool) (s : State) :
    completeCommand verdict rvalid s = s.completed verdict rvalid := rfl

/-- A value no greater than one a bignum register holds is stored exactly. -/
theorem bnValue_setBn_of_le {s : State} {reg other : Bn} {v n : Nat} (h : s.bnValue other = some n) (le : v ≤ n) :
    (s.setBn reg v).bnValue reg = some v := by
  rw [bnValue_setBn, Nat.mod_eq_of_lt (le.trans_lt (bnValue_lt h))]

theorem exec_modexp_of_modulus_unwritten {s : State} (h : s.bnValue .n = none) :
    exec .modexp s = .fault (.unwrittenOperand (.bn .n)) := by
  rw [exec_modexp, modexpBody, withBn_of_unwritten h, finish_faults]

theorem exec_modexp_of_modulus_zero {s : State} (h : s.bnValue .n = some 0) : exec .modexp s = .next (s.failed 1) := by
  rw [exec_modexp, modexpBody, withBn_of_written h, if_pos rfl, finish_invalidParameter, raiseError_nothing_eq_failed]
  rfl

/-- Past its check MODEXP reads BN_A and then BN_E. -/
theorem exec_modexp_of_modulus {s : State} {n : Nat} (h : s.bnValue .n = some n) (nonzero : n ≠ 0) :
    exec .modexp s =
      finish (withBn .a s fun a => withBn .e s fun e => .completes false false (s.setBn .r (modExp a e n))) := by
  rw [exec_modexp, modexpBody, withBn_of_written h, if_neg nonzero]

theorem exec_modexp_of_operand_unwritten {s : State} {n : Nat} (h : s.bnValue .n = some n) (nonzero : n ≠ 0)
    (unwritten : s.bnValue .a = none ∨ s.bnValue .e = none) :
    ∃ o, exec .modexp s = .fault (.unwrittenOperand o) := by
  rw [exec_modexp_of_modulus h nonzero]
  cases ha : s.bnValue .a with
  | none => exact ⟨.bn .a, by rw [withBn_of_unwritten ha, finish_faults]⟩
  | some a =>
    have he : s.bnValue .e = none := unwritten.resolve_left (by simp [ha])
    exact ⟨.bn .e, by rw [withBn_of_written ha, withBn_of_unwritten he, finish_faults]⟩

theorem exec_modexp_of_operands {s : State} {n a e : Nat} (h : s.bnValue .n = some n) (nonzero : n ≠ 0)
    (ha : s.bnValue .a = some a) (he : s.bnValue .e = some e) :
    exec .modexp s = .next ((s.setBn .r (a ^ e % n)).completed false false) := by
  rw [exec_modexp_of_modulus h nonzero, withBn_of_written ha, withBn_of_written he, finish_completes,
    modExp_eq a e (Nat.pos_of_ne_zero nonzero), completeCommand_eq_completed]

/-- Settles O19: each clause is one way MODEXP ends; the result is below the modulus, so BN_R holds it. -/
theorem modexpResult : Obligations.ModexpResult := by
  intro s
  refine ⟨fun h => ⟨_, exec_modexp_of_modulus_unwritten h⟩, exec_modexp_of_modulus_zero, fun n h nonzero =>
    ⟨exec_modexp_of_operand_unwritten h nonzero, fun a e ha he => ?_⟩⟩
  have below : a ^ e % n < n := Nat.mod_lt _ (Nat.pos_of_ne_zero nonzero)
  exact ⟨s.setBn .r (a ^ e % n), exec_modexp_of_operands h nonzero ha he, rfl, bnValue_setBn_of_le h below.le⟩

end Sys2Proof.Machine
end

section
/-! QCG, case by case (41_generators R110, R111). -/

namespace Sys2Proof.Machine

/-! ## The operands and results of a generator -/

theorem withSeed_of_unwritten {s : State} (h : s.seed = none) (f : Nat → Ending) : withSeed s f = .faults .seed := by
  rw [withSeed, h]

theorem withSeed_of_written {s : State} {seed : Word} (h : s.seed = some seed) (f : Nat → Ending) :
    withSeed s f = f seed.toNat := by
  rw [withSeed, h]

theorem lengthAdmitted_eq_false_iff (length : Nat) (s : State) :
    lengthAdmitted length s = false ↔ length = 0 ∨ s.params.lmax < length := by
  rw [← Bool.not_eq_true, lengthAdmitted_iff]
  omega

/-- Bit k of an emitted sequence, once written, is the parity of x_{k+1}. -/
theorem memory_get_write_emitBits_of_lt (m : Memory Bool) (step : Nat → Nat) {length k : Nat} (x : Nat) (h : k < length) :
    Memory.get? (Memory.write m 0 (emitBits step length x).1) k = some (decide (step^[k + 1] x % 2 = 1)) := by
  rw [memory_get_write_of_lt _ _ (by rwa [emitBits_length]), ← List.getElem?_eq_getElem, emitBits_getElem? step x h, lsb]

theorem memory_get_write_emitBits_of_ge (m : Memory Bool) (step : Nat → Nat) {length k : Nat} (x : Nat)
    (h : length ≤ k) :
    Memory.get? (Memory.write m 0 (emitBits step length x).1) k = Memory.get? m k :=
  memory_get_write_of_ge _ _ (by rwa [emitBits_length])

theorem setSequence_emitBits (s : State) (step : Nat → Nat) (length x : Nat) :
    s.setSequence (emitBits step length x).1 =
      { s with bbuf := Memory.write s.bbuf 0 (emitBits step length x).1, blen := BitVec.ofNat 32 length } := by
  rw [State.setSequence, emitBits_length]

/-! ## QCG -/

/-- The step of R110 with its constants written out. -/
theorem qStep_eq : qStep = fun x => (1664525 * x ^ 2 + 1 * x + 1013904223) % (2 ^ 32 - 1) := rfl

theorem exec_qcg (length : Nat) (s : State) : exec (.qcg length) s = finish (qcgBody length s) := rfl

theorem exec_qcg_of_length_rejected {length : Nat} {s : State} (h : length = 0 ∨ s.params.lmax < length) :
    exec (.qcg length) s = .next (s.failed 1) := by
  rw [exec_qcg, qcgBody, (lengthAdmitted_eq_false_iff length s).mpr h, if_pos Bool.not_false,
    finish_invalidParameter, raiseError_nothing_eq_failed]
  rfl

/-- Past its length checks QCG reads SEED. -/
theorem exec_qcg_of_length {length : Nat} {s : State} (pos : 1 ≤ length) (le : length ≤ s.params.lmax) :
    exec (.qcg length) s =
      finish (withSeed s fun seed => .completes false false (s.setSequence (emitBits qStep length seed).1)) := by
  rw [exec_qcg, qcgBody, (lengthAdmitted_iff length s).mpr ⟨pos, le⟩, if_neg (by decide)]

theorem exec_qcg_of_seed_unwritten {length : Nat} {s : State} (pos : 1 ≤ length) (le : length ≤ s.params.lmax)
    (h : s.seed = none) : exec (.qcg length) s = .fault (.unwrittenOperand .seed) := by
  rw [exec_qcg_of_length pos le, withSeed_of_unwritten h, finish_faults]

theorem exec_qcg_of_seed {length : Nat} {s : State} {seed : Word} (pos : 1 ≤ length) (le : length ≤ s.params.lmax)
    (h : s.seed = some seed) :
    exec (.qcg length) s = .next (State.completed
      { s with
        bbuf := Memory.write s.bbuf 0 (emitBits qStep length seed.toNat).1
        blen := BitVec.ofNat 32 length } false false) := by
  rw [exec_qcg_of_length pos le, withSeed_of_written h, finish_completes, completeCommand_eq_completed,
    setSequence_emitBits]

/-- Settles O28: each clause is one way QCG ends; the cells are those of the emitted bits written from cell 0. -/
theorem qcgResult : Obligations.QcgResult := by
  intro s length
  refine ⟨exec_qcg_of_length_rejected, fun pos le => ⟨exec_qcg_of_seed_unwritten pos le, fun seed h => ?_⟩⟩
  rw [← qStep_eq]
  exact ⟨_, exec_qcg_of_seed pos le h, fun _ => memory_get_write_emitBits_of_lt _ _ _,
    fun _ => memory_get_write_emitBits_of_ge _ _ _⟩

end Sys2Proof.Machine
end

section
/-! FREQ, RUNS and EXCUR, case by case (43_stat_tests R143 to R152). -/

namespace Sys2Proof.Machine

/-! ## Reading the sequence -/

/-- The converse of `memory_readRun_error`: an unwritten cell stops the read of a run it lies in. -/
theorem memory_readRun_of_unwritten {α : Type} {m : Memory α} {count : Nat}
    (h : ∃ i < count, Memory.get? m i = none) : ∃ i, Memory.readRun m 0 count = .error i := by
  obtain ⟨i, below, unwritten⟩ := h
  cases read : Memory.readRun m 0 count with
  | error j => exact ⟨j, rfl⟩
  | ok vs =>
    obtain ⟨length, cells⟩ := (memory_readRun_ok m 0 count vs).mp read
    have written : Memory.get? m i = some vs[i] := by simpa [length, below] using cells i below
    exact absurd (unwritten.symm.trans written) (by simp)

theorem memory_readRun_of_written {α : Type} {m : Memory α} {count : Nat} {vs : List α} (length : vs.length = count)
    (cells : ∀ k < count, Memory.get? m k = vs[k]?) : Memory.readRun m 0 count = .ok vs :=
  (memory_readRun_ok m 0 count vs).mpr ⟨length, by simpa using cells⟩

theorem withBits_of_unwritten {count : Nat} {s : State} (h : ∃ i < count, Memory.get? s.bbuf i = none)
    (f : List Bool → Ending) : ∃ i, withBits count s f = .faults (.bbuf i) := by
  obtain ⟨i, read⟩ := memory_readRun_of_unwritten h
  exact ⟨i, by rw [withBits, read]⟩

/-! ## The prologue (R143) -/

theorem exec_freq (s : State) : exec .freq s = finish (statBody freqTest s) := rfl

theorem exec_runs (s : State) : exec .runs s = finish (statBody runsTest s) := rfl

theorem exec_excur (s : State) : exec .excur s = finish (statBody excurTest s) := rfl

section
variable {test : List Bool → State → Ending} {s : State}

theorem finish_statBody_of_rejected (h : s.blen.toNat < 2 ∨ s.params.lmax < s.blen.toNat ∨ s.cfgConst = 0#32) :
    finish (statBody test s) = .next (State.failed { s with bank := Bank.unwritten } 1) := by
  have rejected : statBody test s = invalidParameter { s with bank := Bank.unwritten } := by
    simp only [statBody]
    split_ifs with short long zero
    · rfl
    · rfl
    · rfl
    · exact absurd h (by simp [short, long, zero])
  rw [rejected, finish_invalidParameter, raiseError_nothing_eq_failed]
  rfl

/-- Past its checks a STAT command reads the sequence. -/
theorem statBody_of_admitted (two : 2 ≤ s.blen.toNat) (le : s.blen.toNat ≤ s.params.lmax) (nonzero : s.cfgConst ≠ 0#32) :
    statBody test s =
      withBits s.blen.toNat { s with bank := Bank.unwritten } fun bits => test bits (statStart s) := by
  simp only [statBody]
  rw [if_neg two.not_gt, if_neg le.not_gt, if_neg nonzero]
  rfl

theorem finish_statBody_of_unwritten (two : 2 ≤ s.blen.toNat) (le : s.blen.toNat ≤ s.params.lmax)
    (nonzero : s.cfgConst ≠ 0#32) (h : ∃ i < s.blen.toNat, Memory.get? s.bbuf i = none) :
    ∃ o, finish (statBody test s) = .fault (.unwrittenOperand o) := by
  obtain ⟨i, fault⟩ := withBits_of_unwritten (s := { s with bank := Bank.unwritten }) h
    fun bits => test bits (statStart s)
  exact ⟨.bbuf i, by rw [statBody_of_admitted two le nonzero, fault, finish_faults]⟩

theorem finish_statBody_of_written {bits : List Bool} (two : 2 ≤ s.blen.toNat) (le : s.blen.toNat ≤ s.params.lmax)
    (nonzero : s.cfgConst ≠ 0#32) (length : bits.length = s.blen.toNat)
    (cells : ∀ k < s.blen.toNat, Memory.get? s.bbuf k = bits[k]?) :
    finish (statBody test s) = finish (test bits (statStart s)) :=
  statBody_runs two le nonzero (memory_readRun_of_written length cells)

/-- The bound of the configuration on LMAX, which keeps every count and statistic within its register (00_scope R7). -/
theorem length_le_of_admitted {n : Nat} (admitted : configAdmitted s.params = true) (le : n ≤ s.params.lmax) :
    n ≤ 2 ^ 20 := by
  simp only [configAdmitted, Bool.and_eq_true, decide_eq_true_eq] at admitted
  obtain ⟨⟨⟨⟨-, -, -, lmax⟩, -⟩, -⟩, -⟩ := admitted
  exact le.trans lmax

end

theorem toNat_ofNat_of_lt {w n : Nat} (h : n < 2 ^ w) : (BitVec.ofNat w n).toNat = n := by
  rw [BitVec.toNat_ofNat, Nat.mod_eq_of_lt h]

/-! ## The comparators (R142) -/

theorem leConst_eq_decide (c : Word) (num den2 : Nat) :
    leConst c num den2 = decide (num ^ 2 * 10 ^ 16 ≤ c.toNat ^ 2 * den2) := rfl

theorem ltConst_eq_true_iff (c : Word) (num : Int) (den2 : Nat) :
    ltConst c num den2 = true ↔ num ≤ 0 ∨ num.natAbs ^ 2 * 10 ^ 16 < c.toNat ^ 2 * den2 := by
  rw [ltConst, Bool.or_eq_true, decide_eq_true_iff, decide_eq_true_iff, Config.constScaleSq]

/-! ## FREQ (R144) -/

theorem onesCount_le (bits : List Bool) : onesCount bits ≤ bits.length := List.count_le_length

theorem freqSum_natAbs_le (bits : List Bool) : (freqSum bits).natAbs ≤ bits.length := by
  have := onesCount_le bits
  rw [freqSum]
  omega

theorem finish_freqTest (bits : List Bool) (s : State) :
    finish (freqTest bits (statStart s)) = .next (State.completed
      { s with bank :=
        { Bank.unwritten with
          n := some s.blen
          ones := some (BitVec.ofNat 32 (onesCount bits))
          num := some (BitVec.ofNat 64 (freqSum bits).natAbs)
          den2 := some (BitVec.ofNat 64 bits.length) } }
      (leConst s.cfgConst (freqSum bits).natAbs bits.length) true) := rfl

/-- Settles O45: each clause is one way FREQ ends; the counts fit their registers as none exceeds LMAX. -/
theorem freqResult : Obligations.FreqResult := by
  intro s admitted
  simp only [exec_freq]
  refine ⟨finish_statBody_of_rejected, fun two le nonzero => ⟨finish_statBody_of_unwritten two le nonzero, ?_⟩⟩
  rintro bits _ length cells rfl
  have bound : bits.length ≤ 2 ^ 20 := length_le_of_admitted admitted (length.trans_le le)
  have ones := onesCount_le bits
  have sum := freqSum_natAbs_le bits
  rw [finish_statBody_of_written two le nonzero length cells, ← length]
  exact ⟨_, _, _, finish_freqTest bits s, toNat_ofNat_of_lt (by omega), toNat_ofNat_of_lt (by omega),
    toNat_ofNat_of_lt (by omega)⟩

/-! ## RUNS (R145) -/

theorem transitions_eq_countP (bits : List Bool) :
    transitions bits = (List.range (bits.length - 1)).countP (fun k => bits[k]? != bits[k + 1]?) := by
  match bits with
  | [] => rfl
  | [_] => rfl
  | a :: b :: rest =>
    have later := transitions_eq_countP (b :: rest)
    simp only [List.length_cons, Nat.add_sub_cancel] at later ⊢
    rw [transitions, later, List.range_succ_eq_map, List.countP_cons, List.countP_map, Nat.add_comm]
    cases a <;> cases b <;> rfl

theorem transitions_le (bits : List Bool) : transitions bits ≤ bits.length - 1 := by
  rw [transitions_eq_countP]
  exact List.countP_le_length.trans_eq List.length_range

theorem runsCount_le {bits : List Bool} (pos : 1 ≤ bits.length) : runsCount bits ≤ bits.length := by
  have := transitions_le bits
  rw [runsCount]
  omega

theorem runsNum_lt {bits : List Bool} (pos : 1 ≤ bits.length) (bound : bits.length ≤ 2 ^ 20) :
    runsNum bits < 2 ^ 64 := by
  have apart : runsNum bits ≤
      bits.length * runsCount bits + 2 * onesCount bits * (bits.length - onesCount bits) := by
    simpa [runsNum, Int.natAbs_mul] using Int.natAbs_sub_le ((bits.length : Int) * runsCount bits)
      (2 * (onesCount bits : Int) * (bits.length - onesCount bits : Nat))
  have left : bits.length * runsCount bits ≤ 2 ^ 20 * 2 ^ 20 :=
    Nat.mul_le_mul bound ((runsCount_le pos).trans bound)
  have right : 2 * onesCount bits * (bits.length - onesCount bits) ≤ 2 * 2 ^ 20 * 2 ^ 20 :=
    Nat.mul_le_mul (Nat.mul_le_mul_left 2 ((onesCount_le bits).trans bound)) ((Nat.sub_le _ _).trans bound)
  omega

theorem runsDen2_lt {bits : List Bool} (bound : bits.length ≤ 2 ^ 20) : runsDen2 bits < 2 ^ 64 := by
  have den2 : runsDen2 bits ≤ 8 * 2 ^ 20 * 2 ^ 20 * 2 ^ 20 :=
    Nat.mul_le_mul (Nat.mul_le_mul (Nat.mul_le_mul_left 8 bound) ((onesCount_le bits).trans bound))
      ((Nat.sub_le _ _).trans bound)
  omega

/-- The bank RUNS leaves when the bits do not differ: the counts alone. -/
theorem finish_runsTest_of_degenerate {bits : List Bool}
    (h : onesCount bits = 0 ∨ bits.length - onesCount bits = 0) (s : State) :
    finish (runsTest bits (statStart s)) = .next (State.failed
      { s with bank :=
        { Bank.unwritten with
          n := some s.blen
          ones := some (BitVec.ofNat 32 (onesCount bits))
          vn := some (BitVec.ofNat 32 (runsCount bits)) } } 2) := by
  simp only [runsTest, if_pos h, finish_raises, raiseError_nothing_eq_failed]
  rfl

theorem finish_runsTest_of_both {bits : List Bool} (ones : onesCount bits ≠ 0)
    (zeros : bits.length - onesCount bits ≠ 0) (s : State) :
    finish (runsTest bits (statStart s)) = .next (State.completed
      { s with bank :=
        { Bank.unwritten with
          n := some s.blen
          ones := some (BitVec.ofNat 32 (onesCount bits))
          vn := some (BitVec.ofNat 32 (runsCount bits))
          num := some (BitVec.ofNat 64 (runsNum bits))
          den2 := some (BitVec.ofNat 64 (runsDen2 bits)) } }
      (leConst s.cfgConst (runsNum bits) (runsDen2 bits)) true) := by
  simp only [runsTest, if_neg (not_or.mpr ⟨ones, zeros⟩), finish_completes, completeCommand_eq_completed]
  rfl

/-- Settles O46: each clause is one way RUNS ends; V is one more than the number of neighbours that differ, and
8·len·o·z ≤ 2^63 fits T_DEN2. -/
theorem runsResult : Obligations.RunsResult := by
  intro s admitted
  simp only [exec_runs]
  refine ⟨finish_statBody_of_rejected, fun two le nonzero => ⟨finish_statBody_of_unwritten two le nonzero, ?_⟩⟩
  rintro bits _ _ _ _ _ length cells rfl rfl rfl rfl rfl
  have bound : bits.length ≤ 2 ^ 20 := length_le_of_admitted admitted (length.trans_le le)
  have pos : 1 ≤ bits.length := by omega
  have ones := onesCount_le bits
  have runs := runsCount_le pos
  rw [finish_statBody_of_written two le nonzero length cells, ← length, ← transitions_eq_countP]
  exact ⟨BitVec.ofNat 32 (onesCount bits), BitVec.ofNat 32 (runsCount bits), toNat_ofNat_of_lt (by omega),
    toNat_ofNat_of_lt (by omega), fun degenerate => finish_runsTest_of_degenerate degenerate s,
    fun someOnes someZeros => ⟨_, _, finish_runsTest_of_both someOnes someZeros s,
      toNat_ofNat_of_lt (runsNum_lt pos bound), toNat_ofNat_of_lt (runsDen2_lt bound)⟩⟩

/-! ## EXCUR: the walk and its visits (R146 to R148) -/

theorem walkFrom_eq_map (start : Int) (bits : List Bool) :
    walkFrom start bits = (List.range bits.length).map fun k =>
      start + (2 * ((bits.take (k + 1)).count true : Int) - ((k + 1 : Nat) : Int)) := by
  induction bits generalizing start with
  | nil => rfl
  | cons b rest ih =>
    rw [walkFrom, ih, List.length_cons, List.range_succ_eq_map, List.map_cons, List.map_map]
    congr 1
    · cases b <;> simp
    · refine List.map_congr_left fun k _ => ?_
      cases b <;> simp <;> ring

theorem visits_eq_countP (bits : List Bool) (j : Int) :
    visits bits j = (List.range bits.length).countP fun k =>
      decide (2 * ((bits.take (k + 1)).count true : Int) - ((k + 1 : Nat) : Int) = j) := by
  simp only [visits, walk, walkFrom_eq_map, List.count, List.countP_map, zero_add]
  rfl

theorem visits_le (bits : List Bool) (j : Int) : visits bits j ≤ bits.length := by
  rw [visits_eq_countP]
  exact List.countP_le_length.trans_eq List.length_range

theorem zeroReturns_le (closing : Bool) (bits : List Bool) : zeroReturns closing bits ≤ bits.length + 1 :=
  Nat.add_le_add (visits_le bits 0) (Bool.toNat_le closing)

/-! ## EXCUR: the 18 states (10_state R37) -/

/-- The state of index `i`; `excursionStates_eq_map` ties it to the model's list. -/
def excursionState (i : Nat) : Int :=
  if i < 9 then (i : Int) - 9 else (i : Int) - 8

theorem excursionStates_eq_map : excursionStates = (List.range 18).map excursionState := by decide

theorem excursionState_natAbs_le {i : Nat} (h : i < 18) : (excursionState i).natAbs ≤ 9 := by
  rw [excursionState]
  split <;> omega

theorem forStates_getElem {α : Type} (f : Int → α) (i : Nat) (h : i < 18) : (forStates f)[i] = f (excursionState i) := by
  simp [forStates, excursionStates_eq_map]

theorem excursionPass_eq_decide (c : Word) (bits : List Bool) (l : Nat) :
    excursionPass c bits l = decide (∀ i < 18, (visits bits (excursionState i) : Int) - l ≤ 0 ∨
      ((visits bits (excursionState i) : Int) - l).natAbs ^ 2 * 10 ^ 16
        < c.toNat ^ 2 * (2 * l * (4 * (excursionState i).natAbs - 2))) := by
  rw [Bool.eq_iff_iff, decide_eq_true_iff, excursionPass, excursionStates_eq_map, List.all_map, List.all_eq_true]
  simp only [List.mem_range, Function.comp_apply, ltConst_eq_true_iff, excursionNum, excursionDen2]

/-! ## EXCUR: the statistics and the outcome (R149, R152) -/

theorem excursionNum_toInt {bits : List Bool} {l : Nat} (bound : bits.length ≤ 2 ^ 20) (le : l ≤ bits.length + 1)
    (j : Int) : (BitVec.ofInt 32 (excursionNum bits l j)).toInt = excursionNum bits l j := by
  have := visits_le bits j
  rw [BitVec.toInt_ofInt, excursionNum]
  exact Int.bmod_eq_of_le (by omega) (by omega)

theorem excursionDen2_lt {l : Nat} {j : Int} (le : l ≤ 2 ^ 20 + 1) (h : j.natAbs ≤ 9) :
    excursionDen2 l j < 2 ^ 32 := by
  have den2 : excursionDen2 l j ≤ 2 * (2 ^ 20 + 1) * 34 :=
    Nat.mul_le_mul (Nat.mul_le_mul_left 2 le) (by omega)
  omega

/-- The bank EXCUR leaves when the walk never returns to 0: the counts alone. -/
theorem finish_excurTest_of_degenerate {bits : List Bool} {s : State}
    (h : zeroReturns s.params.excLClosing bits = 0) :
    finish (excurTest bits (statStart s)) = .next (State.failed
      { s with bank :=
        { Bank.unwritten with
          n := some s.blen
          l := some (BitVec.ofNat 32 (zeroReturns s.params.excLClosing bits))
          theta := some (forStates fun j => BitVec.ofNat 32 (visits bits j)) } } 2) := by
  have h' : zeroReturns (statStart s).params.excLClosing bits = 0 := h
  simp only [excurTest, if_pos h', finish_raises, raiseError_nothing_eq_failed]
  rfl

theorem finish_excurTest_of_returns {bits : List Bool} {s : State}
    (h : zeroReturns s.params.excLClosing bits ≠ 0) :
    finish (excurTest bits (statStart s)) = .next (State.completed
      { s with bank :=
        { Bank.unwritten with
          n := some s.blen
          l := some (BitVec.ofNat 32 (zeroReturns s.params.excLClosing bits))
          theta := some (forStates fun j => BitVec.ofNat 32 (visits bits j))
          numj := some (forStates fun j =>
            BitVec.ofInt 32 (excursionNum bits (zeroReturns s.params.excLClosing bits) j))
          den2j := some (forStates fun j =>
            BitVec.ofNat 32 (excursionDen2 (zeroReturns s.params.excLClosing bits) j)) } }
      (excursionPass s.cfgConst bits (zeroReturns s.params.excLClosing bits)) true) := by
  have h' : zeroReturns (statStart s).params.excLClosing bits ≠ 0 := h
  simp only [excurTest, if_neg h', finish_completes, completeCommand_eq_completed]
  rfl

/-- Settles O47: each clause is one way EXCUR ends; the statement's walk and visits are the model's, and with
L ≤ 2^20 + 1 every statistic fits its register. -/
theorem excurResult : Obligations.ExcurResult := by
  intro s admitted
  simp only [exec_excur]
  refine ⟨finish_statBody_of_rejected, fun two le nonzero => ⟨finish_statBody_of_unwritten two le nonzero, ?_⟩⟩
  rintro bits _ visitsOf state l length cells rfl hVisits hState hL
  have bound : bits.length ≤ 2 ^ 20 := length_le_of_admitted admitted (length.trans_le le)
  obtain rfl : visitsOf = visits bits := by
    rw [hVisits, ← length]
    exact funext fun j => (visits_eq_countP bits j).symm
  obtain rfl : state = excursionState := hState
  obtain rfl : l = zeroReturns s.params.excLClosing bits := by
    rw [hL, zeroReturns]
    cases s.params.excLClosing <;> rfl
  have returns := zeroReturns_le s.params.excLClosing bits
  rw [finish_statBody_of_written two le nonzero length cells, ← excursionPass_eq_decide]
  refine ⟨_, _, toNat_ofNat_of_lt (by omega), fun i hi => ?_, finish_excurTest_of_degenerate, fun nonzero =>
    ⟨_, _, finish_excurTest_of_returns nonzero, fun i hi => ⟨?_, ?_⟩⟩⟩
  · have := visits_le bits (excursionState i)
    rw [forStates_getElem]
    exact toNat_ofNat_of_lt (by omega)
  · rw [forStates_getElem]
    exact excursionNum_toInt bound returns _
  · rw [forStates_getElem]
    exact toNat_ofNat_of_lt (excursionDen2_lt (by omega) (excursionState_natAbs_le hi))

end Sys2Proof.Machine
end

section
/-! PACK and UNPACK, case by case (44_packing R160, R161). -/

namespace Sys2Proof.Machine

/-! ## Reading the operand buffers -/

theorem memory_readRun_of_all_written {α : Type} {m : Memory α} {count : Nat}
    (h : ∀ i < count, Memory.get? m i ≠ none) : ∃ vs, Memory.readRun m 0 count = .ok vs := by
  cases read : Memory.readRun m 0 count with
  | ok vs => exact ⟨vs, rfl⟩
  | error i =>
    obtain ⟨-, below, unwritten, -⟩ := memory_readRun_error read
    exact absurd unwritten (h i (by omega))

theorem memory_get_of_readRun {α : Type} {m : Memory α} {count : Nat} {vs : List α}
    (read : Memory.readRun m 0 count = .ok vs) {k : Nat} (h : k < count) : Memory.get? m k = vs[k]? := by
  simpa using ((memory_readRun_ok m 0 count vs).mp read).2 k h

theorem withBits_of_read {count : Nat} {s : State} {bits : List Bool} (read : Memory.readRun s.bbuf 0 count = .ok bits)
    (f : List Bool → Ending) : withBits count s f = f bits := by
  rw [withBits, read]

theorem withBytes_of_read {count : Nat} {s : State} {bytes : List Byte}
    (read : Memory.readRun s.pbuf 0 count = .ok bytes) (f : List Byte → Ending) : withBytes count s f = f bytes := by
  rw [withBytes, read]

theorem withBytes_of_unwritten {count : Nat} {s : State} (h : ∃ i < count, Memory.get? s.pbuf i = none)
    (f : List Byte → Ending) : ∃ i, withBytes count s f = .faults (.pbuf i) := by
  obtain ⟨i, read⟩ := memory_readRun_of_unwritten h
  exact ⟨i, by rw [withBytes, read]⟩

/-! ## The order of the bits -/

/-- Bit 7 of a byte is the first of its eight. -/
theorem bitsOfNat_byte_getElem? (b : Byte) {t : Nat} (h : t < 8) :
    (bitsOfNat 8 b.toNat)[t]? = some (b.getLsbD (7 - t)) := by
  have inside : t < (bitsOfNat 8 b.toNat).length := by simpa using h
  rw [List.getElem?_eq_getElem inside, bitsOfNat_getElem, BitVec.testBit_toNat]

/-- Bit 8·j + t of the sequence is bit 7 - t of byte j, where there is such a byte. -/
theorem unpackBytes_getElem? (bytes : List Byte) (j : Nat) {t : Nat} (h : t < 8) :
    (unpackBytes bytes)[8 * j + t]? = bytes[j]?.map (·.getLsbD (7 - t)) := by
  induction bytes generalizing j with
  | nil => rfl
  | cons b rest ih =>
    rw [unpackBytes_cons]
    cases j with
    | zero =>
      rw [Nat.mul_zero, Nat.zero_add, List.getElem?_append_left (by simpa using h), bitsOfNat_byte_getElem? b h]
      rfl
    | succ j =>
      have later : 8 * (j + 1) + t - (bitsOfNat 8 b.toNat).length = 8 * j + t := by
        rw [bitsOfNat_length]
        omega
      rw [List.getElem?_append_right (by simp; omega), later, ih, List.getElem?_cons_succ]

theorem unpackBytes_getElem?_of_lt {bytes : List Byte} {j t : Nat} (byte : j < bytes.length) (bit : t < 8) :
    (unpackBytes bytes)[8 * j + t]? = some (bytes[j].getLsbD (7 - t)) := by
  rw [unpackBytes_getElem? bytes j bit, List.getElem?_eq_getElem byte, Option.map_some]

/-- What PACK makes of a sequence of whole bytes unpacks to that sequence. -/
theorem unpackBytes_packBits_of_length {count : Nat} {bits : List Bool} (length : bits.length = 8 * count) :
    unpackBytes (packBits count bits) = bits := by
  rw [unpackBytes_packBits count bits length.ge, ← length, List.take_length]

/-! ## PACK -/

theorem exec_pack (s : State) : exec .pack s = finish (packBody s) := rfl

theorem exec_pack_of_length_rejected {s : State} (h : s.params.lmax < s.blen.toNat) :
    exec .pack s = .next (s.failed 1) := by
  rw [exec_pack, packBody, if_pos h, finish_invalidParameter, raiseError_nothing_eq_failed]
  rfl

/-- Past its check PACK reads the bits of the whole bytes. -/
theorem exec_pack_of_length {s : State} (le : s.blen.toNat ≤ s.params.lmax) :
    exec .pack s = finish (withBits (8 * (s.blen.toNat / 8)) s fun bits =>
      .completes false false (s.setBytes (packBits (s.blen.toNat / 8) bits))) := by
  rw [exec_pack, packBody, if_neg le.not_gt]

theorem exec_pack_of_unwritten {s : State} (le : s.blen.toNat ≤ s.params.lmax)
    (h : ∃ i < 8 * (s.blen.toNat / 8), Memory.get? s.bbuf i = none) :
    ∃ o, exec .pack s = .fault (.unwrittenOperand o) := by
  rw [exec_pack_of_length le]
  obtain ⟨i, fault⟩ := withBits_of_unwritten h _
  exact ⟨.bbuf i, by rw [fault, finish_faults]⟩

theorem exec_pack_of_read {s : State} {bits : List Bool} (le : s.blen.toNat ≤ s.params.lmax)
    (read : Memory.readRun s.bbuf 0 (8 * (s.blen.toNat / 8)) = .ok bits) :
    exec .pack s = .next (State.completed
      { s with
        pbuf := Memory.write s.pbuf 0 (packBits (s.blen.toNat / 8) bits)
        plen := BitVec.ofNat 32 (s.blen.toNat / 8) } false false) := by
  rw [exec_pack_of_length le, withBits_of_read read, finish_completes, completeCommand_eq_completed, State.setBytes,
    packBits_length]

/-- Settles O50: each clause is one way PACK ends; the bytes it stores unpack to the bits it read. -/
theorem packResult : Obligations.PackResult := by
  intro s
  refine ⟨exec_pack_of_length_rejected, fun le => ⟨exec_pack_of_unwritten le, fun written => ?_⟩⟩
  obtain ⟨bits, read⟩ := memory_readRun_of_all_written written
  have unpacked : unpackBytes (packBits (s.blen.toNat / 8) bits) = bits :=
    unpackBytes_packBits_of_length (memory_readRun_length read)
  refine ⟨_, exec_pack_of_read le read, fun j hj => ?_, fun j hj => memory_get_write_of_ge _ _ (by simpa using hj)⟩
  have stored : j < (packBits (s.blen.toNat / 8) bits).length := by simpa using hj
  refine ⟨_, memory_get_write_of_lt _ _ stored, fun t ht => ?_⟩
  rw [memory_get_of_readRun read (by omega), ← unpackBytes_getElem?_of_lt stored ht, unpacked]

/-! ## UNPACK -/

theorem exec_unpack (s : State) : exec .unpack s = finish (unpackBody s) := rfl

theorem exec_unpack_of_length_rejected {s : State} (h : s.params.lmax / 8 < s.plen.toNat) :
    exec .unpack s = .next (s.failed 1) := by
  rw [exec_unpack, unpackBody, pbufCapacity, if_pos h, finish_invalidParameter, raiseError_nothing_eq_failed]
  rfl

/-- Past its check UNPACK reads the bytes. -/
theorem exec_unpack_of_length {s : State} (le : s.plen.toNat ≤ s.params.lmax / 8) :
    exec .unpack s = finish (withBytes s.plen.toNat s fun bytes =>
      .completes false false (s.setSequence (unpackBytes bytes))) := by
  rw [exec_unpack, unpackBody, pbufCapacity, if_neg le.not_gt]

theorem exec_unpack_of_unwritten {s : State} (le : s.plen.toNat ≤ s.params.lmax / 8)
    (h : ∃ i < s.plen.toNat, Memory.get? s.pbuf i = none) :
    ∃ o, exec .unpack s = .fault (.unwrittenOperand o) := by
  rw [exec_unpack_of_length le]
  obtain ⟨i, fault⟩ := withBytes_of_unwritten h _
  exact ⟨.pbuf i, by rw [fault, finish_faults]⟩

theorem exec_unpack_of_read {s : State} {bytes : List Byte} (le : s.plen.toNat ≤ s.params.lmax / 8)
    (read : Memory.readRun s.pbuf 0 s.plen.toNat = .ok bytes) :
    exec .unpack s = .next (State.completed
      { s with
        bbuf := Memory.write s.bbuf 0 (unpackBytes bytes)
        blen := BitVec.ofNat 32 (8 * s.plen.toNat) } false false) := by
  rw [exec_unpack_of_length le, withBytes_of_read read, finish_completes, completeCommand_eq_completed,
    State.setSequence, unpackBytes_length, memory_readRun_length read]

/-- Settles O51: each clause is one way UNPACK ends; the cells are those of the unpacked bytes written from cell 0. -/
theorem unpackResult : Obligations.UnpackResult := by
  intro s
  refine ⟨exec_unpack_of_length_rejected, fun le => ⟨exec_unpack_of_unwritten le, fun written => ?_⟩⟩
  obtain ⟨bytes, read⟩ := memory_readRun_of_all_written written
  have length : bytes.length = s.plen.toNat := memory_readRun_length read
  refine ⟨_, exec_unpack_of_read le read, fun j hj => ?_,
    fun k hk => memory_get_write_of_ge _ _ (by simpa [length] using hk)⟩
  have inside : j < bytes.length := by omega
  refine ⟨bytes[j], by rw [memory_get_of_readRun read hj, List.getElem?_eq_getElem inside], fun t ht => ?_⟩
  have stored : 8 * j + t < (unpackBytes bytes).length := by rw [unpackBytes_length]; omega
  rw [memory_get_write_of_lt _ _ stored, ← List.getElem?_eq_getElem stored, unpackBytes_getElem?_of_lt inside ht]

end Sys2Proof.Machine
end

section
/-! Encoding and decoding command words (30_encoding R70 to R73). -/

namespace Sys2Proof

/-- The fields of every command's word, gathered from the per-command family. -/
theorem encoding_statement (i : Instr) : Laws.Encoding.Statement i := by
  cases i with
  | modexp => exact Laws.Encoding.modexp
  | mrtest => exact Laws.Encoding.mrtest
  | genprime bits => exact Laws.Encoding.genprime bits
  | genprime3 bits => exact Laws.Encoding.genprime3 bits
  | qcg length => exact Laws.Encoding.qcg length
  | bbs length => exact Laws.Encoding.bbs length
  | yinit => exact Laws.Encoding.yinit
  | ygen length => exact Laws.Encoding.ygen length
  | ydrop => exact Laws.Encoding.ydrop
  | freq => exact Laws.Encoding.freq
  | runs => exact Laws.Encoding.runs
  | excur => exact Laws.Encoding.excur
  | pack => exact Laws.Encoding.pack
  | unpack => exact Laws.Encoding.unpack

/-- The converse of `fields_of_decode_eq_ok`: the two fields decide what the decoder returns. -/
theorem decode_of_fields {w : Word} {i : Instr} (opcode : opcodeField w = i.opcode) (imm : imm24Field w = i.imm.getD 0) :
    decode w = .ok i := by
  unfold decode
  rw [opcode, imm]
  cases i <;> rfl

theorem decode_encode {i : Instr} (h : i.wellFormed = true) : decode (encode i) = .ok i := by
  obtain ⟨opcode, imm⟩ := encoding_statement i h
  exact decode_of_fields opcode imm

/-- Settles O1: the encoded word has the fields of its command, and the fields decide the decoder. -/
theorem decodeOfEncode : Obligations.DecodeOfEncode := fun _ => decode_encode

/-- A word is its two fields put together again. -/
theorem word_of_fields (w : Word) : BitVec.ofNat 32 (imm24Field w * 256 + opcodeField w) = w := by
  rw [imm24Field, opcodeField, Nat.div_add_mod', BitVec.ofNat_toNat, BitVec.setWidth_eq]

theorem imm24Field_lt (w : Word) : imm24Field w < 2 ^ 24 := by
  have := w.isLt
  unfold imm24Field
  omega

/-- Settles O2: a decoded command has both fields of its word, and the two fields are all of it. -/
theorem encodeOfDecode : Obligations.EncodeOfDecode := by
  intro w i h
  obtain ⟨opcode, imm⟩ := fields_of_decode_eq_ok h
  refine ⟨?_, by rw [encode, ← opcode, ← imm, word_of_fields]⟩
  unfold Instr.wellFormed
  cases hi : i.imm with
  | none => rfl
  | some v =>
    rw [hi, Option.getD_some] at imm
    simpa [← imm] using imm24Field_lt w

/-- Settles O3: on a literal word the decoder computes. -/
theorem sampleWordsDecode : Obligations.SampleWordsDecode :=
  ⟨rfl, rfl, rfl, rfl, rfl, rfl, rfl, rfl, rfl, rfl, rfl, rfl, rfl, rfl⟩

end Sys2Proof
end

section
/-! What every step keeps (10_state R22, R23, R31 to R34; 60_exceptions R170 to R174): how a command ends, said once for all
commands, and the invariant of the block. -/

namespace Sys2Proof.Machine

/-! ## What a state stores -/

/-- A live handle: thresholds at least 1, countdowns no larger, a counter of CW bits (10_state R34; 42_yarrow R126). -/
def Handle.Live (p : Params) (h : Handle) : Prop :=
  1 ≤ h.pg.toNat ∧ 1 ≤ h.pt.toNat ∧ h.pgRem.toNat ≤ h.pg.toNat ∧ h.ptRem.toNat ≤ h.pt.toNat ∧ h.ctr < 2 ^ p.cw

/-- The part of the invariant that does not speak of STATUS: what a command may write before it ends. -/
def State.Stored (s : State) : Prop :=
  configAdmitted s.params = true ∧ s.cellsOk = true ∧ s.errlog &&& 0xFFFFFFF1#32 = 0#32 ∧
    ∀ h, s.handle = some h → h.Live s.params

/-- The result bank holds a statistic, single or of the 18 states (10_state R36). -/
def Bank.HasStatistic (b : Bank) : Prop :=
  b.n.isSome = true ∧
    ((b.num.isSome = true ∧ b.den2.isSome = true) ∨ (b.theta.isSome = true ∧ b.numj.isSome = true ∧ b.den2j.isSome = true))

theorem handleOk_iff (s : State) :
    s.handleOk = true ↔ s.status.yvalid = s.yValid ∧ ∀ h, s.handle = some h → h.Live s.params := by
  unfold State.handleOk Handle.Live
  cases s.handle <;> simp

theorem bankOk_iff (s : State) : s.bankOk = true ↔ (s.status.rvalid = true → s.bank.HasStatistic) := by
  unfold State.bankOk Bank.HasStatistic
  cases s.status.rvalid <;> simp [and_assoc]

/-- The invariant is what the state stores, and STATUS in agreement with it. -/
theorem inv_iff (s : State) :
    s.Inv ↔ s.Stored ∧ s.status.err.toNat ≤ 3 ∧ s.status.yvalid = s.yValid ∧ s.flagsOk = true ∧
      (s.status.rvalid = true → s.bank.HasStatistic) := by
  unfold State.Inv State.Stored State.errorsOk
  rw [handleOk_iff, bankOk_iff, Bool.and_eq_true, decide_eq_true_eq, decide_eq_true_eq]
  tauto

/-- Every buffer and bignum register is canonical and within its capacity, register by register. -/
theorem cellsOk_iff (s : State) :
    s.cellsOk = true ↔
      (Memory.wf s.bbuf = true ∧ Memory.within s.params.lmax s.bbuf = true) ∧
      (Memory.wf s.pbuf = true ∧ Memory.within (pbufCapacity s.params) s.pbuf = true) ∧
      ∀ reg, Memory.wf (s.bn.get reg) = true ∧ Memory.within (limbCount s.params) (s.bn.get reg) = true := by
  have all : (∀ reg ∈ [Bn.a, .e, .n, .r, .p, .q, .nmod, .x],
      Memory.wf (s.bn.get reg) = true ∧ Memory.within (limbCount s.params) (s.bn.get reg) = true) ↔
      ∀ reg, Memory.wf (s.bn.get reg) = true ∧ Memory.within (limbCount s.params) (s.bn.get reg) = true :=
    ⟨fun h reg => h reg (by cases reg <;> simp), fun h reg _ => h reg⟩
  rw [← all]
  simp only [State.cellsOk, Bool.and_eq_true, List.all_eq_true]
  tauto

/-! ## What each write keeps of it -/

theorem stored_setBbuf {s : State} {start : Nat} {bits : List Bool} (h : s.Stored)
    (le : start + bits.length ≤ s.params.lmax) : State.Stored { s with bbuf := Memory.write s.bbuf start bits } := by
  obtain ⟨admitted, cells, errlog, handle⟩ := h
  obtain ⟨⟨wf, within⟩, rest⟩ := (cellsOk_iff s).mp cells
  exact ⟨admitted, (cellsOk_iff _).mpr ⟨⟨memory_wf_write wf _ _, memory_within_write within le⟩, rest⟩, errlog, handle⟩

theorem stored_setPbuf {s : State} {start : Nat} {bytes : List Byte} (h : s.Stored)
    (le : start + bytes.length ≤ pbufCapacity s.params) :
    State.Stored { s with pbuf := Memory.write s.pbuf start bytes } := by
  obtain ⟨admitted, cells, errlog, handle⟩ := h
  obtain ⟨bbuf, ⟨wf, within⟩, rest⟩ := (cellsOk_iff s).mp cells
  exact ⟨admitted, (cellsOk_iff _).mpr ⟨bbuf, ⟨memory_wf_write wf _ _, memory_within_write within le⟩, rest⟩, errlog, handle⟩

theorem stored_bn {s : State} (h : s.Stored) (reg : Bn) :
    Memory.wf (s.bn.get reg) = true ∧ Memory.within (limbCount s.params) (s.bn.get reg) = true := by
  obtain ⟨-, cells, -, -⟩ := h
  exact ((cellsOk_iff s).mp cells).2.2 reg

theorem stored_setBnBank {s : State} {bn : BnBank} (h : s.Stored)
    (cells : ∀ reg, Memory.wf (bn.get reg) = true ∧ Memory.within (limbCount s.params) (bn.get reg) = true) :
    State.Stored { s with bn := bn } := by
  obtain ⟨admitted, old, errlog, handle⟩ := h
  obtain ⟨bbuf, pbuf, -⟩ := (cellsOk_iff s).mp old
  exact ⟨admitted, (cellsOk_iff _).mpr ⟨bbuf, pbuf, cells⟩, errlog, handle⟩

theorem stored_setBnReg {s : State} {reg : Bn} {m : Memory Word} (h : s.Stored) (wf : Memory.wf m = true)
    (within : Memory.within (limbCount s.params) m = true) : State.Stored { s with bn := s.bn.set reg m } := by
  refine stored_setBnBank h fun other => ?_
  by_cases same : other = reg
  · subst same; rw [bnBank_get_set]; exact ⟨wf, within⟩
  · rw [bnBank_get_set_ne _ same]; exact stored_bn h other

theorem bnCells_ok (p : Params) (v : Nat) :
    Memory.wf (bnCells p v) = true ∧ Memory.within (limbCount p) (bnCells p v) = true :=
  ⟨memory_wf_cells _ _, memory_within_cells _ (by simp)⟩

theorem stored_setBn {s : State} (h : s.Stored) (reg : Bn) (v : Nat) : (s.setBn reg v).Stored := by
  obtain ⟨wf, within⟩ := bnCells_ok s.params v
  exact stored_setBnReg h wf within

theorem stored_setBbsResults {s : State} (h : s.Stored) (p q nmod x : Nat) : (s.setBbsResults p q nmod x).Stored := by
  refine stored_setBnBank h fun reg => ?_
  have old := stored_bn h reg
  cases reg with
  | a | e | n | r => exact old
  | p | q | nmod | x => exact bnCells_ok _ _

theorem stored_setSequence {s : State} {bits : List Bool} (h : s.Stored) (le : bits.length ≤ s.params.lmax) :
    (s.setSequence bits).Stored :=
  stored_setBbuf (start := 0) h (by omega)

theorem stored_setBytes {s : State} {bytes : List Byte} (h : s.Stored) (le : bytes.length ≤ pbufCapacity s.params) :
    (s.setBytes bytes).Stored :=
  stored_setPbuf (start := 0) h (by omega)

theorem stored_setHandle {s : State} {hd : Handle} (h : s.Stored) (live : hd.Live s.params) :
    State.Stored { s with handle := some hd } := by
  obtain ⟨admitted, cells, errlog, -⟩ := h
  exact ⟨admitted, cells, errlog, fun hd' e => by cases e; exact live⟩

theorem stored_dropHandle {s : State} (h : s.Stored) : State.Stored { s with handle := none } := by
  obtain ⟨admitted, cells, errlog, -⟩ := h
  exact ⟨admitted, cells, errlog, nofun⟩

theorem stored_dropResults {s : State} (h : s.Stored) (d : Results) : (dropResults d s).Stored := by
  cases d with
  | nothing => exact h
  | prime => exact stored_setBnReg h rfl rfl
  | bbs =>
    obtain ⟨admitted, cells, errlog, handle⟩ := id h
    obtain ⟨-, pbuf, -⟩ := (cellsOk_iff s).mp cells
    refine ⟨admitted, (cellsOk_iff _).mpr ⟨⟨rfl, rfl⟩, pbuf, fun reg => ?_⟩, errlog, handle⟩
    have old := stored_bn h reg
    cases reg with
    | a | e | n | r => exact old
    | p | q | nmod | x => exact ⟨rfl, rfl⟩

theorem handle_of_stored {s : State} {hd : Handle} (h : s.Stored) (e : s.handle = some hd) : hd.Live s.params := by
  obtain ⟨-, -, -, handle⟩ := h
  exact handle hd e

/-! ## The handle a run of block requests leaves (42_yarrow R122 to R126) -/

/-- A countdown that is reloaded at 0 and then counts down stays at most its threshold. -/
theorem countdown_le {rem limit : Word} (pos : 1 ≤ limit.toNat) (le : rem.toNat ≤ limit.toNat) :
    ((if rem = 0#32 then limit else rem) - 1#32).toNat ≤ limit.toNat := by
  split
  · bv_omega
  · bv_omega

theorem blockRequest_live {p : Params} {h h' : Handle} {x y : Ports} {b : Nat} (live : h.Live p)
    (e : blockRequest p h x = .yields (b, h') y) : h'.Live p := by
  obtain ⟨pg, pt, pgRem, ptRem, ctr, -⟩ := blockRequest_yields e
  obtain ⟨pg1, pt1, pgLe, ptLe, -⟩ := live
  refine ⟨pg ▸ pg1, pt ▸ pt1, ?_, ?_, ?_⟩
  · rw [pgRem, pg]; exact countdown_le pg1 pgLe
  · rw [ptRem, pt]; exact countdown_le pt1 ptLe
  · rw [ctr]; exact Nat.mod_lt _ (Nat.two_pow_pos _)

theorem blockRequests_live {p : Params} {n : Nat} {h h' : Handle} {x y : Ports} {blocks : List Nat} (live : h.Live p)
    (e : blockRequests p n h x = .yields (blocks, h') y) : h'.Live p := by
  induction n generalizing h x blocks with
  | zero => cases e; exact live
  | succ k ih =>
    rw [blockRequests, andThen_eq_yields] at e
    obtain ⟨⟨b, h1⟩, x1, e1, e⟩ := e
    rw [andThen_eq_yields] at e
    obtain ⟨⟨bs, h2⟩, x2, e2, e⟩ := e
    cases e
    exact ih (blockRequest_live live e1) e2

theorem blk_pos_of_admitted {p : Params} (h : configAdmitted p = true) : 1 ≤ p.blk := by
  simp only [configAdmitted, Bool.and_eq_true, decide_eq_true_eq] at h
  obtain ⟨⟨⟨-, -, -, -, blk, -, -⟩, -⟩, -⟩ := h
  exact blk

/-- The loop of YGEN, with the bound it is called with, never raises: it is made of block requests. -/
theorem ygenLoop_ne_exhausted (p : Params) (bound need : Nat) (h : Handle) (x y : Ports) :
    ygenLoop p bound need h x ≠ .exhausted y := by
  induction bound generalizing need h x with
  | zero => simp [ygenLoop]
  | succ b ih =>
    unfold ygenLoop
    split
    · simp
    · intro e
      rw [andThen_eq_exhausted] at e
      rcases e with e | ⟨out, z, -, e⟩
      · exact blockRequest_not_exhausted _ _ _ _ e
      · rw [andThen_eq_exhausted] at e
        rcases e with e | ⟨rest, u, -, e⟩
        · exact ih _ _ _ e
        · cases e

/-! ## How a command ends -/

/-- The commands that may write the handle (10_state R34). -/
def WritesHandle (i : Instr) : Prop :=
  i = .yinit ∨ (∃ n, i = .ygen n) ∨ i = .ydrop

/-- Which errors a command may raise in a state, and what an exhausted search has drawn by then
(60_exceptions R170 to R174). -/
def MayRaise (i : Instr) (s : State) (x : Ports) : ErrCode → Prop
  | .invalidParameter => i ≠ .ydrop
  | .degenerateInput => i = .runs ∨ (i = .excur ∧ s.params.excLClosing = false)
  | .primeSearchExhausted =>
    s.cfgRetry ≠ 0#32 ∧ (∃ n, i = .genprime n ∨ i = .genprime3 n ∨ i = .bbs n) ∧
      Ports.Candidates s.ext x s.cfgRetry.toNat
  | .arithmeticDomainError => False

/-- What a command, started in `s`, has written by the time it ends in `u`: nothing of the configuration, ERRLOG and the
wait, and nothing that what a state stores forbids. -/
structure Written (s u : State) : Prop where
  params : u.params = s.params
  errlog : u.errlog = s.errlog
  waiting : u.waiting = s.waiting
  stored : s.Stored → u.Stored

/-- The ways a command that ends in a next state does so (30_encoding R78, 60_exceptions R178, 70_reset_and_hazards R196). -/
inductive Ends (i : Instr) (s : State) : State → Prop
  | completes (verdict rvalid : Bool) {u : State} (written : Written s u)
      (handle : WritesHandle i ∨ u.handle = s.handle) (bank : rvalid = true → u.bank.HasStatistic) :
      Ends i s (completeCommand verdict rvalid u)
  | raises (e : ErrCode) (d : Results) {u : State} (written : Written s u) (handle : u.handle = s.handle)
      (may : MayRaise i s u.ext e) : Ends i s (raiseError e d u)
  | hangs (x : Ports) : Ends i s (hang x s)

theorem written_refl (s : State) : Written s s :=
  ⟨rfl, rfl, rfl, id⟩

/-- The draws of a command alone. -/
theorem written_ext (s : State) (x : Ports) : Written s { s with ext := x } :=
  ⟨rfl, rfl, rfl, id⟩

/-- The result bank of a STAT command. -/
theorem written_bank (s : State) (b : Bank) : Written s { s with bank := b } :=
  ⟨rfl, rfl, rfl, id⟩

theorem ends_of_invalidParameter {i : Instr} (h : i ≠ .ydrop) (s : State) :
    Ends i s (raiseError .invalidParameter .nothing s) :=
  .raises _ _ (written_refl s) rfl h

theorem ends_modexp {s t : State} (h : exec .modexp s = .next t) : Ends .modexp s t := by
  rcases execModexp_next h with ⟨-, rfl⟩ | ⟨n, a, e, -, -, -, -, rfl⟩
  · exact ends_of_invalidParameter (by nofun) s
  · exact .completes _ _ ⟨rfl, rfl, rfl, fun st => stored_setBn st .r _⟩ (.inr rfl) nofun

theorem ends_mrtest {s t : State} (h : exec .mrtest s = .next t) : Ends .mrtest s t := by
  rcases execMrtest_next h with rfl | ⟨n, -, -, -, -, ⟨v, x, -, rfl⟩ | ⟨x, -, rfl⟩⟩
  · exact ends_of_invalidParameter (by nofun) s
  · exact .completes _ _ (written_ext s x) (.inr rfl) nofun
  · exact .hangs x

/-- GENPRIME and GENPRIME3 end alike; an exhausted search has drawn CFG_RETRY candidates. -/
theorem ends_of_genprimeBody {i : Instr} {need3 : Bool} {bits : Nat} {s t : State}
    (genprime : i = .genprime bits ∨ i = .genprime3 bits) (h : finish (genprimeBody need3 bits s) = .next t) :
    Ends i s t := by
  have nodrop : i ≠ .ydrop := by rcases genprime with rfl | rfl <;> nofun
  rcases genprimeBody_next h with rfl | ⟨-, -, -, ⟨p, k, x, -, rfl⟩ | ⟨x, search, rfl⟩ | ⟨x, -, rfl⟩⟩
  · exact ends_of_invalidParameter nodrop s
  · exact .completes _ _ ⟨rfl, rfl, rfl, fun st => stored_setBn (s := { s with ext := x }) st .r p⟩ (.inr rfl) nofun
  · have retry : s.cfgRetry ≠ 0#32 := fun e => primeSearch_exhausted search (by rw [e]; rfl)
    exact .raises _ _ (written_ext s x) rfl
      ⟨retry, ⟨bits, genprime.imp_right .inl⟩, primeSearchLoop_candidates.2 x search (Nat.zero_le _)⟩
  · exact .hangs x

theorem ends_qcg {length : Nat} {s t : State} (h : exec (.qcg length) s = .next t) : Ends (.qcg length) s t := by
  rcases execQcg_next h with rfl | ⟨seed, -, le, -, rfl⟩
  · exact ends_of_invalidParameter (by nofun) s
  · exact .completes _ _ ⟨rfl, rfl, rfl, fun st => stored_setSequence st (by rwa [emitBits_length])⟩ (.inr rfl) nofun

theorem ends_bbs {length : Nat} {s t : State} (h : exec (.bbs length) s = .next t) : Ends (.bbs length) s t := by
  rcases execBbs_next h with rfl | ⟨pb, -, le, -, -, -, -, ⟨start, x, -, rfl⟩ | ⟨x, run, rfl⟩ | ⟨x, -, rfl⟩⟩
  · exact ends_of_invalidParameter (by nofun) s
  · refine .completes _ _ ⟨rfl, rfl, rfl, fun st => ?_⟩ (.inr rfl) nofun
    exact stored_setBbsResults (stored_setSequence (s := { s with ext := x }) st (by rwa [emitBits_length])) _ _ _ _
  · have retry : s.cfgRetry ≠ 0#32 := fun e => bbsStart_exhausted run (by rw [e]; rfl)
    exact .raises _ _ (written_ext s x) rfl ⟨retry, ⟨length, .inr (.inr rfl)⟩, bbsStart_candidates run⟩
  · exact .hangs x

theorem toNat_pos_of_ne_zero {w : Word} (h : w ≠ 0#32) : 1 ≤ w.toNat := by
  bv_omega

theorem ends_yinit {s t : State} (h : exec .yinit s = .next t) : Ends .yinit s t := by
  rcases execYinit_next h with rfl | ⟨pg, pt, ⟨key, x, -, rfl⟩ | ⟨x, -, rfl⟩⟩
  · exact ends_of_invalidParameter (by nofun) s
  · have live : (newHandle s key).Live s.params :=
      ⟨toNat_pos_of_ne_zero pg, toNat_pos_of_ne_zero pt, le_rfl, le_rfl, Nat.two_pow_pos _⟩
    exact .completes _ _ ⟨rfl, rfl, rfl, fun st => stored_setHandle (s := { s with ext := x }) st live⟩
      (.inl (.inl rfl)) nofun
  · exact .hangs x

theorem ends_ygen {length : Nat} {s t : State} (h : exec (.ygen length) s = .next t) : Ends (.ygen length) s t := by
  rcases execYgen_next h with rfl | ⟨hd, -, le, handle, ⟨bits, hd', x, run, rfl⟩ | ⟨x, run, -⟩ | ⟨x, -, rfl⟩⟩
  · exact ends_of_invalidParameter (by nofun) s
  · refine .completes _ _ ⟨rfl, rfl, rfl, fun st => ?_⟩ (.inl (.inr (.inl ⟨length, rfl⟩))) nofun
    obtain ⟨bitsLength, blocks, requests⟩ := ygenLoop_yields (blk_pos_of_admitted st.1) run
    have live := blockRequests_live (handle_of_stored st handle) requests
    exact stored_setHandle (stored_setSequence (s := { s with ext := x }) st (bitsLength.trans_le le)) live
  · exact absurd run (ygenLoop_ne_exhausted _ _ _ _ _ _)
  · exact .hangs x

theorem ends_ydrop {s t : State} (h : exec .ydrop s = .next t) : Ends .ydrop s t := by
  cases h
  exact .completes _ _ ⟨rfl, rfl, rfl, stored_dropHandle⟩ (.inl (.inr (.inr rfl))) nofun

/-- A STAT command ends as its test does, in a bank of its own. -/
theorem ends_of_statBody {i : Instr} {test : List Bool → State → Ending} {s t : State} (nodrop : i ≠ .ydrop)
    (h : finish (statBody test s) = .next t)
    (ends : ∀ bits, finish (test bits (statStart s)) = .next t → Ends i s t) : Ends i s t := by
  rcases statBody_next h with rfl | ⟨bits, -, -, -, -, -, h⟩
  · exact .raises _ _ (written_bank s _) rfl nodrop
  · exact ends bits h

theorem ends_freq {s t : State} (h : exec .freq s = .next t) : Ends .freq s t :=
  ends_of_statBody nofun h fun _ h => by
    rw [freqTest_next h]
    exact .completes _ _ (written_bank s _) (.inr rfl) fun _ => ⟨rfl, .inl ⟨rfl, rfl⟩⟩

theorem ends_runs {s t : State} (h : exec .runs s = .next t) : Ends .runs s t :=
  ends_of_statBody nofun h fun _ h => by
    rcases runsTest_next h with ⟨v, b, rfl, n, num, den2⟩ | ⟨b, rfl⟩
    · exact .completes _ _ (written_bank s b) (.inr rfl) fun _ => ⟨by rw [n]; rfl, .inl ⟨num, den2⟩⟩
    · exact .raises _ _ (written_bank s b) rfl (.inl rfl)

/-- L counts the appended closing 0, where it counts, so then it is not 0 (43_stat_tests R148). -/
theorem excLClosing_of_zeroReturns {closing : Bool} {bits : List Bool} (h : zeroReturns closing bits = 0) :
    closing = false := by
  cases closing with
  | false => rfl
  | true => exact absurd h (Nat.succ_ne_zero _)

theorem ends_excur {s t : State} (h : exec .excur s = .next t) : Ends .excur s t :=
  ends_of_statBody nofun h fun _ h => by
    rcases excurTest_next h with ⟨v, b, rfl, n, theta, numj, den2j⟩ | ⟨⟨b, rfl⟩, zero⟩
    · exact .completes _ _ (written_bank s b) (.inr rfl) fun _ => ⟨by rw [n]; rfl, .inr ⟨theta, numj, den2j⟩⟩
    · exact .raises _ _ (written_bank s b) rfl (.inr ⟨rfl, excLClosing_of_zeroReturns zero⟩)

theorem ends_pack {s t : State} (h : exec .pack s = .next t) : Ends .pack s t := by
  rcases execPack_next h with rfl | ⟨bits, le, -, -, rfl⟩
  · exact ends_of_invalidParameter (by nofun) s
  · refine .completes _ _ ⟨rfl, rfl, rfl, fun st => stored_setBytes st ?_⟩ (.inr rfl) nofun
    rw [packBits_length]
    exact Nat.div_le_div_right le

theorem ends_unpack {s t : State} (h : exec .unpack s = .next t) : Ends .unpack s t := by
  rcases execUnpack_next h with rfl | ⟨bytes, le, -, length, rfl⟩
  · exact ends_of_invalidParameter (by nofun) s
  · refine .completes _ _ ⟨rfl, rfl, rfl, fun st => stored_setSequence st ?_⟩ (.inr rfl) nofun
    unfold pbufCapacity at le
    rw [unpackBytes_length]
    omega

/-- The inversion of `exec`: every next state of every command is one of the three ends. -/
theorem exec_ends {i : Instr} {s t : State} (h : exec i s = .next t) : Ends i s t := by
  cases i with
  | modexp => exact ends_modexp h
  | mrtest => exact ends_mrtest h
  | genprime bits => exact ends_of_genprimeBody (need3 := false) (.inl rfl) h
  | genprime3 bits => exact ends_of_genprimeBody (need3 := true) (.inr rfl) h
  | qcg length => exact ends_qcg h
  | bbs length => exact ends_bbs h
  | yinit => exact ends_yinit h
  | ygen length => exact ends_ygen h
  | ydrop => exact ends_ydrop h
  | freq => exact ends_freq h
  | runs => exact ends_runs h
  | excur => exact ends_excur h
  | pack => exact ends_pack h
  | unpack => exact ends_unpack h

/-! ## The invariant after a command -/

/-- The codes commands report are 1, 2 and 3, and their ERRLOG bits those of R23. -/
theorem errCode_reported {e : ErrCode} (h : e ≠ .arithmeticDomainError) :
    (BitVec.ofNat 4 e.code).toNat ≤ 3 ∧ ∀ log, errlogWith log e &&& 0xFFFFFFF1#32 = log &&& 0xFFFFFFF1#32 := by
  have clear (log bit : Word) (hb : bit &&& 0xFFFFFFF1#32 = 0#32) :
      (log ||| bit) &&& 0xFFFFFFF1#32 = log &&& 0xFFFFFFF1#32 := by
    rw [BitVec.and_or_distrib_right, hb, BitVec.or_zero]
  cases e with
  | invalidParameter => exact ⟨by decide, fun log => clear log _ rfl⟩
  | degenerateInput => exact ⟨by decide, fun log => clear log _ rfl⟩
  | primeSearchExhausted => exact ⟨by decide, fun log => clear log _ rfl⟩
  | arithmeticDomainError => exact absurd rfl h

theorem mayRaise_ne_arithmetic {i : Instr} {s : State} {x : Ports} {e : ErrCode} (h : MayRaise i s x e) :
    e ≠ .arithmeticDomainError := by
  rintro rfl
  exact h

theorem inv_completeCommand {verdict rvalid : Bool} {u : State} (stored : u.Stored) (waiting : u.waiting = false)
    (bank : rvalid = true → u.bank.HasStatistic) : (completeCommand verdict rvalid u).Inv :=
  (inv_iff _).mpr ⟨stored, Nat.zero_le 3, rfl, by simp [State.flagsOk, statusCompleted, waiting], bank⟩

theorem inv_raiseError {e : ErrCode} {d : Results} {u : State} (stored : u.Stored) (waiting : u.waiting = false)
    (he : e ≠ .arithmeticDomainError) : (raiseError e d u).Inv := by
  obtain ⟨code, log⟩ := errCode_reported he
  have dropped : State.Stored (if e = .primeSearchExhausted then dropResults d u else u) := by
    split
    · exact stored_dropResults stored d
    · exact stored
  obtain ⟨admitted, cells, errlog, handle⟩ := dropped
  have clear : (raiseError e d u).errlog &&& 0xFFFFFFF1#32 = 0#32 := by
    rw [raiseError_errlog, log]
    exact stored.2.2.1
  refine (inv_iff _).mpr ⟨⟨admitted, cells, clear, handle⟩, ?_, ?_, ?_, ?_⟩
  · rw [raiseError_status]; exact code
  · rw [raiseError_status]; simp [statusRaised, State.yValid]
  · simp [State.flagsOk, statusRaised, waiting]
  · simp [statusRaised]

theorem inv_hang {x : Ports} {s : State} (h : s.Inv) (busy : s.status.busy = true) : (hang x s).Inv := by
  obtain ⟨stored, err, yvalid, flags, bank⟩ := (inv_iff s).mp h
  refine (inv_iff _).mpr ⟨stored, err, yvalid, ?_, bank⟩
  simp only [State.flagsOk, busy, if_true] at flags
  simp_all [State.flagsOk, statusHung]

theorem sequencerRuns_iff (s : State) : sequencerRuns s = true ↔ s.status.busy = true ∧ s.waiting = false := by
  simp [sequencerRuns]

theorem exec_keeps_inv {i : Instr} {s t : State} (h : s.Inv) (runs : sequencerRuns s = true) (e : exec i s = .next t) :
    t.Inv ∧ t.params = s.params := by
  obtain ⟨busy, idle⟩ := (sequencerRuns_iff s).mp runs
  obtain ⟨stored, -⟩ := (inv_iff s).mp h
  cases exec_ends e with
  | completes v r written _ bank =>
    exact ⟨inv_completeCommand (written.stored stored) (written.waiting.trans idle) bank, written.params⟩
  | raises c d written _ may =>
    exact ⟨inv_raiseError (written.stored stored) (written.waiting.trans idle) (mayRaise_ne_arithmetic may),
      (raiseError_params ..).trans written.params⟩
  | hangs x => exact ⟨inv_hang h busy, rfl⟩

/-! ## The invariant after a host action -/

/-- A host write of a limb changes its register's cells, unless the register is read-only (10_state R33). -/
theorem writeReg_bn (s : State) (v : Word) (reg : Bn) (i : Nat) :
    s.writeReg v (.bn reg i) =
      if bnWritable reg then { s with bn := s.bn.set reg (Memory.write (s.bn.get reg) i [v]) } else s := rfl

/-- A host write of an idle block stores within capacity: the place is listed (20_memory R52). -/
theorem stored_writeReg {s : State} {r : Reg} (stored : s.Stored) (mapped : r.mapped s.params = true) (v : Word) :
    (s.writeReg v r).Stored := by
  obtain ⟨admitted, -⟩ := id stored
  simp only [configAdmitted, Bool.and_eq_true, decide_eq_true_eq] at admitted
  obtain ⟨⟨⟨⟨-, lmax, -⟩, -⟩, -⟩, -⟩ := admitted
  cases r with
  | bn reg i =>
    simp only [Reg.mapped, decide_eq_true_eq] at mapped
    rw [writeReg_bn]
    split
    · obtain ⟨wf, within⟩ := stored_bn stored reg
      exact stored_setBnReg stored (memory_wf_write wf _ _) (memory_within_write within mapped)
    · exact stored
  | bbuf i =>
    simp only [Reg.mapped, decide_eq_true_eq] at mapped
    exact stored_setBbuf stored (by rw [bitsOfNat_length]; omega)
  | pbuf i =>
    simp only [Reg.mapped, decide_eq_true_eq] at mapped
    exact stored_setPbuf stored (by rw [bytesOfNat_length]; omega)
  | _ => exact stored

/-- A host write of an idle block starts a command, or leaves STATUS, the wait, the handle and the bank alone. -/
theorem writeReg_cases (s : State) (v : Word) (r : Reg) :
    r = .cmd ∨ ((s.writeReg v r).status = s.status ∧ (s.writeReg v r).waiting = s.waiting ∧
      (s.writeReg v r).handle = s.handle ∧ (s.writeReg v r).bank = s.bank) := by
  cases r with
  | cmd => exact .inl rfl
  | bn reg i =>
    rw [writeReg_bn]
    split <;> exact .inr ⟨rfl, rfl, rfl, rfl⟩
  | _ => exact .inr ⟨rfl, rfl, rfl, rfl⟩

@[simp] theorem writeReg_params (s : State) (v : Word) (r : Reg) : (s.writeReg v r).params = s.params := by
  cases r with
  | bn reg i => rw [writeReg_bn]; split <;> rfl
  | _ => rfl

@[simp] theorem writeReg_handle (s : State) (v : Word) (r : Reg) : (s.writeReg v r).handle = s.handle := by
  rcases writeReg_cases s v r with rfl | ⟨-, -, handle, -⟩
  · rfl
  · exact handle

theorem inv_writeReg {s : State} {r : Reg} (h : s.Inv) (mapped : r.mapped s.params = true) (v : Word) :
    (s.writeReg v r).Inv := by
  obtain ⟨stored, err, yvalid, flags, bank⟩ := (inv_iff s).mp h
  refine (inv_iff _).mpr ⟨stored_writeReg stored mapped v, ?_⟩
  rcases writeReg_cases s v r with rfl | ⟨hs, hw, hh, hb⟩
  · exact ⟨Nat.zero_le 3, yvalid, rfl, nofun⟩
  · simp only [State.flagsOk, State.yValid, hs, hw, hh, hb]
    exact ⟨err, yvalid, flags, bank⟩

theorem inv_resetBlock {s : State} (admitted : configAdmitted s.params = true) (answered : Nat) :
    (resetBlock answered s).Inv :=
  ⟨admitted, rfl, by simp [State.errorsOk, resetBlock, State.initial, Status.reset], rfl, rfl, rfl⟩

/-- The conditional stop of a BATTERY line changes the host's list alone (30_encoding R81). -/
theorem stopUnlessVerdict_eq (skip : Nat) (s : State) :
    stopUnlessVerdict skip s = { s with host := if s.status.verdict then s.host else s.host.drop skip } := by
  unfold stopUnlessVerdict
  split <;> rfl

theorem hostAct_keeps_inv {act : HostAct} {s t : State} (h : s.Inv) (e : hostAct act s = .next t) :
    t.Inv ∧ t.params = s.params := by
  cases act with
  | read addr bytes =>
    obtain ⟨r, -, -, rfl⟩ := hostRead_next e
    exact ⟨h, rfl⟩
  | write addr bytes v =>
    obtain ⟨r, reached, -, rfl⟩ := hostWrite_next e
    obtain ⟨-, -, mapped⟩ := accessed_some reached
    exact ⟨inv_writeReg h mapped v, writeReg_params s v r⟩
  | reset answered =>
    cases e
    exact ⟨inv_resetBlock h.1 _, rfl⟩
  | stopUnlessVerdict skip =>
    cases e
    rw [stopUnlessVerdict_eq]
    exact ⟨h, rfl⟩

/-- Settles O58: a step is a host action, a command, a rejected word, or nothing. -/
theorem stepKeepsInv : Obligations.StepKeepsInv := by
  intro s t h e
  rcases step_next e with ⟨act, rest, -, e⟩ | ⟨-, runs, -, ⟨i, -, e⟩ | ⟨r, -, rfl⟩⟩ | ⟨-, -, rfl⟩
  · exact hostAct_keeps_inv (s := { s with host := rest }) h e
  · exact exec_keeps_inv h runs e
  · obtain ⟨-, idle⟩ := (sequencerRuns_iff s).mp runs
    obtain ⟨stored, -⟩ := (inv_iff s).mp h
    exact ⟨inv_raiseError stored idle nofun, raiseError_params ..⟩
  · exact ⟨h, rfl⟩

/-- Settles O59: the reset table of an admitted configuration, which the standard one is. -/
theorem resetSatisfiesInv : Obligations.ResetSatisfiesInv :=
  inv_resetBlock (s := State.reset) (by decide) 0

/-! ## ERRLOG (10_state R23) -/

/-- ERRLOG keeps its bits, and gains none outside bits 3:1. -/
def ErrlogGrows (old new : Word) : Prop :=
  new &&& old = old ∧ new &&& 0xFFFFFFF1#32 = old &&& 0xFFFFFFF1#32

theorem errlogGrows_refl (log : Word) : ErrlogGrows log log :=
  ⟨BitVec.and_self, rfl⟩

theorem errlogGrows_errlogWith (log : Word) {e : ErrCode} (h : e ≠ .arithmeticDomainError) :
    ErrlogGrows log (errlogWith log e) := by
  refine ⟨?_, (errCode_reported h).2 log⟩
  unfold errlogWith
  ext k
  simp only [BitVec.getElem_and, BitVec.getElem_or]
  cases log[k] <;> simp

theorem errlogGrows_of_exec {i : Instr} {s t : State} (h : exec i s = .next t) : ErrlogGrows s.errlog t.errlog := by
  cases exec_ends h with
  | completes v r written =>
    rw [completeCommand_errlog, written.errlog]
    exact errlogGrows_refl _
  | raises e d written _ may =>
    rw [raiseError_errlog, written.errlog]
    exact errlogGrows_errlogWith _ (mayRaise_ne_arithmetic may)
  | hangs x => exact errlogGrows_refl _

@[simp] theorem writeReg_errlog (s : State) (v : Word) (r : Reg) : (s.writeReg v r).errlog = s.errlog := by
  cases r with
  | bn reg i => rw [writeReg_bn]; split <;> rfl
  | _ => rfl

/-- A host action that is no reset leaves ERRLOG alone. -/
theorem hostAct_errlog {act : HostAct} {s t : State} (h : hostAct act s = .next t) :
    (∃ n, act = .reset n) ∨ t.errlog = s.errlog := by
  cases act with
  | read addr bytes =>
    obtain ⟨r, -, -, rfl⟩ := hostRead_next h
    exact .inr rfl
  | write addr bytes v =>
    obtain ⟨r, -, -, rfl⟩ := hostWrite_next h
    exact .inr (writeReg_errlog s v r)
  | reset answered => exact .inl ⟨answered, rfl⟩
  | stopUnlessVerdict skip =>
    cases h
    rw [stopUnlessVerdict_eq]
    exact .inr rfl

/-- Settles O60: commands only set bits of reported codes, and the host's other actions do not touch ERRLOG. -/
theorem errlogSticky : Obligations.ErrlogSticky := by
  intro s t h
  rcases step_next h with ⟨act, rest, turn, h⟩ | ⟨turn, -, -, ⟨i, -, h⟩ | ⟨r, -, rfl⟩⟩ | ⟨turn, -, rfl⟩
  · rcases hostAct_errlog h with ⟨n, rfl⟩ | same
    · exact .inl ⟨n, rest, turn⟩
    · refine .inr ⟨fun _ => same, ?_⟩
      rw [same]
      exact errlogGrows_refl _
  · exact .inr ⟨fun moves => absurd turn moves, errlogGrows_of_exec h⟩
  · refine .inr ⟨fun moves => absurd turn moves, ?_⟩
    rw [raiseError_errlog]
    exact errlogGrows_errlogWith _ nofun
  · exact .inr ⟨fun _ => rfl, errlogGrows_refl _⟩

end Sys2Proof.Machine
end

section
/-! What each command may write, report and invoke (30_encoding R76; 60_exceptions R170 to R174, R179). -/

namespace Sys2Proof.Machine

/-! ## Errors and the handle -/

/-- Settles O44: the three ends of a command; an end with an error sets the bit of its code. -/
theorem errorCodesByCommand : Obligations.ErrorCodesByCommand := by
  intro i s t _ h done
  cases exec_ends h with
  | completes v r written => exact .inl ⟨rfl, written.errlog⟩
  | raises e d written _ may =>
    rw [raiseError_status, raiseError_errlog, written.errlog]
    cases e with
    | invalidParameter => exact .inr (.inl ⟨rfl, rfl, may⟩)
    | degenerateInput => exact .inr (.inr (.inl ⟨rfl, rfl, may⟩))
    | primeSearchExhausted =>
      obtain ⟨retry, command, -⟩ := may
      exact .inr (.inr (.inr ⟨rfl, rfl, retry, command⟩))
    | arithmeticDomainError => exact may.elim
  | hangs x => cases done

/-- Settles O27: the code 3 is that of an exhausted search, whose candidates are counted. -/
theorem exhaustionCountsCandidates : Obligations.ExhaustionCountsCandidates := by
  intro i s t _ h done err
  cases exec_ends h with
  | completes v r => cases err
  | raises e d _ _ may =>
    rw [raiseError_ext]
    rw [raiseError_status] at err
    cases e with
    | primeSearchExhausted =>
      obtain ⟨retry, -, candidates⟩ := may
      exact ⟨retry, candidates⟩
    | invalidParameter | degenerateInput | arithmeticDomainError => exact absurd err (by simp [statusRaised, ErrCode.code])
  | hangs x => cases done

/-- Settles O42: an error and a hang keep the handle, so a command that changed it completed. -/
theorem handleWriters : Obligations.HandleWriters := by
  intro i s t h changed
  cases exec_ends h with
  | completes v r _ handle => exact ⟨handle.resolve_right changed, rfl, rfl⟩
  | raises e d _ handle => exact absurd ((raiseError_handle ..).trans handle) changed
  | hangs x => exact absurd rfl changed

/-! ## Invocations (30_encoding R76) -/

/-- The ports GENPRIME and GENPRIME3 leave are those of their search. -/
theorem genprimeBody_follows {need3 : Bool} {bits : Nat} {s t : State} (h : finish (genprimeBody need3 bits s) = .next t) :
    Ports.Follows (fun e => e.isRandom = true) s.ext t.ext := by
  have follows := follows_primeSearch bits need3 s.cfgTrials.toNat s.cfgRetry.toNat 0 s.ext
  rcases genprimeBody_next h with rfl | ⟨-, -, -, ⟨p, k, x, run, rfl⟩ | ⟨x, run, rfl⟩ | ⟨x, run, rfl⟩⟩
  · exact follows_refl _ _
  all_goals rw [run] at follows; exact follows

theorem execMrtest_follows {s t : State} (h : execMrtest s = .next t) :
    Ports.Follows (fun e => ∃ lo hi v, e = .randRange lo hi v) s.ext t.ext := by
  rcases execMrtest_next h with rfl | ⟨n, -, -, -, -, ends⟩
  · exact follows_refl _ _
  · have follows := millerRabin_bases n s.cfgTrials.toNat s.ext
    rcases ends with ⟨v, x, run, rfl⟩ | ⟨x, run, rfl⟩
    all_goals rw [run] at follows; exact follows

theorem execBbs_follows {length : Nat} {s t : State} (h : execBbs length s = .next t) :
    Ports.Follows (fun e => e.isRandom = true) s.ext t.ext := by
  rcases execBbs_next h with rfl | ⟨pb, -, -, -, -, -, -, ends⟩
  · exact follows_refl _ _
  · have follows := follows_bbsStart pb.toNat s.cfgTrials.toNat s.cfgRetry.toNat s.ext
    rcases ends with ⟨start, x, run, rfl⟩ | ⟨x, run, rfl⟩ | ⟨x, run, rfl⟩
    all_goals rw [run] at follows; exact follows

theorem execYinit_follows {s t : State} (h : execYinit s = .next t) :
    Ports.Follows (fun e => ∃ count bytes, e = .entropyBytes count bytes) s.ext t.ext := by
  have follows : Ports.Follows (fun e => ∃ count bytes, e = .entropyBytes count bytes) s.ext
      (entropyBytes s.params.k s.ext).ports := follows_draw (fun _ => ⟨_, _, rfl⟩) s.ext
  rcases execYinit_next h with rfl | ⟨-, -, ⟨key, x, run, rfl⟩ | ⟨x, run, rfl⟩⟩
  · exact follows_refl _ _
  all_goals rw [run] at follows; exact follows

theorem execYgen_follows {length : Nat} {s t : State} (admitted : configAdmitted s.params = true)
    (h : execYgen length s = .next t) : Ports.Follows (fun e => e.isYarrow = true) s.ext t.ext := by
  rcases execYgen_next h with rfl | ⟨hd, -, -, -, ends⟩
  · exact follows_refl _ _
  · have follows := follows_ygenLoop (blk_pos_of_admitted admitted) length hd s.ext
    rcases ends with ⟨bits, hd', x, run, rfl⟩ | ⟨x, run, rfl⟩ | ⟨x, run, rfl⟩
    all_goals rw [run] at follows; exact follows

/-- A STAT command whose test invokes nothing invokes nothing. -/
theorem statBody_ext {test : List Bool → State → Ending} {s t : State} (h : finish (statBody test s) = .next t)
    (quiet : ∀ bits u, finish (test bits u) = .next t → t.ext = u.ext) : t.ext = s.ext := by
  rcases statBody_next h with rfl | ⟨bits, -, -, -, -, -, h⟩
  · rfl
  · exact quiet bits (statStart s) h

/-- Settles O43: each command's ports are those of the one stretch of draws it makes, if it makes any. -/
theorem primitivesByCommand : Obligations.PrimitivesByCommand := by
  intro i s t admitted h
  cases i with
  | modexp => rcases execModexp_next h with ⟨-, rfl⟩ | ⟨n, a, e, -, -, -, -, rfl⟩ <;> rfl
  | mrtest => exact execMrtest_follows h
  | genprime bits => exact genprimeBody_follows h
  | genprime3 bits => exact genprimeBody_follows h
  | qcg length => rcases execQcg_next h with rfl | ⟨seed, -, -, -, rfl⟩ <;> rfl
  | bbs length => exact execBbs_follows h
  | yinit => exact execYinit_follows h
  | ygen length => exact execYgen_follows admitted h
  | ydrop => cases h; rfl
  | freq => exact statBody_ext h fun bits u h => by rw [freqTest_next h]; rfl
  | runs =>
    exact statBody_ext h fun bits u h => by rcases runsTest_next h with ⟨v, b, rfl, -⟩ | ⟨b, rfl⟩ <;> rfl
  | excur =>
    exact statBody_ext h fun bits u h => by rcases excurTest_next h with ⟨v, b, rfl, -⟩ | ⟨⟨b, rfl⟩, -⟩ <;> rfl
  | pack => rcases execPack_next h with rfl | ⟨bits, -, -, -, rfl⟩ <;> rfl
  | unpack => rcases execUnpack_next h with rfl | ⟨bytes, -, -, -, rfl⟩ <;> rfl

/-! ## Frames (30_encoding R76) -/

/-- The frame of the PRIME unit: of the registers BN_R alone, beside STATUS, ERRLOG and the draws (R76). -/
def PrimeFrame (s t : State) : Prop :=
  t = { s with
    status := t.status, errlog := t.errlog, ext := t.ext, waiting := t.waiting, bn := { s.bn with r := t.bn.r } }

theorem primeFrame_of_genprimeBody {need3 : Bool} {bits : Nat} {s t : State}
    (h : finish (genprimeBody need3 bits s) = .next t) : PrimeFrame s t := by
  rcases genprimeBody_next h with rfl | ⟨-, -, -, ⟨p, k, x, -, rfl⟩ | ⟨x, -, rfl⟩ | ⟨x, -, rfl⟩⟩ <;> rfl

theorem primeFrame_of_modexp {s t : State} (h : execModexp s = .next t) : PrimeFrame s t := by
  rcases execModexp_next h with ⟨-, rfl⟩ | ⟨n, a, e, -, -, -, -, rfl⟩ <;> rfl

theorem primeFrame_of_mrtest {s t : State} (h : execMrtest s = .next t) : PrimeFrame s t ∧ t.bn = s.bn := by
  rcases execMrtest_next h with rfl | ⟨n, -, -, -, -, ⟨v, x, -, rfl⟩ | ⟨x, -, rfl⟩⟩ <;> exact ⟨rfl, rfl⟩

/-- A frame that writes no buffer leaves every cell as it was. -/
theorem cells_of_frame {s t : State} (bbuf : t.bbuf = s.bbuf) (pbuf : t.pbuf = s.pbuf) :
    (∀ k, Memory.get? t.bbuf k = Memory.get? s.bbuf k) ∧ ∀ k, Memory.get? t.pbuf k = Memory.get? s.pbuf k :=
  ⟨fun _ => by rw [bbuf], fun _ => by rw [pbuf]⟩

/-- Settles O53: the frame of each of the four, and with it every cell. -/
theorem framePrime : Obligations.FramePrime := by
  intro i s t command h
  obtain ⟨frame, mrtest⟩ : PrimeFrame s t ∧ (i = .mrtest → t.bn = s.bn) := by
    rcases command with rfl | rfl | ⟨n, rfl | rfl⟩
    · exact ⟨primeFrame_of_modexp h, nofun⟩
    · obtain ⟨frame, bn⟩ := primeFrame_of_mrtest h
      exact ⟨frame, fun _ => bn⟩
    · exact ⟨primeFrame_of_genprimeBody h, nofun⟩
    · exact ⟨primeFrame_of_genprimeBody h, nofun⟩
  unfold PrimeFrame at frame
  exact ⟨frame, mrtest, cells_of_frame (by rw [frame]) (by rw [frame])⟩

/-- Settles O55: YINIT and YDROP end in states whose handle alone is new. -/
theorem frameHandleCommands : Obligations.FrameHandleCommands := by
  intro i s t command h
  rcases command with rfl | rfl
  · have frame : t = { s with
        status := t.status, errlog := t.errlog, ext := t.ext, waiting := t.waiting, handle := t.handle } := by
      rcases execYinit_next h with rfl | ⟨-, -, ⟨key, x, -, rfl⟩ | ⟨x, -, rfl⟩⟩ <;> rfl
    exact ⟨frame, nofun, cells_of_frame (by rw [frame]) (by rw [frame])⟩
  · cases h
    exact ⟨rfl, fun _ => ⟨rfl, rfl, rfl⟩, cells_of_frame rfl rfl⟩

/-- What the frame of a STAT command says: the result bank, and ERRLOG only with an error (43_stat_tests R153). -/
def StatFrame (s t : State) : Prop :=
  t = { s with status := t.status, errlog := t.errlog, bank := t.bank } ∧ (t.status.err = 0#4 → t.errlog = s.errlog)

theorem statFrame_completes (verdict : Bool) (s : State) (b : Bank) :
    StatFrame s (completeCommand verdict true { s with bank := b }) :=
  ⟨rfl, fun _ => rfl⟩

theorem statFrame_raises {e : ErrCode} (reported : e = .invalidParameter ∨ e = .degenerateInput) (s : State) (b : Bank) :
    StatFrame s (raiseError e .nothing { s with bank := b }) := by
  rcases reported with rfl | rfl
  · exact ⟨rfl, fun err => absurd err (by simp [statusRaised, ErrCode.code])⟩
  · exact ⟨rfl, fun err => absurd err (by simp [statusRaised, ErrCode.code])⟩

theorem statFrame_of_statBody {test : List Bool → State → Ending} {s t : State} (h : finish (statBody test s) = .next t)
    (frame : ∀ bits, finish (test bits (statStart s)) = .next t → StatFrame s t) : StatFrame s t := by
  rcases statBody_next h with rfl | ⟨bits, -, -, -, -, -, h⟩
  · exact statFrame_raises (.inl rfl) s _
  · exact frame bits h

/-- Settles O56: a STAT command rejects or runs its test, and a test writes the bank alone. -/
theorem frameStat : Obligations.FrameStat := by
  intro i s t command h
  have frame : StatFrame s t := by
    simp only [List.mem_cons, List.not_mem_nil, or_false] at command
    rcases command with rfl | rfl | rfl
    · refine statFrame_of_statBody h fun bits h => ?_
      rw [freqTest_next h]
      exact statFrame_completes _ s _
    · refine statFrame_of_statBody h fun bits h => ?_
      rcases runsTest_next h with ⟨v, b, rfl, -⟩ | ⟨b, rfl⟩
      · exact statFrame_completes v s b
      · exact statFrame_raises (.inr rfl) s b
    · refine statFrame_of_statBody h fun bits h => ?_
      rcases excurTest_next h with ⟨v, b, rfl, -⟩ | ⟨⟨b, rfl⟩, -⟩
      · exact statFrame_completes v s b
      · exact statFrame_raises (.inr rfl) s b
  obtain ⟨same, errlog⟩ := frame
  exact ⟨same, errlog, cells_of_frame (by rw [same]) (by rw [same])⟩

/-- Settles O57: PACK rejects without a write, or writes the whole bytes from byte 0. -/
theorem framePack : Obligations.FramePack := by
  intro s t h
  rcases execPack_next h with rfl | ⟨bits, -, -, -, rfl⟩
  · exact ⟨rfl, fun err => absurd err (by simp [statusRaised, ErrCode.code]), fun _ => ⟨rfl, fun _ => rfl⟩, fun _ => rfl⟩
  · have plen : (BitVec.ofNat 32 (packBits (s.blen.toNat / 8) bits).length).toNat = s.blen.toNat / 8 := by
      rw [packBits_length]
      exact toNat_ofNat_of_lt (by omega)
    refine ⟨rfl, fun _ => ⟨rfl, plen, fun k hk => ?_⟩, fun err => absurd rfl err, fun _ => rfl⟩
    exact memory_get_write_of_ge _ _ (by rw [packBits_length]; exact plen ▸ hk)

/-! ## The frame of the commands that write the bit sequence -/

/-- The frame QCG, BBS, YGEN and UNPACK share, `length` being the length the command asks for (R76). -/
structure SequenceFrame (i : Instr) (length : Nat) (s t : State) : Prop where
  rest : t = { s with
    status := t.status
    errlog := t.errlog
    ext := t.ext
    waiting := t.waiting
    bbuf := t.bbuf
    blen := t.blen
    bn := { s.bn with p := t.bn.p, q := t.bn.q, nmod := t.bn.nmod, x := t.bn.x }
    handle := t.handle }
  bn : (∃ n, i = .bbs n) ∨ t.bn = s.bn
  handle : (∃ n, i = .ygen n) ∨ t.handle = s.handle
  stored : t.status.done = true → t.status.err = 0#4 →
    t.blen.toNat = length ∧ ∀ k, length ≤ k → Memory.get? t.bbuf k = Memory.get? s.bbuf k
  emptied : t.status.done = true → t.status.err = 3#4 → t.blen = 0#32 ∧ ∀ k, Memory.get? t.bbuf k = none
  kept : t.status.done = false ∨ t.status.err = 1#4 →
    t.blen = s.blen ∧ t.bn = s.bn ∧ t.handle = s.handle ∧ ∀ k, Memory.get? t.bbuf k = Memory.get? s.bbuf k

section
variable {i : Instr} {length : Nat} {s : State}

theorem sequenceFrame_invalidParameter : SequenceFrame i length s (raiseError .invalidParameter .nothing s) where
  rest := rfl
  bn := .inr rfl
  handle := .inr rfl
  stored := fun _ err => absurd err (by simp [statusRaised, ErrCode.code])
  emptied := fun _ err => absurd err (by simp [statusRaised, ErrCode.code])
  kept := fun _ => ⟨rfl, rfl, rfl, fun _ => rfl⟩

theorem sequenceFrame_hang (x : Ports) : SequenceFrame i length s (hang x s) where
  rest := rfl
  bn := .inr rfl
  handle := .inr rfl
  stored := nofun
  emptied := nofun
  kept := fun _ => ⟨rfl, rfl, rfl, fun _ => rfl⟩

theorem sequenceFrame_exhausted {n : Nat} (x : Ports) :
    SequenceFrame (.bbs n) length s (raiseError .primeSearchExhausted .bbs { s with ext := x }) where
  rest := rfl
  bn := .inl ⟨n, rfl⟩
  handle := .inr rfl
  stored := fun _ err => absurd err (by simp [statusRaised, ErrCode.code])
  emptied := fun _ _ => ⟨rfl, fun _ => rfl⟩
  kept := fun other => absurd other (by simp [statusRaised, ErrCode.code])

/-- A sequence of `length` bits stored from cell 0 on. -/
theorem sequenceFrame_completes {u : State} {bits : List Bool} (asked : bits.length = length) (small : length < 2 ^ 32)
    (rest : u = { s with
      ext := u.ext
      bbuf := Memory.write s.bbuf 0 bits
      blen := BitVec.ofNat 32 bits.length
      bn := { s.bn with p := u.bn.p, q := u.bn.q, nmod := u.bn.nmod, x := u.bn.x }
      handle := u.handle })
    (bn : (∃ n, i = .bbs n) ∨ u.bn = s.bn) (handle : (∃ n, i = .ygen n) ∨ u.handle = s.handle) :
    SequenceFrame i length s (completeCommand false false u) where
  rest := by rw [rest]; rfl
  bn := bn
  handle := handle
  stored := fun _ _ => by
    refine ⟨?_, fun k hk => ?_⟩
    · rw [rest]
      exact (toNat_ofNat_of_lt (asked ▸ small)).trans asked
    · rw [rest]
      exact memory_get_write_of_ge _ _ (asked ▸ hk)
  emptied := nofun
  kept := fun other => absurd other (by simp [statusCompleted])

end

/-- A length a command is admitted for fits the 32 bits of BLEN. -/
theorem length_lt_of_admitted {s : State} {n : Nat} (admitted : configAdmitted s.params = true) (le : n ≤ s.params.lmax) :
    n < 2 ^ 32 :=
  (length_le_of_admitted admitted le).trans_lt (by norm_num)

theorem sequenceFrame_qcg {n : Nat} {s t : State} (admitted : configAdmitted s.params = true)
    (h : exec (.qcg n) s = .next t) : SequenceFrame (.qcg n) n s t := by
  rcases execQcg_next h with rfl | ⟨seed, -, le, -, rfl⟩
  · exact sequenceFrame_invalidParameter
  · exact sequenceFrame_completes (emitBits_length ..) (length_lt_of_admitted admitted le) rfl (.inr rfl) (.inr rfl)

theorem sequenceFrame_bbs {n : Nat} {s t : State} (admitted : configAdmitted s.params = true)
    (h : exec (.bbs n) s = .next t) : SequenceFrame (.bbs n) n s t := by
  rcases execBbs_next h with rfl | ⟨pb, -, le, -, -, -, -, ⟨start, x, -, rfl⟩ | ⟨x, -, rfl⟩ | ⟨x, -, rfl⟩⟩
  · exact sequenceFrame_invalidParameter
  · exact sequenceFrame_completes (emitBits_length ..) (length_lt_of_admitted admitted le) rfl (.inl ⟨n, rfl⟩) (.inr rfl)
  · exact sequenceFrame_exhausted x
  · exact sequenceFrame_hang x

theorem sequenceFrame_ygen {n : Nat} {s t : State} (admitted : configAdmitted s.params = true)
    (h : exec (.ygen n) s = .next t) : SequenceFrame (.ygen n) n s t := by
  rcases execYgen_next h with rfl | ⟨hd, -, le, -, ⟨bits, hd', x, run, rfl⟩ | ⟨x, run, -⟩ | ⟨x, -, rfl⟩⟩
  · exact sequenceFrame_invalidParameter
  · obtain ⟨asked, -⟩ := ygenLoop_yields (blk_pos_of_admitted admitted) run
    exact sequenceFrame_completes asked (length_lt_of_admitted admitted le) rfl (.inr rfl) (.inl ⟨n, rfl⟩)
  · exact absurd run (ygenLoop_ne_exhausted _ _ _ _ _ _)
  · exact sequenceFrame_hang x

theorem sequenceFrame_unpack {s t : State} (admitted : configAdmitted s.params = true)
    (h : exec .unpack s = .next t) : SequenceFrame .unpack (8 * s.plen.toNat) s t := by
  rcases execUnpack_next h with rfl | ⟨bytes, le, -, length, rfl⟩
  · exact sequenceFrame_invalidParameter
  · have asked : (unpackBytes bytes).length = 8 * s.plen.toNat := by rw [unpackBytes_length, length]
    have fits : 8 * s.plen.toNat ≤ s.params.lmax := by
      unfold pbufCapacity at le
      omega
    exact sequenceFrame_completes asked (length_lt_of_admitted admitted fits) rfl (.inr rfl) (.inr rfl)

/-- Settles O54: each of the four has the shared frame, for the length it asks for. -/
theorem frameBitWriters : Obligations.FrameBitWriters := by
  intro i s t admitted command h
  obtain ⟨length, frame, generator, unpack⟩ : ∃ length, SequenceFrame i length s t ∧
      (∀ n, i = .qcg n ∨ i = .bbs n ∨ i = .ygen n → length = n) ∧ (i = .unpack → length = 8 * s.plen.toNat) := by
    rcases command with rfl | ⟨n, rfl | rfl | rfl⟩
    · exact ⟨_, sequenceFrame_unpack admitted h, by simp, fun _ => rfl⟩
    · exact ⟨n, sequenceFrame_qcg admitted h, by simp, nofun⟩
    · exact ⟨n, sequenceFrame_bbs admitted h, by simp, nofun⟩
    · exact ⟨n, sequenceFrame_ygen admitted h, by simp, nofun⟩
  have pbuf : t.pbuf = s.pbuf := by rw [frame.rest]
  refine ⟨frame.rest, frame.bn, frame.handle, fun done err => ?_, frame.emptied, frame.kept, fun k => by rw [pbuf]⟩
  obtain ⟨blen, cells⟩ := frame.stored done err
  exact ⟨fun n hn => blen.trans (generator n hn), fun hi => blen.trans (unpack hi), fun k hk => cells k (blen ▸ hk)⟩

end Sys2Proof.Machine
end

section
/-! The command protocol and reset from outside (10_state R39; 30_encoding R77, R79; 70_reset_and_hazards R190, R191). -/

namespace Sys2Proof.Machine

/-! ## Whose turn it is -/

/-- While BUSY = 0, and early also while BUSY = 1, the host's first action moves. -/
theorem step_of_host {s : State} {act : HostAct} {early : Bool} {rest : List HostItem}
    (host : s.host = ⟨act, early⟩ :: rest) (moves : s.status.busy = false ∨ early = true) :
    step s = hostAct act { s with host := rest } := by
  have turn : hostTurn s = some (act, rest) := by
    rw [hostTurn_cons host]
    rcases moves with idle | rfl
    · simp [idle]
    · simp
  exact step_host turn

/-- Settles O5: the sequencer's step, with the configuration admitted or not. -/
theorem stepRunsDecodedCommand : Obligations.StepRunsDecodedCommand := by
  intro s i turn runs decoded
  rw [step_sequencer turn runs]
  refine ⟨fun admitted => sequencerStep_ok admitted decoded, fun rejected => ?_⟩
  unfold sequencerStep
  rw [rejected, if_neg Bool.false_ne_true]

/-- Settles O8: nobody moves, so the step is the last branch of `step`. -/
theorem idleAndHungStay : Obligations.IdleAndHungStay := by
  intro s turn stays
  have stopped : sequencerRuns s = false := by
    unfold sequencerRuns
    rcases stays with idle | waiting
    · rw [idle, Bool.false_and]
    · rw [waiting, Bool.not_true, Bool.and_false]
  unfold step
  rw [turn, stopped]
  rfl

/-! ## Placing a command (30_encoding R77, R79) -/

/-- After a placed command the host waits: BUSY = 1 and no action is early. -/
theorem hostTurn_placeCommand (w : Word) (s : State) : hostTurn (placeCommand w s) = none := by
  unfold hostTurn placeCommand
  cases s.host <;> simp [statusStarted]

theorem withFetchWord_word (s : State) (w : Word) : s.withFetchWord 32 w.toNat = placeCommand w s := by
  rw [State.withFetchWord, Nat.mod_eq_of_lt w.isLt, BitVec.ofNat_toNat, BitVec.setWidth_eq]

/-- Settles O7: the host waits, the sequencer runs, and CMD holds the word of the command. -/
theorem placedWordRuns : Obligations.PlacedWordRuns := by
  intro s i wellFormed admitted
  rw [withFetchWord_word, step_sequencer (hostTurn_placeCommand _ s) rfl]
  exact sequencerStep_ok (s := placeCommand (encode i) s) admitted (decode_encode wellFormed)

/-! ## Reset from outside -/

/-- The fields a reset from outside keeps are not in the reset table. -/
theorem resetBlock_resetTable (answered : Nat) (s : State) : (resetBlock answered s).ResetTable :=
  initial_resetTable s.params

/-- Settles O10: the reset is the host's action whose turn it is. -/
theorem resetFromOutside : Obligations.ResetFromOutside := by
  intro s answered early rest host moves
  exact ⟨_, step_of_host host moves, resetBlock_resetTable _ _, rfl, rfl, rfl⟩

end Sys2Proof.Machine
end

section
/-! Host accesses: the address map, what is refused, what a read returns and what a write stores (20_memory R50 to R61). -/

namespace Sys2Proof.Machine

/-! ## The address map (R50 to R53) -/

theorem accessed_iff {p : Params} (admitted : configAdmitted p = true) (addr bytes : Nat) (r : Reg) :
    accessed p addr bytes = some r ↔ bytes = 4 ∧ addr = r.offset ∧ r.mapped p = true := by
  refine ⟨accessed_some, ?_⟩
  rintro ⟨rfl, rfl, mapped⟩
  exact accessed_offset admitted mapped

/-- Two places at one offset are what one access reaches there. -/
theorem offset_injective {p : Params} (admitted : configAdmitted p = true) {r r' : Reg} (mapped : r.mapped p = true)
    (mapped' : r'.mapped p = true) (same : r.offset = r'.offset) : r = r' := by
  have reached := accessed_offset admitted mapped
  rw [same, accessed_offset admitted mapped'] at reached
  exact (Option.some.inj reached).symm

/-- An access that is answered is aligned. -/
theorem offset_aligned {p : Params} (admitted : configAdmitted p = true) {r : Reg} (mapped : r.mapped p = true) :
    r.offset % 4 = 0 := by
  have reached := accessed_offset admitted mapped
  unfold accessed at reached
  split at reached
  · next h => exact h.2
  · cases reached

/-- The bounds the configuration puts on W and LMAX (00_scope R7). -/
theorem sizes_of_admitted {p : Params} (admitted : configAdmitted p = true) :
    p.w % 32 = 0 ∧ p.w ≤ 2048 ∧ p.lmax % 32 = 0 ∧ p.lmax ≤ 1048576 := by
  simp only [configAdmitted, Bool.and_eq_true, decide_eq_true_eq] at admitted
  obtain ⟨⟨⟨⟨⟨w, -, w'⟩, lmax, -, lmax'⟩, -⟩, -⟩, -⟩ := admitted
  exact ⟨w, w', lmax, lmax'⟩

theorem offset_lt {p : Params} (admitted : configAdmitted p = true) {r : Reg} (mapped : r.mapped p = true) :
    r.offset < 0x60000 := by
  obtain ⟨-, w, -, lmax⟩ := sizes_of_admitted admitted
  cases r with
  | tNum high | tDen2 high => cases high <;> decide
  | yCtr i | tTheta i | tNumj i | tDen2j i =>
    simp only [Reg.mapped, decide_eq_true_eq] at mapped
    simp only [Reg.offset]
    omega
  | bn reg i =>
    have below : i < p.w / 32 := of_decide_eq_true mapped
    have index : bnIndex reg < 8 := by cases reg <;> decide
    simp only [Reg.offset]
    omega
  | bbuf i =>
    simp only [Reg.mapped, decide_eq_true_eq] at mapped
    simp only [Reg.offset]
    omega
  | pbuf i =>
    have below : i < p.lmax / 8 / 4 := of_decide_eq_true mapped
    simp only [Reg.offset]
    omega
  | _ => decide

/-- The ranges of the indices of 20_memory R52, place by place. -/
theorem mapped_iff (p : Params) (r : Reg) :
    r.mapped p = true ↔
      ((∀ i, r = .yCtr i → i < 8) ∧ (∀ i, r = .tTheta i ∨ r = .tNumj i ∨ r = .tDen2j i → i < 18) ∧
        (∀ reg i, r = .bn reg i → i < p.w / 32) ∧ (∀ i, r = .bbuf i → i < p.lmax / 32) ∧
        ∀ i, r = .pbuf i → i < p.lmax / 8 / 4) := by
  have bn (reg : Bn) (i : Nat) : Reg.mapped p (.bn reg i) = true ↔ i < p.w / 32 := decide_eq_true_iff
  have pbuf (i : Nat) : Reg.mapped p (.pbuf i) = true ↔ i < p.lmax / 8 / 4 := decide_eq_true_iff
  cases r with
  | bn reg i => simp [bn]
  | pbuf i => simp [pbuf]
  | _ => simp [Reg.mapped]

/-- Settles O13: every place is reached at its offset, and the table lists the offsets. -/
theorem addressMap : Obligations.AddressMap := by
  intro p admitted
  have reached {addr : Nat} {r : Reg} (offset : r.offset = addr) (mapped : r.mapped p = true) :
      accessed p addr 4 = some r := offset ▸ accessed_offset admitted mapped
  refine ⟨accessed_iff admitted, fun r r' => offset_injective admitted,
    fun r mapped => ⟨offset_aligned admitted mapped, offset_lt admitted mapped⟩, ?_, ?_, ?_, ?_, ?_, ?_, mapped_iff p⟩
  · intro e listed
    have row : e.1.offset = e.2 ∧ e.1.mapped p = true := by
      revert e
      simp [Reg.offset, Reg.mapped]
    exact reached row.1 row.2
  · exact fun i hi => reached rfl (decide_eq_true hi)
  · exact fun i hi => ⟨reached rfl (decide_eq_true hi), reached rfl (decide_eq_true hi), reached rfl (decide_eq_true hi)⟩
  · intro e listed i hi
    have row : 0x400 + 0x100 * bnIndex e.1 = e.2 := by
      revert e
      decide
    exact reached (congrArg (· + 4 * i) row) (decide_eq_true hi)
  · exact fun i hi => reached rfl (decide_eq_true hi)
  · exact fun i hi => reached rfl (decide_eq_true hi)

/-! ## Refusals (R51, R53, R61) -/

/-- The places the host may read while BUSY = 1 (20_memory R61). -/
theorem readableWhileBusy_iff (r : Reg) : readableWhileBusy r = true ↔ r ∈ [Reg.status, .errlog, .id, .cmd] := by
  cases r <;> simp [readableWhileBusy]

theorem accessed_eq_none {p : Params} {addr bytes : Nat}
    (h : bytes ≠ 4 ∨ addr % 4 ≠ 0 ∨ ∀ r : Reg, r.mapped p = true → r.offset ≠ addr) : accessed p addr bytes = none := by
  cases reached : accessed p addr bytes with
  | none => rfl
  | some r =>
    obtain ⟨width, offset, mapped⟩ := accessed_some reached
    have aligned : addr % 4 = 0 := by
      unfold accessed at reached
      split at reached
      · next hits => exact hits.2
      · cases reached
    rcases h with h | h | h
    · exact absurd width h
    · exact absurd aligned h
    · exact absurd offset.symm (h r mapped)

section
variable {s : State} {addr bytes : Nat}

theorem hostRead_of_unmapped (h : accessed s.params addr bytes = none) :
    hostRead addr bytes s = .refused (.busAccessNotAdmitted addr) := by
  unfold hostRead
  rw [h]

theorem hostWrite_of_unmapped (h : accessed s.params addr bytes = none) (v : Word) :
    hostWrite addr bytes v s = .refused (.busAccessNotAdmitted addr) := by
  unfold hostWrite
  rw [h]

theorem hostRead_of_busy {r : Reg} (h : accessed s.params addr bytes = some r) (busy : s.status.busy = true)
    (hidden : r ∉ [Reg.status, .errlog, .id, .cmd]) : hostRead addr bytes s = .refused (.accessWhileBusy addr) := by
  rw [← readableWhileBusy_iff, Bool.not_eq_true] at hidden
  unfold hostRead
  simp [h, busy, hidden]

theorem hostWrite_of_busy {r : Reg} (h : accessed s.params addr bytes = some r) (busy : s.status.busy = true) (v : Word) :
    hostWrite addr bytes v s = .refused (.accessWhileBusy addr) := by
  unfold hostWrite
  simp [h, busy]

theorem hostRead_of_reached {r : Reg} (h : accessed s.params addr bytes = some r)
    (readable : s.status.busy = false ∨ r ∈ [Reg.status, .errlog, .id, .cmd]) :
    hostRead addr bytes s = .next (noteRead addr r s) := by
  unfold hostRead
  rcases readable with idle | listed
  · simp [h, idle]
  · simp [h, (readableWhileBusy_iff r).mpr listed]

theorem hostWrite_of_reached {r : Reg} (h : accessed s.params addr bytes = some r) (idle : s.status.busy = false)
    (v : Word) : hostWrite addr bytes v s = .next (s.writeReg v r) := by
  unfold hostWrite
  simp [h, idle]

end

/-- Settles O12: the access is the step, and each refusal is one branch of a host access. -/
theorem hostAccessRefusals : Obligations.HostAccessRefusals := by
  intro s addr bytes v early rest moves
  refine ⟨fun bad => ⟨fun host => ?_, fun host => ?_⟩, fun r reached busy => ⟨fun host => ?_, fun host hidden => ?_⟩⟩
  all_goals rw [step_of_host host moves]
  · exact hostRead_of_unmapped (s := { s with host := rest }) (accessed_eq_none bad)
  · exact hostWrite_of_unmapped (s := { s with host := rest }) (accessed_eq_none bad) v
  · exact hostWrite_of_busy (s := { s with host := rest }) reached busy v
  · exact hostRead_of_busy (s := { s with host := rest }) reached busy hidden

/-! ## Reads (R54 to R59) -/

theorem readWord_of_regValue {s : State} {r : Reg} {u : Word} (free : Word) (h : s.regValue r = some u) :
    s.readWord free r = u := by
  cases r with
  | bbuf i | pbuf i => cases h
  | _ => simp [State.readWord, h]

/-- Settles O11: the read notes the word, which is the place's value in its layout. -/
theorem hostReadKeepsBlock : Obligations.HostReadKeepsBlock := by
  intro s addr early rest r host reached readable
  refine ⟨State.readWord { s with host := rest } (Config.unspecified s.freeIx) r, ?_,
    fun u value => readWord_of_regValue (s := { s with host := rest }) _ value, ?_⟩
  · rw [step_of_host host (readable.imp_right (·.1))]
    exact hostRead_of_reached (s := { s with host := rest }) reached (readable.imp_right (·.2))
  · exact readWord_readsAs { s with host := rest } _ r

/-! ## Writes (R52, R59) -/

/-- A host write of an idle block stores into the place it reaches. -/
theorem step_of_write {s : State} {addr : Nat} {v : Word} {early : Bool} {rest : List HostItem} {r : Reg}
    (host : s.host = ⟨.write addr 4 v, early⟩ :: rest) (reached : accessed s.params addr 4 = some r)
    (idle : s.status.busy = false) : step s = .next (State.writeReg { s with host := rest } v r) := by
  rw [step_of_host host (.inl idle)]
  exact hostWrite_of_reached (s := { s with host := rest }) reached idle v

theorem accessed_cmd (p : Params) : accessed p 0x004 4 = some .cmd := rfl

/-- Settles O6: a write to CMD is a host write whose place starts the command. -/
theorem cmdWriteStarts : Obligations.CmdWriteStarts := by
  intro s w early rest host
  refine ⟨fun idle awake => ⟨_, step_of_write host (accessed_cmd s.params) idle, ?_, rfl⟩, fun busy moves => ?_⟩
  · exact (sequencerRuns_iff _).mpr ⟨rfl, awake⟩
  · rw [step_of_host host (.inr moves)]
    exact hostWrite_of_busy (s := { s with host := rest }) (accessed_cmd s.params) busy w

theorem writeReg_of_readOnly (s : State) (v : Word) {r : Reg} (h : r.readOnly = true) : s.writeReg v r = s := by
  cases r with
  | bn reg i =>
    cases reg with
    | a | e | n => cases h
    | r | p | q | nmod | x => rfl
  | cmd | arg0 | cfgPg | cfgPt | cfgTrials | cfgConst | cfgRetry | seed | blen | plen | bbuf i | pbuf i => cases h
  | _ => rfl

/-- Settles O17: one branch of the host write for each place. -/
theorem hostWriteEffect : Obligations.HostWriteEffect := by
  intro s addr v early rest r host reached idle
  rw [step_of_write host reached idle]
  refine ⟨fun readOnly => by rw [writeReg_of_readOnly _ v readOnly], ?_, ?_, ?_, ?_, ?_, ?_, ?_, ?_, ?_⟩
  all_goals rintro rfl; rfl

/-! ## The windows (R54, R55) -/

theorem memory_get_write_inside {α : Type} (m : Memory α) (start : Nat) (xs : List α) {k : Nat} (h : k < xs.length) :
    Memory.get? (Memory.write m start xs) (start + k) = some xs[k] := by
  rw [memory_get_write, if_pos ⟨by omega, by omega⟩, Nat.add_sub_cancel_left, List.getElem?_eq_getElem h]

theorem memory_get_write_outside {α : Type} (m : Memory α) (start : Nat) (xs : List α) {j : Nat}
    (h : j < start ∨ start + xs.length ≤ j) : Memory.get? (Memory.write m start xs) j = Memory.get? m j := by
  rw [memory_get_write, if_neg (by omega)]

/-- A BBUF word whose 32 cells are written with the bits of `v` reads as `v`. -/
theorem bbufWord_of_cells {m : Memory Bool} {i : Nat} {v : Word}
    (cells : ∀ k < 32, Memory.get? m (32 * i + k) = some (v.getLsbD (31 - k))) (free : Word) : bbufWord m free i = v := by
  apply BitVec.eq_of_getLsbD_eq
  intro b hb
  have := bbufWord_getLsbD free (show 31 - b < 32 by omega) (cells (31 - b) (by omega))
  rwa [show 31 - (31 - b) = b by omega] at this

/-- Settles O14: the 32 bits of the word are written as a run of cells, the most significant first. -/
theorem bbufWindow : Obligations.BbufWindow := by
  intro s i v early rest admitted host inside idle
  have reached : accessed s.params (0x10000 + 4 * i) 4 = some (.bbuf i) :=
    accessed_offset admitted (r := .bbuf i) (decide_eq_true inside)
  have cells : ∀ k < 32, Memory.get? (Memory.write s.bbuf (32 * i) (bitsOfNat 32 v.toNat)) (32 * i + k) =
      some (v.getLsbD (31 - k)) := fun k hk => by
    rw [memory_get_write_inside _ _ _ (by rwa [bitsOfNat_length]), bitsOfNat_getElem, BitVec.testBit_toNat]
  exact ⟨_, step_of_write host reached idle, cells,
    fun j hj => memory_get_write_outside _ _ _ (by rwa [bitsOfNat_length]), bbufWord_of_cells cells⟩

/-- Byte k of the four most significant first is bits 31 - 8k to 24 - 8k. -/
theorem bytesOfNat_word_getElem (v : Word) {k : Nat} (h : k < 4) :
    (bytesOfNat 4 v.toNat)[k]'(by rwa [bytesOfNat_length]) = v.extractLsb' (24 - 8 * k) 8 := by
  apply BitVec.eq_of_toNat_eq
  simp only [bytesOfNat, List.getElem_map, List.getElem_range, BitVec.toNat_ofNat, BitVec.extractLsb'_toNat,
    Nat.shiftRight_eq_div_pow]
  rw [show (256 : Nat) = 2 ^ 8 from rfl, ← Nat.pow_mul, show 8 * (4 - 1 - k) = 24 - 8 * k by omega]

/-- A word is its four bytes. -/
theorem word_eq_of_bytes {v w : Word} (h : ∀ k < 4, v.extractLsb' (24 - 8 * k) 8 = w.extractLsb' (24 - 8 * k) 8) : v = w := by
  apply BitVec.eq_of_getLsbD_eq
  intro b hb
  have byte := congrArg (·.getLsbD (b % 8)) (h (3 - b / 8) (by omega))
  simp only [BitVec.getLsbD_extractLsb'] at byte
  have place : 24 - 8 * (3 - b / 8) + b % 8 = b := by omega
  have inside : b % 8 < 8 := Nat.mod_lt _ (by omega)
  simpa [place, inside] using byte

/-- A PBUF word whose four cells are written with the bytes of `v` reads as `v`. -/
theorem pbufWord_of_cells {m : Memory Byte} {i : Nat} {v : Word}
    (cells : ∀ k < 4, Memory.get? m (4 * i + k) = some (v.extractLsb' (24 - 8 * k) 8)) (free : Word) :
    pbufWord m free i = v :=
  word_eq_of_bytes fun k hk => pbufWord_extract free hk (cells k hk)

/-- Settles O15: the four bytes of the word are written as a run of cells, the most significant first. -/
theorem pbufWindow : Obligations.PbufWindow := by
  intro s i v early rest admitted host inside idle
  have reached : accessed s.params (0x40000 + 4 * i) 4 = some (.pbuf i) :=
    accessed_offset admitted (r := .pbuf i) (decide_eq_true inside)
  have cells : ∀ k < 4, Memory.get? (Memory.write s.pbuf (4 * i) (bytesOfNat 4 v.toNat)) (4 * i + k) =
      some (v.extractLsb' (24 - 8 * k) 8) := fun k hk => by
    rw [memory_get_write_inside _ _ _ (by rwa [bytesOfNat_length]), bytesOfNat_word_getElem v hk]
  exact ⟨_, step_of_write host reached idle, cells,
    fun j hj => memory_get_write_outside _ _ _ (by rwa [bytesOfNat_length]), pbufWord_of_cells cells⟩

/-! ## Bignum limbs (R56) -/

theorem bnWritable_of_mem {reg : Bn} (h : reg ∈ [Bn.a, .e, .n]) : bnWritable reg = true := by
  simp only [List.mem_cons, List.not_mem_nil, or_false] at h
  rcases h with rfl | rfl | rfl <;> rfl

theorem limbsOfNat_eq_iff {count v : Nat} {limbs : List Word} (lt : v < 2 ^ (32 * count)) :
    limbs = limbsOfNat count v ↔ limbs.length = count ∧ natOfLimbs limbs = v := by
  constructor
  · rintro rfl
    exact ⟨limbsOfNat_length count v, by rw [natOfLimbs_limbsOfNat, Nat.mod_eq_of_lt lt]⟩
  · rintro ⟨rfl, rfl⟩
    exact (natOfLimbs_spec limbs).1.symm

/-- A bignum register holds `v` exactly when its limbs are those of `v` (20_memory R56). -/
theorem bnValue_eq_some_iff (s : State) (reg : Bn) (v : Nat) :
    s.bnValue reg = some v ↔ v < 2 ^ (32 * limbCount s.params) ∧
      Memory.readRun (s.bn.get reg) 0 (limbCount s.params) = .ok (limbsOfNat (limbCount s.params) v) := by
  constructor
  · intro h
    refine ⟨bnValue_lt h, ?_⟩
    have lt := bnValue_lt h
    unfold State.bnValue at h
    split at h
    · next limbs read =>
      rw [read, (limbsOfNat_eq_iff lt).mpr ⟨memory_readRun_length read, Option.some.inj h⟩]
    · cases h
  · rintro ⟨lt, read⟩
    unfold State.bnValue
    rw [read]
    exact congrArg some ((limbsOfNat_eq_iff lt).mp rfl).2

/-- Settles O16: a limb write is a run of one cell; a register's value is read limb by limb. -/
theorem bignumLimbs : Obligations.BignumLimbs := by
  refine ⟨fun s reg i v early rest admitted host listed inside idle => ?_, fun s reg v admitted => ?_⟩
  · have reached := accessed_offset admitted (r := .bn reg i) (decide_eq_true inside)
    refine ⟨Memory.write (s.bn.get reg) i [v], ?_, memory_get_write_inside (k := 0) _ i [v] Nat.one_pos,
      fun j hj => memory_get_write_outside _ _ _ (by simp; omega)⟩
    rw [step_of_write host reached idle, writeReg_bn, if_pos (bnWritable_of_mem listed)]
  · have width := limbCount_mul admitted
    rw [bnValue_eq_some_iff, width, memory_readRun_ok]
    refine and_congr_right fun _ => ?_
    simp only [limbsOfNat_length, true_and, Nat.zero_add]
    exact forall₂_congr fun i hi => by rw [limbsOfNat_getElem? _ _ _ hi]

/-! ## The hidden part of the handle (10_state R35) -/

/-- A state with another key and pool in its handle. -/
def State.withSecrets (s : State) (h : Handle) (key pool : List Byte) : State :=
  { s with handle := some { h with key := key, pool := pool } }

/-- No place of the map shows Y_KEY or Y_POOL. -/
theorem readWord_withSecrets {s : State} {h : Handle} (handle : s.handle = some h) (key pool : List Byte) (free : Word)
    (r : Reg) : (s.withSecrets h key pool).readWord free r = s.readWord free r := by
  cases r with
  | yPgrem | yPtrem | yPg | yPt | yCtr i => simp [State.readWord, State.regValue, State.withSecrets, handle]
  | _ => rfl

/-- What the host keeps a record of is not among the places a write can reach. -/
theorem writeReg_record (s : State) (v : Word) (r : Reg) :
    (s.writeReg v r).reads = s.reads ∧ (s.writeReg v r).host = s.host ∧ (s.writeReg v r).freeIx = s.freeIx := by
  cases r with
  | bn reg i => rw [writeReg_bn]; split <;> exact ⟨rfl, rfl, rfl⟩
  | _ => exact ⟨rfl, rfl, rfl⟩

/-- Settles O18: an access is admitted by the configuration and BUSY alone, and its word is that of a place of the map. -/
theorem keyAndPoolHidden : Obligations.KeyAndPoolHidden := by
  intro s t h key pool act handle noReset e
  cases act with
  | read addr bytes =>
    obtain ⟨r, reached, readable, rfl⟩ := hostRead_next e
    refine ⟨rfl, noteRead addr r (s.withSecrets h key pool), ?_, ?_, rfl, rfl⟩
    · refine hostRead_of_reached (s := s.withSecrets h key pool) reached ?_
      rw [← readableWhileBusy_iff]
      show s.status.busy = false ∨ _
      revert readable
      cases s.status.busy <;> simp
    · rw [noteRead_reads, noteRead_reads, readWord_withSecrets handle]
      rfl
  | write addr bytes v =>
    obtain ⟨r, reached, idle, rfl⟩ := hostWrite_next e
    obtain ⟨reads, host, freeIx⟩ := writeReg_record s v r
    obtain ⟨reads', host', freeIx'⟩ := writeReg_record (s.withSecrets h key pool) v r
    exact ⟨writeReg_handle s v r, _, hostWrite_of_reached (s := s.withSecrets h key pool) reached idle v,
      reads'.trans reads.symm, host'.trans host.symm, freeIx'.trans freeIx.symm⟩
  | reset answered => exact absurd rfl (noReset answered)
  | stopUnlessVerdict skip =>
    cases e
    refine ⟨?_, stopUnlessVerdict skip (s.withSecrets h key pool), rfl, ?_⟩
    · rw [stopUnlessVerdict_eq]
    · rw [stopUnlessVerdict_eq, stopUnlessVerdict_eq]
      exact ⟨rfl, rfl, rfl⟩

end Sys2Proof.Machine
end

section
/-! MRTEST, the prime search and GENPRIME (40_prime R94 to R103). -/

namespace Sys2Proof.Machine

/-! ## Miller-Rabin on the bases to come (R94) -/

/-- The bases the next answers give the rounds of a test of `n` (log 3). -/
def drawnBases (n trials : Nat) (x : Ports) : List Nat :=
  (x.answers.take trials).map (inRange 2 (n - 2))

/-- How many of them pass before the first composite round. -/
def roundsPassed (n trials : Nat) (x : Ports) : Nat :=
  ((drawnBases n trials x).takeWhile (mrRound n)).length

theorem drawnBases_length (n trials : Nat) (x : Ports) : (drawnBases n trials x).length = min trials x.answers.length := by
  simp [drawnBases]

theorem roundsPassed_le (n trials : Nat) (x : Ports) : roundsPassed n trials x ≤ (drawnBases n trials x).length :=
  (List.takeWhile_sublist _).length_le

/-- Every base passes exactly when no round stops the count. -/
theorem all_mrRound_iff (n trials : Nat) (x : Ports) :
    (drawnBases n trials x).all (mrRound n) = true ↔ roundsPassed n trials x = (drawnBases n trials x).length := by
  rw [List.all_eq_true, ← List.takeWhile_eq_self_iff]
  exact ⟨congrArg List.length, (List.takeWhile_sublist _).eq_of_length⟩

section
variable {n trials : Nat} {x : Ports}

/-- The rounds, where the answers reach to their end: `millerRabin_eq` in the terms of the two definitions. -/
theorem millerRabin_of_answered (h : trials ≤ x.answers.length ∨ (drawnBases n trials x).all (mrRound n) = false) :
    millerRabin n trials x = .yields ((drawnBases n trials x).all (mrRound n))
      { answers := x.answers.drop (min trials (roundsPassed n trials x + 1))
        repliesLeft := x.repliesLeft
        history := x.history ++
          ((drawnBases n trials x).take (roundsPassed n trials x + 1)).map (fun a => .randRange 2 (n - 2) a) } :=
  millerRabin_eq n trials x h

theorem millerRabin_of_all_passed (passed : roundsPassed n trials x = trials) :
    millerRabin n trials x = .yields true
      { answers := x.answers.drop trials
        repliesLeft := x.repliesLeft
        history := x.history ++ (drawnBases n trials x).map (fun a => .randRange 2 (n - 2) a) } := by
  have le := roundsPassed_le n trials x
  have length := drawnBases_length n trials x
  have all : (drawnBases n trials x).all (mrRound n) = true := (all_mrRound_iff n trials x).mpr (by omega)
  rw [millerRabin_of_answered (.inl (by omega)), all, passed, Nat.min_eq_left (by omega), List.take_of_length_le (by omega)]

theorem millerRabin_of_composite (stopped : roundsPassed n trials x < (drawnBases n trials x).length) :
    millerRabin n trials x = .yields false
      { answers := x.answers.drop (roundsPassed n trials x + 1)
        repliesLeft := x.repliesLeft
        history := x.history ++
          ((drawnBases n trials x).take (roundsPassed n trials x + 1)).map (fun a => .randRange 2 (n - 2) a) } := by
  have length := drawnBases_length n trials x
  have notAll : (drawnBases n trials x).all (mrRound n) = false := by
    rw [← Bool.not_eq_true, all_mrRound_iff]
    omega
  rw [millerRabin_of_answered (.inr notAll), notAll, Nat.min_eq_right (by omega)]

theorem millerRabin_of_unanswered (passed : roundsPassed n trials x = (drawnBases n trials x).length)
    (short : roundsPassed n trials x < trials) :
    millerRabin n trials x = .waits
      { answers := []
        repliesLeft := x.repliesLeft
        history := x.history ++ (drawnBases n trials x).map (fun a => .randRange 2 (n - 2) a) } := by
  have length := drawnBases_length n trials x
  have all := (all_mrRound_iff n trials x).mpr passed
  have bases : drawnBases n trials x = x.answers.map (inRange 2 (n - 2)) := by
    rw [drawnBases, List.take_of_length_le (by omega)]
  rw [bases] at all ⊢
  exact millerRabin_waits n trials x (by omega) all

end

/-! ## MRTEST (R99) -/

theorem exec_mrtest (s : State) : exec .mrtest s = finish (mrtestBody s) := rfl

theorem exec_mrtest_of_trials_zero {s : State} (h : s.cfgTrials = 0#32) : exec .mrtest s = .next (s.failed 1) := by
  rw [exec_mrtest, mrtestBody, if_pos h, finish_invalidParameter, raiseError_nothing_eq_failed]
  rfl

theorem exec_mrtest_of_unwritten {s : State} (trials : s.cfgTrials ≠ 0#32) (h : s.bnValue .n = none) :
    exec .mrtest s = .fault (.unwrittenOperand (.bn .n)) := by
  rw [exec_mrtest, mrtestBody, if_neg trials, withBn_of_unwritten h, finish_faults]

theorem exec_mrtest_of_number_rejected {s : State} {n : Nat} (trials : s.cfgTrials ≠ 0#32) (h : s.bnValue .n = some n)
    (rejected : n % 2 = 0 ∨ n < 5) : exec .mrtest s = .next (s.failed 1) := by
  rw [exec_mrtest, mrtestBody, if_neg trials, withBn_of_written h, if_pos rejected, finish_invalidParameter,
    raiseError_nothing_eq_failed]
  rfl

/-- Past its checks MRTEST runs the rounds. -/
theorem exec_mrtest_of_number {s : State} {n : Nat} (trials : s.cfgTrials ≠ 0#32) (h : s.bnValue .n = some n)
    (odd : n % 2 = 1) (five : 5 ≤ n) :
    exec .mrtest s = finish (endRun (millerRabin n s.cfgTrials.toNat s.ext) .nothing s fun verdict s =>
      .completes verdict false s) := by
  rw [exec_mrtest, mrtestBody, if_neg trials, withBn_of_written h, if_neg (by omega)]

/-- Settles O22: each clause is one way the checks or the rounds end. -/
theorem mrtestResult : Obligations.MrtestResult := by
  intro s
  refine ⟨exec_mrtest_of_trials_zero, fun trials => ⟨exec_mrtest_of_unwritten trials, fun n h =>
    ⟨exec_mrtest_of_number_rejected trials h, fun odd five bases passed hbases hpassed => ?_⟩⟩⟩
  obtain rfl : bases = drawnBases n s.cfgTrials.toNat s.ext := hbases
  obtain rfl : passed = roundsPassed n s.cfgTrials.toNat s.ext := hpassed
  rw [exec_mrtest_of_number trials h odd five]
  refine ⟨fun all => ?_, fun composite => ?_, fun passed short => ?_⟩
  · rw [millerRabin_of_all_passed all]
    rfl
  · rw [millerRabin_of_composite composite]
    rfl
  · rw [millerRabin_of_unanswered passed short]
    rfl

/-! ## Trial division decides, or leaves it to the rounds (R95) -/

theorem trialDivBy_of_divisible {primes : List Nat} {c : Nat} (notListed : c ∉ primes) (h : ∃ p ∈ primes, c % p = 0) :
    trialDivBy primes c = .composite := by
  induction primes with
  | nil => simp at h
  | cons p rest ih =>
    obtain ⟨ne, notRest⟩ := not_or.mp (List.mem_cons.not.mp notListed)
    rw [trialDivBy, if_neg ne]
    split
    · rfl
    · next indivisible =>
      obtain ⟨q, listed, divides⟩ := h
      rcases List.mem_cons.mp listed with rfl | listed
      · exact absurd divides indivisible
      · exact ih notRest ⟨q, listed, divides⟩

theorem trialDivBy_of_indivisible {primes : List Nat} {c : Nat} (h : ∀ p ∈ primes, c % p ≠ 0) :
    trialDivBy primes c = .unknown := by
  induction primes with
  | nil => rfl
  | cons p rest ih =>
    obtain ⟨head, tail⟩ := List.forall_mem_cons.mp h
    have ne : c ≠ p := by
      rintro rfl
      exact head (Nat.mod_self c)
    rw [trialDivBy, if_neg ne, if_neg head, ih tail]

theorem probablePrime_of_listed {c : Nat} (h : c ∈ Config.smallPrimes) (trials : Nat) (y : Ports) :
    probablePrime c trials y = .yields true y := by
  have listed : ∀ c ∈ Config.smallPrimes, trialDiv c = .prime := by decide
  rw [probablePrime, listed c h]

theorem probablePrime_of_divisible {c : Nat} (notListed : c ∉ Config.smallPrimes) (h : ∃ p ∈ Config.smallPrimes, c % p = 0)
    (trials : Nat) (y : Ports) : probablePrime c trials y = .yields false y := by
  rw [probablePrime, trialDiv, trialDivBy_of_divisible notListed h]

theorem probablePrime_of_indivisible {c : Nat} (h : ∀ p ∈ Config.smallPrimes, c % p ≠ 0) (trials : Nat) (y : Ports) :
    probablePrime c trials y = millerRabin c trials y := by
  rw [probablePrime, trialDiv, trialDivBy_of_indivisible h]

/-! ## One pass of the search (R97) -/

section
variable {bits : Nat} {need3 : Bool} {trials retry sampled : Nat} {x : Ports}

theorem primeSearch_of_bound (h : retry ≠ 0 ∧ sampled = retry) :
    primeSearch bits need3 trials retry sampled x = .exhausted x := by
  rw [primeSearch_eq, if_pos h]

theorem primeSearch_of_unanswered (go : ¬(retry ≠ 0 ∧ sampled = retry)) (h : x.answers = []) :
    primeSearch bits need3 trials retry sampled x = .waits x := by
  rw [primeSearch_eq, if_neg go, randBits_nil h, andThen_waits]

/-- Below the bound, an answer makes the candidate, which is tested and then taken or only counted. -/
theorem primeSearch_of_answer {r : Nat} {rest : List Nat} (go : ¬(retry ≠ 0 ∧ sampled = retry))
    (h : x.answers = r :: rest) :
    primeSearch bits need3 trials retry sampled x =
      (probablePrime (candidate bits (r % 2 ^ bits)) trials
        ⟨rest, x.repliesLeft, x.history ++ [.randBits bits (r % 2 ^ bits)]⟩).andThen fun ok z =>
        if ok = false ∨ (need3 = true ∧ candidate bits (r % 2 ^ bits) % 4 ≠ 3) then
          primeSearch bits need3 trials retry (sampled + 1) z
        else .yields (candidate bits (r % 2 ^ bits), sampled + 1) z := by
  rw [primeSearch_eq, if_neg go, randBits, draw_cons _ _ _ h, andThen_yields]
  congr 1
  funext ok z
  by_cases residue : candidate bits (r % 2 ^ bits) % 4 = 3
  · cases ok <;> simp [residue]
  · cases ok <;> cases need3 <;> simp [residue]

end

/-- Settles O23: the pass with the answer of the candidate, in the three cases of trial division. -/
theorem primeSearchPass : Obligations.PrimeSearchPass := by
  intro bits need3 trials retry sampled x
  refine ⟨primeSearch_of_bound, fun go => ⟨primeSearch_of_unanswered go, fun r rest c y answer hc hy => ?_⟩⟩
  obtain rfl : c = candidate bits (r % 2 ^ bits) := hc
  subst hy
  rw [primeSearch_of_answer go answer]
  refine ⟨fun listed => ?_, fun notListed divisible => ?_, fun indivisible => ?_⟩
  · rw [probablePrime_of_listed listed, andThen_yields]
    simp only [Bool.true_eq_false, false_or]
  · rw [probablePrime_of_divisible notListed divisible, andThen_yields, if_pos (.inl rfl)]
  · rw [probablePrime_of_indivisible indivisible]

/-! ## GENPRIME and GENPRIME3 (R100, R101) -/

theorem exec_genprime (need3 : Bool) (bits : Nat) (s : State) :
    exec (if need3 then .genprime3 bits else .genprime bits) s = finish (genprimeBody need3 bits s) := by
  cases need3 <;> rfl

section
variable {need3 : Bool} {bits : Nat} {s : State}

theorem finish_genprimeBody_of_rejected (h : bits < 2 ∨ s.params.w < bits ∨ s.cfgTrials = 0#32) :
    finish (genprimeBody need3 bits s) = .next (s.failed 1) := by
  have rejected : genprimeBody need3 bits s = invalidParameter s := by
    unfold genprimeBody
    split_ifs with few many zero
    · rfl
    · rfl
    · rfl
    · exact absurd h (by simp [few, many, zero])
  rw [rejected, finish_invalidParameter, raiseError_nothing_eq_failed]
  rfl

/-- Past its checks GENPRIME searches. -/
theorem genprimeBody_of_checked (two : 2 ≤ bits) (le : bits ≤ s.params.w) (trials : s.cfgTrials ≠ 0#32) :
    genprimeBody need3 bits s =
      endRun (primeSearch bits need3 s.cfgTrials.toNat s.cfgRetry.toNat 0 s.ext) .prime s fun found s =>
        .completes false false (s.setBn .r found.1) := by
  rw [genprimeBody, if_neg (by omega), if_neg (by omega), if_neg trials]

/-- The prime a search finds fits BN_R. -/
theorem bnValue_of_search {trials retry k p : Nat} {x y : Ports} (admitted : configAdmitted s.params = true)
    (two : 2 ≤ bits) (le : bits ≤ s.params.w) (run : primeSearch bits need3 trials retry 0 x = .yields (p, k) y) :
    (State.setBn { s with ext := y } .r p).bnValue .r = some p := by
  obtain ⟨-, below, -⟩ := primeSearch_yields two run
  exact bnValue_setBn_of_lt (s := { s with ext := y }) admitted .r
    (below.trans_le (Nat.pow_le_pow_right (by norm_num) le))

end

/-- Settles O24: the checks, then the three ends of the search. -/
theorem genprimeResult : Obligations.GenprimeResult := by
  intro s bits need3 i admitted hi
  rw [hi, exec_genprime]
  refine ⟨finish_genprimeBody_of_rejected, fun two le trials => ?_⟩
  rw [genprimeBody_of_checked two le trials]
  refine ⟨fun p k x run => ?_, fun x run => ?_, fun x run => ?_⟩
  · rw [run]
    exact ⟨_, rfl, rfl, bnValue_of_search admitted two le run⟩
  · rw [run]
    rfl
  · rw [run]
    rfl

/-- With an answer for each round and every round passed, the test says so and takes one answer a round. -/
theorem millerRabin_of_every_base_passes {n trials : Nat} {x : Ports} (enough : trials ≤ x.answers.length)
    (passes : ∀ b ∈ x.answers.take trials, mrRound n (inRange 2 (n - 2) b) = true) :
    ∃ y, millerRabin n trials x = .yields true y ∧ y.answers = x.answers.drop trials := by
  have all : (drawnBases n trials x).all (mrRound n) = true := by
    rw [drawnBases, List.all_eq_true, List.forall_mem_map]
    exact passes
  have length := drawnBases_length n trials x
  have passed := (all_mrRound_iff n trials x).mp all
  exact ⟨_, millerRabin_of_all_passed (by omega), rfl⟩

/-- A first candidate that qualifies is what the search finds. -/
theorem primeSearch_first {bits trials retry r c : Nat} {need3 : Bool} {rest : List Nat} {x : Ports}
    (answer : x.answers = r :: rest) (hc : c = candidate bits (r % 2 ^ bits)) (residue : need3 = true → c % 4 = 3)
    (qualifies : c ∈ Config.smallPrimes ∨ ((∀ p ∈ Config.smallPrimes, c % p ≠ 0) ∧ trials ≤ rest.length ∧
      ∀ b ∈ rest.take trials, mrRound c (inRange 2 (c - 2) b) = true)) :
    ∃ y, primeSearch bits need3 trials retry 0 x = .yields (c, 1) y ∧
      y.answers = rest.drop (if c ∈ Config.smallPrimes then 0 else trials) := by
  subst hc
  have taken : ¬(true = false ∨ (need3 = true ∧ candidate bits (r % 2 ^ bits) % 4 ≠ 3)) := by
    simpa using residue
  rw [primeSearch_of_answer (by omega) answer]
  rcases qualifies with listed | ⟨indivisible, enough, passes⟩
  · rw [probablePrime_of_listed listed, andThen_yields, if_neg taken, if_pos listed]
    exact ⟨_, rfl, rfl⟩
  · have notListed : candidate bits (r % 2 ^ bits) ∉ Config.smallPrimes := fun h => indivisible _ h (Nat.mod_self _)
    rw [probablePrime_of_indivisible indivisible, if_neg notListed]
    obtain ⟨y, run, answers⟩ := millerRabin_of_every_base_passes (n := candidate bits (r % 2 ^ bits))
      (x := ⟨rest, x.repliesLeft, x.history ++ [.randBits bits (r % 2 ^ bits)]⟩) enough passes
    rw [run, andThen_yields, if_neg taken]
    exact ⟨y, rfl, answers⟩

/-- Settles O25: the search finds the first candidate, and GENPRIME completes as its search does. -/
theorem genprimeFirstCandidate : Obligations.GenprimeFirstCandidate := by
  intro s bits need3 i r c rest admitted hi two le trials answer hc residue qualifies
  obtain ⟨y, run, answers⟩ := primeSearch_first (retry := s.cfgRetry.toNat) answer hc residue qualifies
  obtain ⟨-, searched⟩ := genprimeResult s bits need3 i admitted hi
  obtain ⟨found, -⟩ := searched two le trials
  obtain ⟨t, ends, frame, value⟩ := found c 1 y run
  have ext : t.ext = y := by rw [frame]
  exact ⟨t, ends, value, by rw [ext]; exact frame, by rw [ext]; exact answers⟩

/-- A candidate of 2 or more bits that no listed prime divides has bases in range. -/
theorem four_le_of_indivisible {c : Nat} (two : 2 ≤ c) (h : ∀ p ∈ Config.smallPrimes, c % p ≠ 0) : 4 ≤ c := by
  have h2 := h 2 (by decide)
  have h3 := h 3 (by decide)
  by_contra
  obtain rfl | rfl : c = 2 ∨ c = 3 := by omega
  · exact h2 rfl
  · exact h3 rfl

/-- What an accepted candidate's test leaves of the history: nothing for a listed prime, else the bases of all rounds. -/
theorem probablePrime_accepted {c trials : Nat} {z y : Ports} (two : 2 ≤ c) (h : probablePrime c trials z = .yields true y) :
    ∃ bases : List Nat, y.history = z.history ++ bases.map (fun b => .randRange 2 (c - 2) b) ∧
      ((c ∈ Config.smallPrimes ∧ bases = []) ∨ ((∀ p ∈ Config.smallPrimes, c % p ≠ 0) ∧ bases.length = trials ∧
        ∀ b ∈ bases, 2 ≤ b ∧ b ≤ c - 2 ∧ mrRound c b = true)) := by
  rcases probablePrime_true h with listed | ⟨unknown, run⟩
  · rw [probablePrime_of_listed listed] at h
    cases h
    exact ⟨[], by simp, .inl ⟨listed, rfl⟩⟩
  · have indivisible := trialDivBy_unknown unknown
    obtain ⟨bases, length, history, passed⟩ := millerRabin_passed (four_le_of_indivisible two indivisible) run
    exact ⟨bases, history, .inr ⟨indivisible, length, passed⟩⟩

/-- Settles O26: the history ends with the draw of the prime found and the bases of its test. -/
theorem genprimeResultRange : Obligations.GenprimeResultRange := by
  intro s t bits need3 admitted h done err
  rw [exec_genprime] at h
  rcases genprimeBody_next h with rfl | ⟨two, le, -, ⟨p, k, x, run, rfl⟩ | ⟨x, -, rfl⟩ | ⟨x, -, rfl⟩⟩
  · exact absurd err (by simp [statusRaised, ErrCode.code])
  · obtain ⟨ge, lt, odd, residue, -⟩ := primeSearch_yields two run
    obtain ⟨r, earlier, z, rfl, drawn, accepted⟩ := primeSearchLoop_history run
    have big : 2 ≤ candidate bits r :=
      le_trans (by simpa using Nat.pow_le_pow_right (n := 2) (by norm_num) (show 1 ≤ bits - 1 by omega)) ge
    obtain ⟨bases, history, tested⟩ := probablePrime_accepted big accepted
    refine ⟨candidate bits r, r, earlier, bases, bnValue_of_search admitted two le run, ge, lt, odd, residue, rfl, ?_, tested⟩
    show x.history = _
    rw [history, drawn]
    simp
  · exact absurd err (by simp [statusRaised, ErrCode.code])
  · cases done

end Sys2Proof.Machine
end

section
/-! QCG by residue and by length, and BBS (41_generators R112 to R118). -/

namespace Sys2Proof.Machine

/-! ## QCG (R112, R118) -/

/-- One step over all integers depends on the residue alone. -/
theorem qcg_emod (x : Int) : (1664525 * x ^ 2 + 1 * x + 1013904223) % (2 ^ 32 - 1) =
    (1664525 * (x % (2 ^ 32 - 1)) ^ 2 + 1 * (x % (2 ^ 32 - 1)) + 1013904223) % (2 ^ 32 - 1) := by
  have residue : x % (2 ^ 32 - 1) ≡ x [ZMOD 2 ^ 32 - 1] := Int.mod_modEq x _
  exact (((residue.pow 2).mul_left _).add (residue.mul_left _) |>.add_right _).symm

/-- Settles O29: the sequence is emitted from the residue. -/
theorem qcgSeedResidue : Obligations.QcgSeedResidue := by
  refine ⟨qcg_emod, fun s length seed hseed pos le => ⟨_, exec_qcg_of_seed pos le hseed, ?_⟩⟩
  have run := exec_qcg_of_seed (s := { s with seed := some (BitVec.ofNat 32 (seed.toNat % (2 ^ 32 - 1))) }) pos le rfl
  have word : (BitVec.ofNat 32 (seed.toNat % (2 ^ 32 - 1))).toNat = seed.toNat % Config.qcgM :=
    toNat_ofNat_of_lt ((Nat.mod_lt _ (by norm_num)).trans (by norm_num))
  rw [word, emitBits_qStep_mod] at run
  exact run

/-- A QCG request that ends in a next state below LMAX stores the parities of the iterates of its seed. -/
theorem qcg_cells {length : Nat} {s t : State} (pos : 1 ≤ length) (le : length ≤ s.params.lmax)
    (h : exec (.qcg length) s = .next t) :
    ∃ seed, s.seed = some seed ∧ ∀ k < length, Memory.get? t.bbuf k = some (decide (qStep^[k + 1] seed.toNat % 2 = 1)) := by
  cases hs : s.seed with
  | none =>
    rw [exec_qcg_of_seed_unwritten pos le hs] at h
    cases h
  | some seed =>
    rw [exec_qcg_of_seed pos le hs] at h
    cases h
    exact ⟨seed, rfl, fun k hk => memory_get_write_emitBits_of_lt _ _ _ hk⟩

/-- Settles O30: bit k is the parity of the same iterate in both requests. -/
theorem qcgPrefix : Obligations.QcgPrefix := by
  intro s t u short long pos le fits ht hu k hk
  obtain ⟨seed, hs, shortCells⟩ := qcg_cells pos (le.trans fits) ht
  obtain ⟨seed', hs', longCells⟩ := qcg_cells (pos.trans le) fits hu
  obtain rfl : seed = seed' := Option.some.inj (hs.symm.trans hs')
  rw [shortCells k hk, longCells k (hk.trans_le le)]
  exact ⟨rfl, rfl⟩

/-! ## The draws of BBS (R113, R114) -/

/-- Settles O31: each loop unrolls by one pass, and the start is its three stretches one after the other. -/
theorem bbsSetupAndSeed : Obligations.BbsSetupAndSeed := by
  refine ⟨fun bits p trials retry sampled x => ⟨fun q k y run => ?_, fun y run => ?_, fun y run => ?_⟩,
    fun nmod x => ⟨fun silent => ?_, fun r rest seed y answer hseed hy => ?_⟩, fun bits trials retry x => ?_⟩
  · rw [bbsFactor_eq, run, andThen_yields, ite_not]
  · rw [bbsFactor_eq, run, andThen_exhausted]
  · rw [bbsFactor_eq, run, andThen_waits]
  · rw [bbsSeedDraw_eq, randRange_nil silent, andThen_waits]
  · subst hseed hy
    rw [bbsSeedDraw_eq, randRange, draw_cons _ _ _ answer, andThen_yields]
  · simp only [bbsStart, bbsSetup, bbsSeed, andThen_assoc, andThen_yields]

/-! ## What a BBS command computes (R115, R116) -/

/-- A factor of BBS: exactly `pb` bits, and 3 mod 4 (R113). -/
def BlumFactor (pb c : Nat) : Prop :=
  2 ^ (pb - 1) ≤ c ∧ c < 2 ^ pb ∧ c % 4 = 3

theorem blumFactor_of_search {pb trials retry sampled c k : Nat} {x y : Ports} (two : 2 ≤ pb)
    (run : primeSearch pb true trials retry sampled x = .yields (c, k) y) : BlumFactor pb c := by
  obtain ⟨ge, lt, -, residue, -⟩ := primeSearch_yields two run
  exact ⟨ge, lt, residue rfl⟩

theorem blumFactors_of_bbsStart {pb trials retry p q x0 : Nat} {x y : Ports} (two : 2 ≤ pb)
    (run : bbsStart pb trials retry x = .yields ((p, q), x0) y) : p ≠ q ∧ BlumFactor pb p ∧ BlumFactor pb q := by
  obtain ⟨ne, ⟨_, _, _, hp⟩, ⟨_, _, _, _, hq⟩, -⟩ := bbsStart_yields run
  exact ⟨ne, blumFactor_of_search two hp, blumFactor_of_search two hq⟩

/-- The product of two factors fits W where 2·pb does. -/
theorem blumFactor_mul_lt {pb w p q : Nat} (hp : BlumFactor pb p) (hq : BlumFactor pb q) (le : 2 * pb ≤ w) :
    p * q < 2 ^ w := by
  obtain ⟨-, lt, -⟩ := hp
  obtain ⟨-, lt', -⟩ := hq
  calc p * q < 2 ^ pb * 2 ^ pb := Nat.mul_lt_mul'' lt lt'
    _ = 2 ^ (2 * pb) := by rw [← Nat.pow_add, two_mul]
    _ ≤ 2 ^ w := Nat.pow_le_pow_right (by norm_num) le

theorem blumFactor_lt {pb w p : Nat} (hp : BlumFactor pb p) (le : 2 * pb ≤ w) : p < 2 ^ w := by
  obtain ⟨-, lt, -⟩ := hp
  exact lt.trans_le (Nat.pow_le_pow_right (by norm_num) (by omega))

theorem blumFactor_pos {pb p : Nat} (hp : BlumFactor pb p) : 0 < p := by
  obtain ⟨-, -, residue⟩ := hp
  omega

/-- After at least one step the state of a recurrence modulo `nmod` is a residue. -/
theorem iterate_mod_lt {nmod count : Nat} (pos : 0 < nmod) (one : 1 ≤ count) (x : Nat) :
    (fun y => y * y % nmod)^[count] x < nmod := by
  obtain ⟨c, rfl⟩ : ∃ c, count = c + 1 := ⟨count - 1, by omega⟩
  rw [Function.iterate_succ_apply']
  exact Nat.mod_lt _ pos

theorem bStep_eq (nmod : Nat) : bStep nmod = fun y => y * y % nmod := rfl

section
variable {s : State} {p q nmod x : Nat}

theorem bnValue_setBbsResults (admitted : configAdmitted s.params = true) (hp : p < 2 ^ s.params.w)
    (hq : q < 2 ^ s.params.w) (hn : nmod < 2 ^ s.params.w) (hx : x < 2 ^ s.params.w) :
    (s.setBbsResults p q nmod x).bnValue .p = some p ∧ (s.setBbsResults p q nmod x).bnValue .q = some q ∧
      (s.setBbsResults p q nmod x).bnValue .nmod = some nmod ∧ (s.setBbsResults p q nmod x).bnValue .x = some x :=
  ⟨bnValue_setBn_of_lt admitted .p hp, bnValue_setBn_of_lt admitted .q hq, bnValue_setBn_of_lt admitted .nmod hn,
    bnValue_setBn_of_lt admitted .x hx⟩

end

/-- The registers a completed BBS leaves: the factors, their product and the last state (R116). -/
theorem bnValue_bbsResult {s : State} {pb length p q x0 : Nat} (admitted : configAdmitted s.params = true)
    (hp : BlumFactor pb p) (hq : BlumFactor pb q) (fits : 2 * pb ≤ s.params.w) (one : 1 ≤ length) :
    (bbsResult length ((p, q), x0) s).bnValue .p = some p ∧ (bbsResult length ((p, q), x0) s).bnValue .q = some q ∧
      (bbsResult length ((p, q), x0) s).bnValue .nmod = some (p * q) ∧
      (bbsResult length ((p, q), x0) s).bnValue .x = some ((fun y => y * y % (p * q))^[length] x0) := by
  have product := blumFactor_mul_lt hp hq fits
  have last := iterate_mod_lt (Nat.mul_pos (blumFactor_pos hp) (blumFactor_pos hq)) one x0
  rw [← bStep_eq, ← emitBits_snd] at last ⊢
  exact bnValue_setBbsResults (s := s.setSequence (emitBits (bStep (p * q)) length x0).1) admitted
    (blumFactor_lt hp fits) (blumFactor_lt hq fits) product (last.trans product)

/-! ## BBS (R116) -/

theorem exec_bbs (length : Nat) (s : State) : exec (.bbs length) s = finish (bbsBody length s) := rfl

section
variable {length : Nat} {s : State}

theorem exec_bbs_of_length_rejected (h : length = 0 ∨ s.params.lmax < length) :
    exec (.bbs length) s = .next (s.failed 1) := by
  rw [exec_bbs, bbsBody, (lengthAdmitted_eq_false_iff length s).mpr h, if_pos Bool.not_false, finish_invalidParameter,
    raiseError_nothing_eq_failed]
  rfl

theorem bbsBody_of_arg0_unwritten (pos : 1 ≤ length) (le : length ≤ s.params.lmax) (h : s.arg0 = none) :
    bbsBody length s = .faults .arg0 := by
  rw [bbsBody, (lengthAdmitted_iff length s).mpr ⟨pos, le⟩, if_neg (by decide), withArg0, h]

theorem exec_bbs_of_arg0_rejected {pb : Word} (pos : 1 ≤ length) (le : length ≤ s.params.lmax) (h : s.arg0 = some pb)
    (rejected : pb.toNat < 2 ∨ s.params.w < 2 * pb.toNat ∨ s.cfgTrials = 0#32) :
    exec (.bbs length) s = .next (s.failed 1) := by
  have body : bbsBody length s = invalidParameter s := by
    rw [bbsBody, (lengthAdmitted_iff length s).mpr ⟨pos, le⟩, if_neg (by decide), withArg0, h]
    dsimp only
    split_ifs with few many zero
    · rfl
    · rfl
    · rfl
    · exact absurd rejected (by simp [few, many, zero])
  rw [exec_bbs, body, finish_invalidParameter, raiseError_nothing_eq_failed]
  rfl

/-- Past its checks BBS draws its factors and seed. -/
theorem bbsBody_of_checked {pb : Word} (pos : 1 ≤ length) (le : length ≤ s.params.lmax) (h : s.arg0 = some pb)
    (two : 2 ≤ pb.toNat) (fits : 2 * pb.toNat ≤ s.params.w) (trials : s.cfgTrials ≠ 0#32) :
    bbsBody length s =
      endRun (bbsStart pb.toNat s.cfgTrials.toNat s.cfgRetry.toNat s.ext) .bbs s fun start s =>
        .completes false false (bbsResult length start s) := by
  rw [bbsBody, (lengthAdmitted_iff length s).mpr ⟨pos, le⟩, if_neg (by decide), withArg0, h]
  dsimp only
  rw [if_neg (by omega), if_neg (by omega), if_neg trials]
  rfl

end

end Sys2Proof.Machine

namespace Sys2Proof

-- Outside `Machine`, where the name is that of the state BBS writes.
open Machine in
/-- Settles O32: the checks, then the three ends of the draws; the cells are those of the emitted bits. -/
theorem bbsResult : Obligations.BbsResult := by
  intro s length admitted
  refine ⟨exec_bbs_of_length_rejected, fun pos le => ⟨fun unwritten => ?_, fun pb h =>
    ⟨exec_bbs_of_arg0_rejected pos le h, fun two fits trials => ?_⟩⟩⟩
  · rw [exec_bbs, bbsBody_of_arg0_unwritten pos le unwritten, finish_faults]
  rw [exec_bbs, bbsBody_of_checked pos le h two fits trials]
  refine ⟨fun p q x0 x run => ?_, fun x run => ?_, fun x run => ?_⟩
  · obtain ⟨-, hp, hq⟩ := blumFactors_of_bbsStart two run
    obtain ⟨valueP, valueQ, valueN, valueX⟩ :=
      bnValue_bbsResult (s := { s with ext := x }) (length := length) (x0 := x0) admitted hp hq fits pos
    rw [run]
    refine ⟨Machine.bbsResult length ((p, q), x0) { s with ext := x }, rfl, ?_, valueP, valueQ, valueN, valueX, ?_, ?_⟩
    · have blen : BitVec.ofNat 32 length = BitVec.ofNat 32 (emitBits (bStep (p * q)) length x0).1.length := by
        rw [emitBits_length]
      rw [blen]
      rfl
    · exact fun k hk => memory_get_write_emitBits_of_lt _ _ _ hk
    · exact fun k hk => memory_get_write_emitBits_of_ge _ _ _ hk
  · rw [run]
    rfl
  · rw [run]
    rfl

end Sys2Proof

namespace Sys2Proof.Machine

/-- Settles O33: a BBS that ends without an error completed from two factors. -/
theorem bbsFactors : Obligations.BbsFactors := by
  intro s t length pb admitted h e done err
  rcases execBbs_next e with rfl | ⟨pb', pos, -, h', two, fits, -, ⟨⟨⟨p, q⟩, x0⟩, x, run, rfl⟩ | ⟨x, -, rfl⟩ | ⟨x, -, rfl⟩⟩
  · exact absurd err (by simp [statusRaised, ErrCode.code])
  · obtain rfl : pb = pb' := Option.some.inj (h.symm.trans h')
    obtain ⟨ne, hp, hq⟩ := blumFactors_of_bbsStart two run
    obtain ⟨valueP, valueQ, valueN, valueX⟩ :=
      bnValue_bbsResult (s := { s with ext := x }) (length := length) (x0 := x0) admitted hp hq fits pos
    have last := iterate_mod_lt (Nat.mul_pos (blumFactor_pos hp) (blumFactor_pos hq)) pos x0
    obtain ⟨geP, ltP, residueP⟩ := hp
    obtain ⟨geQ, ltQ, residueQ⟩ := hq
    exact ⟨p, q, _, valueP, valueQ, valueN, valueX, ne, residueP, residueQ, geP, ltP, geQ, ltQ, last⟩
  · exact absurd err (by simp [statusRaised, ErrCode.code])
  · cases done

/-! ## Factors of 2, 3 or 4 bits (R117) -/

/-- The one prime of `bits` bits that is 3 mod 4, for 2, 3 and 4 bits. -/
def soleFactor (bits : Nat) : Nat :=
  if bits = 2 then 3 else if bits = 3 then 7 else 11

/-- Of 3, 7, 11 and 15 a search takes all but 15, which 3 divides. -/
theorem eq_soleFactor {bits c : Nat} (two : 2 ≤ bits) (four : bits ≤ 4) (factor : BlumFactor bits c)
    (taken : c ∈ Config.smallPrimes ∨ trialDiv c = .unknown) : c = soleFactor bits := by
  have decided : ∀ c < 16, c % 4 = 3 → (c ∈ Config.smallPrimes ∨ trialDiv c = .unknown) → c = 3 ∨ c = 7 ∨ c = 11 := by
    decide
  obtain ⟨ge, lt, residue⟩ := factor
  have small : c < 16 := lt.trans_le (Nat.pow_le_pow_right (n := 2) (by norm_num) four)
  have three := decided c small residue taken
  obtain rfl | rfl | rfl : bits = 2 ∨ bits = 3 ∨ bits = 4 := by omega
  · show c = 3
    omega
  · show c = 7
    omega
  · show c = 11
    omega

theorem eq_soleFactor_of_search {bits trials retry sampled c k : Nat} {x y : Ports} (two : 2 ≤ bits) (four : bits ≤ 4)
    (run : primeSearch bits true trials retry sampled x = .yields (c, k) y) : c = soleFactor bits := by
  obtain ⟨-, -, -, -, taken, -⟩ := primeSearch_yields two run
  exact eq_soleFactor two four (blumFactor_of_search two run) (taken.imp_right (·.1))

/-- With one factor alone, q never differs from p. -/
theorem bbsStart_ne_yields {bits trials retry : Nat} {x y : Ports} {start : (Nat × Nat) × Nat} (two : 2 ≤ bits)
    (four : bits ≤ 4) : bbsStart bits trials retry x ≠ .yields start y := by
  intro run
  obtain ⟨⟨p, q⟩, x0⟩ := start
  obtain ⟨ne, ⟨_, _, _, hp⟩, ⟨_, _, _, _, hq⟩, -⟩ := bbsStart_yields run
  exact ne ((eq_soleFactor_of_search two four hp).trans (eq_soleFactor_of_search two four hq).symm)

/-- Trial division decides every candidate of at most 4 bits, so its test draws nothing. -/
theorem probablePrime_small {bits r : Nat} (two : 2 ≤ bits) (four : bits ≤ 4) (hr : r < 2 ^ bits) (trials : Nat)
    (y : Ports) : ∃ ok, probablePrime (candidate bits r) trials y = .yields ok y := by
  have decided : ∀ c < 16, 2 ≤ c → trialDiv c ≠ .unknown := by decide
  have small : candidate bits r < 16 :=
    (candidate_lt two hr).trans_le (Nat.pow_le_pow_right (n := 2) (by norm_num) four)
  have big : 2 ≤ candidate bits r :=
    le_trans (by simpa using Nat.pow_le_pow_right (n := 2) (by norm_num) (show 1 ≤ bits - 1 by omega)) (candidate_ge _ _)
  unfold probablePrime
  cases h : trialDiv (candidate bits r) with
  | prime => exact ⟨true, rfl⟩
  | composite => exact ⟨false, rfl⟩
  | unknown => exact absurd h (decided _ small big)

/-- With an answer for each candidate left to sample, such a search is exhausted, or finds its prime and leaves an answer for
each candidate left then. -/
theorem primeSearch_small {bits trials retry : Nat} (two : 2 ≤ bits) (four : bits ≤ 4) (bounded : retry ≠ 0) (left : Nat)
    {sampled : Nat} {x : Ports} (hl : sampled + left = retry) (enough : left ≤ x.answers.length) :
    (∃ y, primeSearch bits true trials retry sampled x = .exhausted y) ∨
      ∃ c k y, primeSearch bits true trials retry sampled x = .yields (c, k) y ∧ k ≤ retry ∧
        retry - k ≤ y.answers.length := by
  induction left generalizing sampled x with
  | zero => exact .inl ⟨x, primeSearch_of_bound ⟨bounded, hl⟩⟩
  | succ left ih =>
    obtain ⟨r, rest, answer⟩ : ∃ r rest, x.answers = r :: rest := List.exists_cons_of_length_pos (by omega)
    have length : left ≤ rest.length := by
      rw [answer, List.length_cons] at enough
      omega
    obtain ⟨ok, run⟩ := probablePrime_small two four (Nat.mod_lt r (Nat.two_pow_pos bits)) trials
      ⟨rest, x.repliesLeft, x.history ++ [.randBits bits (r % 2 ^ bits)]⟩
    rw [primeSearch_of_answer (by omega) answer, run, andThen_yields]
    split
    · exact ih (by omega) length
    · exact .inr ⟨_, _, _, rfl, by omega, by show retry - (sampled + 1) ≤ rest.length; omega⟩

/-- Such a search for q, which finds p again each time, ends exhausted. -/
theorem bbsFactor_small {bits trials retry : Nat} (two : 2 ≤ bits) (four : bits ≤ 4) (bounded : retry ≠ 0) (left : Nat)
    {sampled : Nat} {x : Ports} (hl : sampled + left = retry) (enough : left ≤ x.answers.length) :
    ∃ y, bbsFactor bits (soleFactor bits) trials retry sampled x = .exhausted y := by
  induction left using Nat.strong_induction_on generalizing sampled x with
  | _ left ih =>
    rw [bbsFactor_eq]
    rcases primeSearch_small (trials := trials) two four bounded left hl enough with ⟨y, run⟩ | ⟨c, k, y, run, le, rest⟩
    · exact ⟨y, by rw [run, andThen_exhausted]⟩
    · obtain ⟨-, -, -, -, -, more, -⟩ := primeSearch_yields two run
      rw [run, andThen_yields, if_pos (eq_soleFactor_of_search two four run)]
      exact ih (retry - k) (sampled := k) (by omega) (by omega) rest

theorem bbsStart_small {bits trials retry : Nat} {x : Ports} (two : 2 ≤ bits) (four : bits ≤ 4) (bounded : retry ≠ 0)
    (enough : retry ≤ x.answers.length) : ∃ y, bbsStart bits trials retry x = .exhausted y := by
  unfold bbsStart bbsSetup
  rcases primeSearch_small (trials := trials) two four bounded retry (Nat.zero_add _) enough with
    ⟨y, run⟩ | ⟨c, k, y, run, le, rest⟩
  · exact ⟨y, by rw [run, andThen_exhausted, andThen_exhausted]⟩
  · obtain rfl := eq_soleFactor_of_search two four run
    obtain ⟨z, again⟩ := bbsFactor_small (trials := trials) (sampled := k) two four bounded (retry - k) (by omega) rest
    exact ⟨z, by rw [run, andThen_yields, again, andThen_exhausted, andThen_exhausted]⟩

/-- Settles O34: the draws never yield, so BBS is exhausted where the search is bounded and hangs where it is not. -/
theorem bbsSmallPrimeBits : Obligations.BbsSmallPrimeBits := by
  intro s t length pb admitted h two four trials pos le e
  have wide : 64 ≤ s.params.w := by
    simp only [configAdmitted, Bool.and_eq_true, decide_eq_true_eq] at admitted
    obtain ⟨⟨⟨⟨⟨-, w, -⟩, -⟩, -⟩, -⟩, -⟩ := admitted
    exact w
  rw [exec_bbs, bbsBody_of_checked pos le h two (by omega) trials] at e
  rcases finish_endRun e with ⟨start, x, run, -⟩ | ⟨x, run, rfl⟩ | ⟨x, run, rfl⟩
  · exact absurd run (bbsStart_ne_yields two four)
  · have bounded : s.cfgRetry ≠ 0#32 := fun zero => bbsStart_exhausted run (by rw [zero]; rfl)
    exact ⟨fun ends => absurd ends.2 (by simp [statusRaised, ErrCode.code]), fun zero => absurd zero bounded,
      fun _ _ => ⟨rfl, rfl⟩⟩
  · refine ⟨fun ends => Bool.false_ne_true ends.1, fun _ => ⟨rfl, rfl⟩, fun bounded enough => ?_⟩
    obtain ⟨y, exhausted⟩ := bbsStart_small (trials := s.cfgTrials.toNat) two four
      (Nat.one_le_iff_ne_zero.mp (toNat_pos_of_ne_zero bounded)) enough
    rw [exhausted] at run
    cases run

end Sys2Proof.Machine
end

section
/-! The YARROW unit, case by case (42_yarrow R121 to R131). -/

namespace Sys2Proof.Machine

/-! ## YINIT and YDROP (R121, R129) -/

theorem exec_yinit (s : State) : exec .yinit s = finish (yinitBody s) := rfl

theorem poolInit_default {p : Params} (h : p.altPool = none) : poolInit p = List.replicate p.elen 0#8 := by
  rw [poolInit, h]

theorem exec_yinit_of_threshold_zero {s : State} (h : s.cfgPg = 0#32 ∨ s.cfgPt = 0#32) :
    exec .yinit s = .next (s.failed 1) := by
  have rejected : yinitBody s = invalidParameter s := by
    unfold yinitBody
    split_ifs with pg pt
    · rfl
    · rfl
    · exact absurd h (by simp [pg, pt])
  rw [exec_yinit, rejected, finish_invalidParameter, raiseError_nothing_eq_failed]
  rfl

/-- Past its checks YINIT draws the key. -/
theorem exec_yinit_of_thresholds {s : State} (pg : s.cfgPg ≠ 0#32) (pt : s.cfgPt ≠ 0#32) :
    exec .yinit s = finish (endRun (entropyBytes s.params.k s.ext) .nothing s fun key s =>
      .completes false false { s with handle := some (newHandle s key) }) := by
  rw [exec_yinit, yinitBody, if_neg pg, if_neg pt]

/-- Settles O35: the checks, then the two ends of the draw of the key. -/
theorem yinitResult : Obligations.YinitResult := by
  intro s
  refine ⟨poolInit_default, exec_yinit_of_threshold_zero, fun pg pt => ?_⟩
  rw [exec_yinit_of_thresholds pg pt]
  refine ⟨fun silent => ?_, fun r rest key answer hkey => ?_⟩
  · have waits : entropyBytes s.params.k s.ext = .waits s.ext := by rw [entropyBytes, draw, silent]
    rw [waits]
    rfl
  · subst hkey
    rw [entropyBytes, draw_cons _ _ _ answer]
    rfl

/-- Settles O41: YDROP has no check and no draw. -/
theorem ydropResult : Obligations.YdropResult := fun _ => rfl

/-! ## The steps of one block request, every invocation answered (R122 to R126) -/

section
variable {p : Params} {h : Handle} {answers : List Nat} {history : List Event}

theorem rekeyIfDue_answered :
    rekeyIfDue p h ⟨answers, none, history⟩ =
      .yields { h with
          key := if h.pgRem = 0#32 then fitBlock p (cipherBlock p h.key h.ctr) else h.key
          pgRem := if h.pgRem = 0#32 then h.pg else h.pgRem }
        ⟨answers, none, history ++
          if h.pgRem = 0#32 then [.encryptBlock h.key h.ctr (cipherBlock p h.key h.ctr)] else []⟩ := by
  unfold rekeyIfDue
  split
  · rfl
  · rw [List.append_nil]

theorem emitBlock_answered :
    emitBlock p h ⟨answers, none, history⟩ =
      .yields (cipherBlock p h.key h.ctr,
          { h with ctr := nextCtr p h.ctr, pgRem := h.pgRem - 1#32, ptRem := h.ptRem - 1#32 })
        ⟨answers, none, history ++ [.encryptBlock h.key h.ctr (cipherBlock p h.key h.ctr)]⟩ := rfl

theorem reseed_answered {r : Nat} {rest : List Nat} {raw pool e v1 v2 v3 d : List Byte} (chain : p.altChain = none)
    (hraw : raw = bytesOfNat p.elen r) (hpool : pool = poolAccum p h.pool raw) (he : e = poolOut p pool)
    (h1 : v1 = hashBytes p (h.key ++ e)) (h2 : v2 = hashBytes p (v1 ++ e)) (h3 : v3 = hashBytes p (v2 ++ e))
    (hd : d = hashBytes p (v3 ++ h.key)) :
    reseed p h ⟨r :: rest, none, history⟩ =
      .yields { h with pool := pool, key := fitDigest p d, ctr := nextCtr p h.ctr, ptRem := h.pt }
        ⟨rest, none, history ++ [.entropyBytes p.elen raw, .hash (h.key ++ e) v1, .hash (v1 ++ e) v2, .hash (v2 ++ e) v3,
          .hash (v3 ++ h.key) d]⟩ := by
  have entropy : entropyBytes p.elen ⟨r :: rest, none, history⟩ =
      .yields raw ⟨rest, none, history ++ [.entropyBytes p.elen raw]⟩ := by
    rw [hraw]
    rfl
  have hashes := chain3_default chain h.key e rest (history ++ [.entropyBytes p.elen raw]) v1 v2 v3 h1 h2 h3
  rw [reseed, entropy, andThen_yields]
  dsimp only
  rw [← hpool, ← he, hashes, andThen_yields, invokeHash, invoke_answered, andThen_yields, ← hd]
  simp

end

/-- Settles O36: the default adaptors, then the three steps one after the other. -/
theorem blockRequestSteps : Obligations.BlockRequestSteps := by
  refine ⟨fun p => ⟨fun default whole le block => ⟨fitBlock_length default le block,
    fun j hj => fitBlock_getElem default whole le block hj⟩, fun default digest => by rw [fitDigest, default],
    fun default => ⟨fun pool raw => by rw [poolAccum, default], fun pool => by rw [poolOut, default]⟩⟩, ?_⟩
  intro p h answers history fired key1 pg1 chain hkey hfired hpg
  rw [blockRequest, rekeyIfDue_answered, andThen_yields, ← hkey, ← hfired, ← hpg, reseedIfDue]
  dsimp only
  refine ⟨fun notDue => ?_, fun due silent => ?_, ?_⟩
  · rw [if_neg notDue, andThen_yields, emitBlock_answered]
    rfl
  · subst silent
    rw [if_pos due]
    rfl
  · intro due r rest raw pool e v1 v2 v3 d key2 ctr2 answer hraw hpool he h1 h2 h3 hd hkey2 hctr
    subst answer hkey2 hctr
    rw [if_pos due, reseed_answered (h := { h with key := key1, pgRem := pg1 }) chain hraw hpool he h1 h2 h3 hd,
      andThen_yields, emitBlock_answered]
    simp [nextCtr]

/-! ## The counter (R130, R131) -/

/-- The counter the emitted block of the next request is encrypted with: one more when a reseed comes before it. -/
def emittedCtr (p : Params) (h : Handle) : Nat :=
  if h.ptRem = 0#32 then nextCtr p h.ctr else h.ctr

/-- A block request ends with the event of its emitted block. -/
theorem blockRequest_event {p : Params} {h h' : Handle} {x y : Ports} {b : Nat}
    (e : blockRequest p h x = .yields (b, h') y) :
    ∃ key, y.history.getLast? = some (.encryptBlock key (emittedCtr p h) b) := by
  rw [blockRequest, andThen_eq_yields] at e
  obtain ⟨h1, x1, e1, e⟩ := e
  rw [andThen_eq_yields] at e
  obtain ⟨h2, x2, e2, e⟩ := e
  rw [emitBlock, andThen_eq_yields] at e
  obtain ⟨b', x3, e3, e⟩ := e
  obtain ⟨rfl, -, history⟩ := invoke_eq_yields e3
  cases e
  obtain ⟨ctr, -, -, -, ptRem, -⟩ := rekeyIfDue_yields e1
  obtain ⟨-, -, -, -, ctr2⟩ := reseedIfDue_yields e2
  refine ⟨h2.key, ?_⟩
  rw [history, List.getLast?_concat, emittedCtr, ctr2, ctr, ptRem]

theorem blockRequest_ctr {p : Params} {h h' : Handle} {x y : Ports} {b : Nat}
    (e : blockRequest p h x = .yields (b, h') y) : h'.ctr = nextCtr p (emittedCtr p h) := by
  obtain ⟨-, -, -, -, ctr, -⟩ := blockRequest_yields e
  exact ctr

theorem nextCtr_modEq (p : Params) (c : Nat) : nextCtr p c ≡ c + 1 [MOD 2 ^ p.cw] :=
  Nat.mod_modEq _ _

theorem emittedCtr_modEq (p : Params) (h : Handle) : ∃ i ≤ 1, emittedCtr p h ≡ h.ctr + i [MOD 2 ^ p.cw] := by
  unfold emittedCtr
  split
  · exact ⟨1, le_rfl, nextCtr_modEq p h.ctr⟩
  · exact ⟨0, Nat.zero_le 1, rfl⟩

/-- A block request adds 1 or 2 to the counter. -/
theorem blockRequest_ctr_modEq {p : Params} {h h' : Handle} {x y : Ports} {b : Nat}
    (e : blockRequest p h x = .yields (b, h') y) : ∃ i ≤ 1, h'.ctr ≡ h.ctr + i + 1 [MOD 2 ^ p.cw] := by
  obtain ⟨i, le, emitted⟩ := emittedCtr_modEq p h
  refine ⟨i, le, ?_⟩
  rw [blockRequest_ctr e]
  exact (nextCtr_modEq p _).trans (emitted.add_right 1)

/-- A run of `n` block requests adds between `n` and `2n` to the counter. -/
theorem blockRequests_ctr_modEq {p : Params} {n : Nat} {h h' : Handle} {x y : Ports} {blocks : List Nat}
    (e : blockRequests p n h x = .yields (blocks, h') y) :
    ∃ j, n ≤ j ∧ j ≤ 2 * n ∧ h'.ctr ≡ h.ctr + j [MOD 2 ^ p.cw] := by
  induction n generalizing h x blocks with
  | zero =>
    cases e
    exact ⟨0, le_rfl, le_rfl, rfl⟩
  | succ k ih =>
    rw [blockRequests, andThen_eq_yields] at e
    obtain ⟨⟨b, h1⟩, x1, e1, e⟩ := e
    rw [andThen_eq_yields] at e
    obtain ⟨⟨bs, h2⟩, x2, e2, e⟩ := e
    cases e
    obtain ⟨i, hi, first⟩ := blockRequest_ctr_modEq e1
    obtain ⟨j, ge, le, rest⟩ := ih e2
    refine ⟨i + 1 + j, by omega, by omega, rest.trans ?_⟩
    simpa [Nat.add_assoc] using first.add_right j

/-- Settles O37: the two emitted counters differ by more than 0 and less than 2^CW. -/
theorem counterMonotone : Obligations.CounterMonotone := by
  intro p h h1 x x1 b wide ctr e
  refine ⟨?_, fun m blocks h2 h3 x2 x3 b' k k' c c' few run e' last last' same => ?_⟩
  · rw [blockRequest_ctr e, emittedCtr]
    split
    · exact .inr (by simp [nextCtr, Nat.add_assoc])
    · exact .inl rfl
  · obtain ⟨key, event⟩ := blockRequest_event e
    obtain ⟨key', event'⟩ := blockRequest_event e'
    obtain ⟨-, rfl, -⟩ := Event.encryptBlock.inj (Option.some.inj (last.symm.trans event))
    obtain ⟨-, rfl, -⟩ := Event.encryptBlock.inj (Option.some.inj (last'.symm.trans event'))
    obtain ⟨j, -, le, between⟩ := blockRequests_ctr_modEq run
    obtain ⟨i, one, emitted⟩ := emittedCtr_modEq p h2
    have first : h1.ctr ≡ emittedCtr p h + 1 [MOD 2 ^ p.cw] := blockRequest_ctr e ▸ nextCtr_modEq p _
    have apart : emittedCtr p h + 0 ≡ emittedCtr p h + (1 + j + i) [MOD 2 ^ p.cw] := by
      have steps := (emitted.trans (between.add_right i)).trans ((first.add_right j).add_right i)
      rw [← same] at steps
      simpa [Nat.add_assoc] using steps
    have double : 2 ^ p.cw = 2 * 2 ^ (p.cw - 1) := by
      rw [← Nat.pow_succ', Nat.succ_eq_add_one, Nat.sub_add_cancel wide]
    have zero : 1 + j + i = 0 :=
      Nat.eq_zero_of_dvd_of_lt (Nat.modEq_zero_iff_dvd.mp (apart.add_left_cancel').symm) (by omega)
    omega

/-! ## The cadence (R130) -/

/-- A countdown from `limit` after `n` requests, reloaded by each request that finds it at 0. -/
def countdown (limit : Nat) : Nat → Nat
  | 0 => limit
  | n + 1 => (if countdown limit n = 0 then limit else countdown limit n) - 1

theorem succ_mod {limit : Nat} (pos : 1 ≤ limit) (n : Nat) :
    (n + 1) % limit = if n % limit + 1 = limit then 0 else n % limit + 1 := by
  have lt := Nat.mod_lt n pos
  rw [← Nat.mod_add_mod]
  split
  · next wraps => rw [wraps, Nat.mod_self]
  · exact Nat.mod_eq_of_lt (by omega)

/-- A countdown and the requests since its last reload make up the limit. -/
theorem countdown_succ {limit : Nat} (pos : 1 ≤ limit) (n : Nat) : countdown limit (n + 1) + n % limit + 1 = limit := by
  induction n with
  | zero =>
    have first : countdown limit 1 = limit - 1 := by
      rw [countdown, countdown, if_neg (by omega)]
    rw [first, Nat.zero_mod]
    omega
  | succ n ih =>
    rw [countdown, succ_mod pos]
    split <;> split <;> omega

theorem countdown_eq_zero_iff {limit : Nat} (pos : 1 ≤ limit) (n : Nat) :
    countdown limit n = 0 ↔ 1 ≤ n ∧ n % limit = 0 := by
  cases n with
  | zero =>
    simp only [countdown]
    omega
  | succ n =>
    have total := countdown_succ pos n
    rw [succ_mod pos]
    split <;> omega

/-- The countdown of a handle's word, where its threshold is not 0. -/
theorem countdown_word {limit rem : Word} (pos : limit ≠ 0#32) {n : Nat} (h : rem.toNat = countdown limit.toNat n) :
    ((if rem = 0#32 then limit else rem) - 1#32).toNat = countdown limit.toNat (n + 1) := by
  have zero : rem = 0#32 ↔ countdown limit.toNat n = 0 := by
    rw [← h]
    exact BitVec.toNat_inj.symm
  simp only [countdown, zero, ← h]
  split <;> bv_omega

/-- The reseeds due before request `n + 1`: one more where `n` is a multiple of the threshold. -/
theorem div_eq_pred_div_add (n limit : Nat) :
    n / limit = (n - 1) / limit + if 1 ≤ n ∧ n % limit = 0 then 1 else 0 := by
  cases n with
  | zero => simp
  | succ n => simp [Nat.succ_div, Nat.dvd_iff_mod_eq_zero]

/-- Where a handle `h` stands after `n` requests of the fresh handle `fresh` (R130). -/
structure Paced (p : Params) (fresh : Handle) (n : Nat) (h : Handle) : Prop where
  pg : h.pg = fresh.pg
  pt : h.pt = fresh.pt
  pgRem : h.pgRem.toNat = countdown fresh.pg.toNat n
  ptRem : h.ptRem.toNat = countdown fresh.pt.toNat n
  ctr : h.ctr = (n + (n - 1) / fresh.pt.toNat) % 2 ^ p.cw

section
variable {p : Params} {fresh : Handle} {n : Nat}

theorem word_eq_zero_iff_of_countdown {limit rem : Word} (pos : limit ≠ 0#32) (h : rem.toNat = countdown limit.toNat n) :
    rem = 0#32 ↔ 1 ≤ n ∧ n % limit.toNat = 0 := by
  rw [← countdown_eq_zero_iff (toNat_pos_of_ne_zero pos), ← h]
  exact BitVec.toNat_inj.symm

theorem emittedCtr_of_paced {h : Handle} (pt : fresh.pt ≠ 0#32) (paced : Paced p fresh n h) :
    emittedCtr p h = (n + n / fresh.pt.toNat) % 2 ^ p.cw := by
  rw [emittedCtr, paced.ctr, div_eq_pred_div_add n, nextCtr]
  simp only [word_eq_zero_iff_of_countdown pt paced.ptRem]
  split
  · rw [Nat.mod_add_mod, Nat.add_assoc]
  · rfl

theorem paced_blockRequest {h h' : Handle} {x y : Ports} {b : Nat} (pg : fresh.pg ≠ 0#32) (pt : fresh.pt ≠ 0#32)
    (paced : Paced p fresh n h) (e : blockRequest p h x = .yields (b, h') y) : Paced p fresh (n + 1) h' := by
  obtain ⟨pg', pt', pgRem, ptRem, -⟩ := blockRequest_yields e
  refine ⟨pg'.trans paced.pg, pt'.trans paced.pt, ?_, ?_, ?_⟩
  · rw [pgRem, paced.pg]
    exact countdown_word pg paced.pgRem
  · rw [ptRem, paced.pt]
    exact countdown_word pt paced.ptRem
  · rw [blockRequest_ctr e, emittedCtr_of_paced pt paced, nextCtr, Nat.mod_add_mod, Nat.add_sub_cancel, Nat.add_right_comm]

/-- The last request of a run comes after a run of the others. -/
theorem blockRequests_succ {h h' : Handle} {x y : Ports} {blocks : List Nat}
    (e : blockRequests p (n + 1) h x = .yields (blocks, h') y) :
    ∃ earlier h1 x1 b, blockRequests p n h x = .yields (earlier, h1) x1 ∧ blockRequest p h1 x1 = .yields (b, h') y := by
  rw [blockRequests_add, andThen_eq_yields] at e
  obtain ⟨⟨earlier, h1⟩, x1, e1, e⟩ := e
  simp only [blockRequests, andThen_assoc, andThen_yields] at e
  rw [andThen_eq_yields] at e
  obtain ⟨⟨b, h2⟩, x2, e2, e⟩ := e
  cases e
  exact ⟨earlier, h1, x1, b, e1, e2⟩

theorem paced_blockRequests {h' : Handle} {x y : Ports} {blocks : List Nat} (ctr : fresh.ctr = 0)
    (pgRem : fresh.pgRem = fresh.pg) (ptRem : fresh.ptRem = fresh.pt) (pg : fresh.pg ≠ 0#32) (pt : fresh.pt ≠ 0#32)
    (e : blockRequests p n fresh x = .yields (blocks, h') y) : Paced p fresh n h' := by
  induction n generalizing h' y blocks with
  | zero =>
    cases e
    exact ⟨rfl, rfl, by rw [pgRem]; rfl, by rw [ptRem]; rfl, by rw [ctr]; simp⟩
  | succ n ih =>
    obtain ⟨earlier, h1, x1, b, e1, e2⟩ := blockRequests_succ e
    exact paced_blockRequest pg pt (ih e1) e2

end

/-- Settles O38: the handle's countdowns and its next emitted counter, by the number of requests. -/
theorem cadence : Obligations.Cadence := by
  intro p h h1 x x1 n blocks ctr pgRem ptRem pg pt e
  have paced := paced_blockRequests ctr pgRem ptRem pg pt e
  refine ⟨word_eq_zero_iff_of_countdown pg paced.pgRem, word_eq_zero_iff_of_countdown pt paced.ptRem,
    fun b h2 x2 e2 => ?_⟩
  rw [← emittedCtr_of_paced pt paced]
  exact blockRequest_event e2

/-! ## YGEN (R127, R128) -/

/-- The bits YGEN keeps of its blocks. -/
def blockBits (width need : Nat) (blocks : List Nat) : List Bool :=
  (blocks.flatMap (bitsOfNat width)).take need

theorem flatMap_bits_length (width : Nat) (blocks : List Nat) :
    (blocks.flatMap (bitsOfNat width)).length = width * blocks.length := by
  induction blocks with
  | nil => rfl
  | cons b rest ih =>
    rw [List.flatMap_cons, List.length_append, bitsOfNat_length, ih, List.length_cons]
    ring

/-- The blocks a YGEN requests have enough bits (R128). -/
theorem le_mul_ceil {width : Nat} (pos : 1 ≤ width) (need : Nat) : need ≤ width * ((need + width - 1) / width) := by
  have whole := Nat.div_add_mod (need + width - 1) width
  have lt := Nat.mod_lt (need + width - 1) pos
  omega

theorem blockBits_length {width need : Nat} {blocks : List Nat} (enough : need ≤ width * blocks.length) :
    (blockBits width need blocks).length = need := by
  rw [blockBits, List.length_take, flatMap_bits_length, Nat.min_eq_left enough]

theorem blockBits_getElem? {width need k : Nat} (pos : 1 ≤ width) (blocks : List Nat) (h : k < need) :
    (blockBits width need blocks)[k]? = blocks[k / width]?.map (fun b => b.testBit (width - 1 - k % width)) := by
  rw [blockBits, List.getElem?_take_of_lt h, flatMap_bits_getElem? pos]

theorem exec_ygen (length : Nat) (s : State) : exec (.ygen length) s = finish (ygenBody length s) := rfl

section
variable {length : Nat} {s : State}

theorem exec_ygen_of_length_rejected (h : length = 0 ∨ s.params.lmax < length) :
    exec (.ygen length) s = .next (s.failed 1) := by
  rw [exec_ygen, ygenBody, (lengthAdmitted_eq_false_iff length s).mpr h, if_pos Bool.not_false, finish_invalidParameter,
    raiseError_nothing_eq_failed]
  rfl

theorem exec_ygen_of_no_handle (pos : 1 ≤ length) (le : length ≤ s.params.lmax) (h : s.handle = none) :
    exec (.ygen length) s = .next (s.failed 1) := by
  rw [exec_ygen, ygenBody, (lengthAdmitted_iff length s).mpr ⟨pos, le⟩, if_neg (by decide), h, finish_invalidParameter,
    raiseError_nothing_eq_failed]
  rfl

/-- Past its checks YGEN makes its block requests. -/
theorem exec_ygen_of_handle {hd : Handle} (blk : 1 ≤ s.params.blk) (pos : 1 ≤ length) (le : length ≤ s.params.lmax)
    (h : s.handle = some hd) :
    exec (.ygen length) s = finish (endRun
      ((blockRequests s.params ((length + s.params.blk - 1) / s.params.blk) hd s.ext).andThen fun out y =>
        .yields (blockBits s.params.blk length out.1, out.2) y) .nothing s fun out s =>
      .completes false false { s.setSequence out.1 with handle := some out.2 }) := by
  rw [exec_ygen, ygenBody, (lengthAdmitted_iff length s).mpr ⟨pos, le⟩, if_neg (by decide), h]
  dsimp only
  rw [ygenLoop_eq blk length length hd s.ext le_rfl]
  rfl

/-- The state a YGEN completes in, from the blocks, the handle and the ports its requests leave. -/
def ygenState (length : Nat) (blocks : List Nat) (hd : Handle) (x : Ports) (s : State) : State :=
  { s with
    ext := x
    handle := some hd
    bbuf := Memory.write s.bbuf 0 (blockBits s.params.blk length blocks)
    blen := BitVec.ofNat 32 length }

theorem exec_ygen_of_requests {hd hd' : Handle} {blocks : List Nat} {x : Ports} (blk : 1 ≤ s.params.blk) (pos : 1 ≤ length)
    (le : length ≤ s.params.lmax) (h : s.handle = some hd)
    (run : blockRequests s.params ((length + s.params.blk - 1) / s.params.blk) hd s.ext = .yields (blocks, hd') x) :
    exec (.ygen length) s = .next ((ygenState length blocks hd' x s).completed false false) := by
  have bits : (blockBits s.params.blk length blocks).length = length :=
    blockBits_length (by rw [blockRequests_length run]; exact le_mul_ceil blk length)
  have stored : State.setSequence { s with ext := x } (blockBits s.params.blk length blocks) =
      { s with
        ext := x
        bbuf := Memory.write s.bbuf 0 (blockBits s.params.blk length blocks)
        blen := BitVec.ofNat 32 length } := by rw [State.setSequence, bits]
  rw [exec_ygen_of_handle blk pos le h, run, andThen_yields, endRun, finish_completes, stored]
  rfl

end

/-- Settles O39: the checks, then the two ends of the block requests. -/
theorem ygenResult : Obligations.YgenResult := by
  intro s length admitted
  have blk := blk_pos_of_admitted admitted
  refine ⟨exec_ygen_of_length_rejected, fun pos le => ⟨exec_ygen_of_no_handle pos le, fun hd n h hn => ?_⟩⟩
  subst hn
  refine ⟨fun blocks hd' x run => ?_, fun x run => ?_, fun answered enough => ?_⟩
  · have count := blockRequests_length run
    have enough : length ≤ s.params.blk * blocks.length := count ▸ le_mul_ceil blk length
    refine ⟨_, exec_ygen_of_requests blk pos le h run, fun k hk => ?_, fun k hk => ?_⟩
    · have inside : k / s.params.blk < blocks.length := Nat.div_lt_of_lt_mul (hk.trans_le enough)
      have stored : k < (blockBits s.params.blk length blocks).length := by rwa [blockBits_length enough]
      refine ⟨blocks[k / s.params.blk], List.getElem?_eq_getElem inside, ?_⟩
      rw [memory_get_write_of_lt _ _ stored, ← List.getElem?_eq_getElem stored, blockBits_getElem? blk blocks hk,
        List.getElem?_eq_getElem inside, Option.map_some]
    · exact memory_get_write_of_ge _ _ (by rwa [blockBits_length enough])
  · rw [exec_ygen_of_handle blk pos le h, run]
    rfl
  · obtain ⟨blocks, hd', x, run, -⟩ := blockRequests_answered s.params _ hd answered enough
    exact ⟨blocks, hd', x, run⟩

/-- A YGEN that ends without an error did so from its block requests. -/
theorem ygen_completed {length : Nat} {s t : State} (admitted : configAdmitted s.params = true)
    (e : exec (.ygen length) s = .next t) (done : t.status.done = true) (err : t.status.err = 0#4) :
    ∃ hd blocks hd' x, s.handle = some hd ∧ 1 ≤ length ∧ length ≤ s.params.lmax ∧
      blockRequests s.params ((length + s.params.blk - 1) / s.params.blk) hd s.ext = .yields (blocks, hd') x ∧
      t = (ygenState length blocks hd' x s).completed false false := by
  have blk := blk_pos_of_admitted admitted
  rcases execYgen_next e with rfl | ⟨hd, pos, le, h, ⟨bits, hd', x, run, -⟩ | ⟨x, -, rfl⟩ | ⟨x, -, rfl⟩⟩
  · exact absurd err (by simp [statusRaised, ErrCode.code])
  · obtain ⟨-, blocks, requests⟩ := ygenLoop_yields blk run
    refine ⟨hd, blocks, hd', x, h, pos, le, requests, ?_⟩
    rw [exec_ygen_of_requests blk pos le h requests] at e
    cases e
    rfl
  · exact absurd err (by simp [statusRaised, ErrCode.code])
  · cases done

/-- The bits of two runs of blocks are the bits of the first, which are whole blocks, and then those of the second. -/
theorem blockBits_append {width a b : Nat} {first second : List Nat} (whole : a = width * first.length) :
    blockBits width (a + b) (first ++ second) = blockBits width a first ++ blockBits width b second := by
  have length := flatMap_bits_length width first
  have all (n : Nat) (le : a ≤ n) : (first.flatMap (bitsOfNat width)).take n = first.flatMap (bitsOfNat width) :=
    List.take_of_length_le (by omega)
  rw [blockBits, blockBits, blockBits, List.flatMap_append, List.take_append, length, ← whole, Nat.add_sub_cancel_left,
    all _ (Nat.le_add_right a b), all a le_rfl]

/-- The number of blocks for whole blocks and more (R128). -/
theorem ceil_mul_add {width : Nat} (pos : 1 ≤ width) (q b : Nat) :
    (width * q + b + width - 1) / width = q + (b + width - 1) / width := by
  rw [Nat.add_assoc, Nat.add_sub_assoc (by omega), Nat.mul_add_div pos]

theorem ceil_mul {width : Nat} (pos : 1 ≤ width) (q : Nat) : (width * q + width - 1) / width = q := by
  rw [Nat.add_sub_assoc pos, Nat.mul_add_div pos, Nat.div_eq_of_lt (by omega), Nat.add_zero]

theorem memory_get_write_append_left {α : Type} (m m' : Memory α) {xs : List α} (ys : List α) {k : Nat}
    (h : k < xs.length) : Memory.get? (Memory.write m 0 (xs ++ ys)) k = Memory.get? (Memory.write m' 0 xs) k := by
  rw [memory_get_write_of_lt _ _ (by simp; omega), memory_get_write_of_lt _ _ h, List.getElem_append_left h]

theorem memory_get_write_append_right {α : Type} (m m' : Memory α) (xs : List α) {ys : List α} {k : Nat}
    (h : k < ys.length) :
    Memory.get? (Memory.write m 0 (xs ++ ys)) (xs.length + k) = Memory.get? (Memory.write m' 0 ys) k := by
  rw [memory_get_write_of_lt _ _ (by simp; omega), memory_get_write_of_lt _ _ h, List.getElem_append_right (by omega)]
  simp

/-- Settles O40: the requests of the sum are those of the first command and then those of the second. -/
theorem ygenSplit : Obligations.YgenSplit := by
  intro s t u v a b admitted posA posB fits whole ht doneT errT hu doneU errU hv
  have blk := blk_pos_of_admitted admitted
  obtain ⟨hd, first, hd1, x1, h, -, -, run1, rfl⟩ := ygen_completed admitted ht doneT errT
  obtain ⟨hd1', second, hd2, x2, h1, -, -, run2, rfl⟩ :=
    ygen_completed (s := (ygenState a first hd1 x1 s).completed false false) admitted hu doneU errU
  cases h1
  change blockRequests s.params ((b + s.params.blk - 1) / s.params.blk) hd1 x1 = _ at run2
  obtain ⟨q, rfl⟩ := Nat.dvd_of_mod_eq_zero whole
  rw [ceil_mul blk] at run1
  have run : blockRequests s.params ((s.params.blk * q + b + s.params.blk - 1) / s.params.blk) hd s.ext =
      .yields (first ++ second, hd2) x2 := by
    rw [ceil_mul_add blk, blockRequests_add, run1, andThen_yields, run2, andThen_yields]
  rw [exec_ygen_of_requests blk (by omega) fits h run] at hv
  cases hv
  have count : first.length = q := blockRequests_length run1
  have enough : b ≤ s.params.blk * second.length := by
    rw [blockRequests_length run2]
    exact le_mul_ceil blk b
  have bits := blockBits_append (b := b) (first := first) (second := second) (show s.params.blk * q = _ by rw [count])
  have lengthA : (blockBits s.params.blk (s.params.blk * q) first).length = s.params.blk * q :=
    blockBits_length (by rw [count])
  refine ⟨rfl, rfl, rfl, fun k hk => ?_, fun k hk => ?_⟩
  · have left := memory_get_write_append_left s.bbuf s.bbuf (blockBits s.params.blk b second) (k := k)
      (xs := blockBits s.params.blk (s.params.blk * q) first) (by rwa [lengthA])
    rw [← bits] at left
    exact left
  · have right := memory_get_write_append_right s.bbuf (ygenState (s.params.blk * q) first hd1 x1 s).bbuf
      (blockBits s.params.blk (s.params.blk * q) first) (ys := blockBits s.params.blk b second) (k := k)
      (by rwa [blockBits_length enough])
    rw [← bits, lengthA] at right
    exact right

end Sys2Proof.Machine
end

section
/-! The comparisons, the independence of the tests, and the round trip of PACK and UNPACK, settled (43_stat_tests R142, R153;
44_packing R162). -/

namespace Sys2Proof.Machine

/-! ## The comparisons are those of the reals (R142) -/

theorem sq_div_sqrt (num den2 : Nat) : ((num : ℝ) / Real.sqrt den2) ^ 2 = (num : ℝ) ^ 2 / den2 := by
  rw [div_pow, Real.sq_sqrt (Nat.cast_nonneg den2)]

section
variable {den2 : Nat} (pos : 0 < den2) (num : Nat) (c : Word)
include pos

theorem div_sqrt_le_const_iff :
    (num : ℝ) / Real.sqrt den2 ≤ (c.toNat : ℝ) / 10 ^ 8 ↔ num ^ 2 * 10 ^ 16 ≤ c.toNat ^ 2 * den2 := by
  have real : (0 : ℝ) < den2 := Nat.cast_pos.mpr pos
  rw [← sq_le_sq₀ (by positivity) (by positivity), sq_div_sqrt, div_pow, div_le_div_iff₀ real (by positivity)]
  norm_num
  exact_mod_cast Iff.rfl

theorem div_sqrt_lt_const_iff :
    (num : ℝ) / Real.sqrt den2 < (c.toNat : ℝ) / 10 ^ 8 ↔ num ^ 2 * 10 ^ 16 < c.toNat ^ 2 * den2 := by
  have real : (0 : ℝ) < den2 := Nat.cast_pos.mpr pos
  rw [← sq_lt_sq₀ (by positivity) (by positivity), sq_div_sqrt, div_pow, div_lt_div_iff₀ real (by positivity)]
  norm_num
  exact_mod_cast Iff.rfl

end

/-- A numerator not above 0 is below every positive threshold. -/
theorem div_sqrt_lt_of_nonpos {num : Int} (nonpos : num ≤ 0) {c : Word} (nonzero : c ≠ 0#32) (den2 : Nat) :
    (num : ℝ) / Real.sqrt den2 < (c.toNat : ℝ) / 10 ^ 8 := by
  have left : (num : ℝ) / Real.sqrt den2 ≤ 0 :=
    div_nonpos_of_nonpos_of_nonneg (Int.cast_nonpos.mpr nonpos) (Real.sqrt_nonneg _)
  have right : (0 : ℝ) < c.toNat := Nat.cast_pos.mpr (toNat_pos_of_ne_zero nonzero)
  exact left.trans_lt (by positivity)

/-- Settles O48: both sides are compared by their squares, and only a positive numerator needs comparing. -/
theorem comparatorIsReal : Obligations.ComparatorIsReal := by
  intro c den2 nonzero pos
  refine ⟨fun num => ?_, fun num => ?_⟩
  · rw [leConst_eq_decide, decide_eq_true_iff, div_sqrt_le_const_iff pos]
  · rw [ltConst_eq_true_iff]
    rcases le_or_gt num 0 with nonpos | positive
    · exact iff_of_true (.inl nonpos) (div_sqrt_lt_of_nonpos nonpos nonzero den2)
    · obtain ⟨n, rfl⟩ := Int.eq_ofNat_of_zero_le positive.le
      rw [or_iff_right positive.not_ge, Int.natAbs_natCast, Int.cast_natCast, div_sqrt_lt_const_iff pos]

/-! ## The tests are independent (R153) -/

/-- What a test reports: its result bank and the flags of STATUS beside BUSY and YVALID. -/
structure SameReport (t' t : State) : Prop where
  bank : t'.bank = t.bank
  verdict : t'.status.verdict = t.status.verdict
  rvalid : t'.status.rvalid = t.status.rvalid
  err : t'.status.err = t.status.err
  done : t'.status.done = t.status.done

/-- Whatever `o` ends in, `o'` ends in with the same report. -/
def ReportsAs (o' o : Host.Outcome State Fault Refusal) : Prop :=
  ∀ t, o = .next t → ∃ t', o' = .next t' ∧ SameReport t' t

theorem reportsAs_completed {s' s : State} (bank : s'.bank = s.bank) (verdict rvalid : Bool) :
    ReportsAs (.next (s'.completed verdict rvalid)) (.next (s.completed verdict rvalid)) := by
  rintro _ ⟨⟩
  exact ⟨_, rfl, bank, rfl, rfl, rfl, rfl⟩

theorem reportsAs_failed {s' s : State} (bank : s'.bank = s.bank) (code : Nat) :
    ReportsAs (.next (s'.failed code)) (.next (s.failed code)) := by
  rintro _ ⟨⟩
  exact ⟨_, rfl, bank, rfl, rfl, rfl, rfl⟩

theorem reportsAs_fault {o' : Host.Outcome State Fault Refusal} {f : Fault} : ReportsAs o' (.fault f) := by
  rintro _ ⟨⟩

section
variable {s' s : State} (params : s'.params = s.params) (blen : s'.blen = s.blen) (const : s'.cfgConst = s.cfgConst)
  (bits : List Bool)
include blen

include const in
theorem freqTest_reportsAs :
    ReportsAs (finish (freqTest bits (statStart s'))) (finish (freqTest bits (statStart s))) := by
  rw [finish_freqTest, finish_freqTest, const]
  exact reportsAs_completed (by rw [blen]) _ _

include const in
theorem runsTest_reportsAs :
    ReportsAs (finish (runsTest bits (statStart s'))) (finish (runsTest bits (statStart s))) := by
  by_cases degenerate : onesCount bits = 0 ∨ bits.length - onesCount bits = 0
  · rw [finish_runsTest_of_degenerate degenerate, finish_runsTest_of_degenerate degenerate]
    exact reportsAs_failed (by rw [blen]) _
  · obtain ⟨ones, zeros⟩ := not_or.mp degenerate
    rw [finish_runsTest_of_both ones zeros, finish_runsTest_of_both ones zeros, const]
    exact reportsAs_completed (by rw [blen]) _ _

include params const in
theorem excurTest_reportsAs :
    ReportsAs (finish (excurTest bits (statStart s'))) (finish (excurTest bits (statStart s))) := by
  by_cases degenerate : zeroReturns s.params.excLClosing bits = 0
  · rw [finish_excurTest_of_degenerate degenerate, finish_excurTest_of_degenerate (by rwa [params])]
    exact reportsAs_failed (by rw [blen, params]) _
  · rw [finish_excurTest_of_returns degenerate, finish_excurTest_of_returns (by rwa [params]), const, params]
    exact reportsAs_completed (by rw [blen]) _ _

include params const in
/-- The prologue carries the independence of the test on the read sequence to the whole command. -/
theorem statBody_reportsAs {test : List Bool → State → Ending}
    (cells : ∀ k < s.blen.toNat, Memory.get? s'.bbuf k = Memory.get? s.bbuf k)
    (h : ∀ bits, ReportsAs (finish (test bits (statStart s'))) (finish (test bits (statStart s)))) :
    ReportsAs (finish (statBody test s')) (finish (statBody test s)) := by
  by_cases rejected : s.blen.toNat < 2 ∨ s.params.lmax < s.blen.toNat ∨ s.cfgConst = 0#32
  · rw [finish_statBody_of_rejected rejected, finish_statBody_of_rejected (by rwa [blen, params, const])]
    apply reportsAs_failed
    rfl
  simp only [not_or, not_lt] at rejected
  obtain ⟨two, le, nonzero⟩ := rejected
  by_cases written : ∀ k < s.blen.toNat, Memory.get? s.bbuf k ≠ none
  · obtain ⟨bits, read⟩ := memory_readRun_of_all_written written
    have values : ∀ k < s.blen.toNat, Memory.get? s.bbuf k = bits[k]? := fun k hk => memory_get_of_readRun read hk
    have length := memory_readRun_length read
    rw [finish_statBody_of_written two le nonzero length values,
      finish_statBody_of_written (s := s') (bits := bits) (by rwa [blen]) (by rwa [blen, params]) (by rwa [const])
        (by rwa [blen]) (fun k hk => by rw [blen] at hk; rw [cells k hk, values k hk])]
    exact h bits
  · obtain ⟨o, fault⟩ := finish_statBody_of_unwritten (test := test) two le nonzero (by push Not at written; exact written)
    rw [fault]
    exact reportsAs_fault

end

/-- Settles O49: the shared prologue reads the same sequence in both states, and each test reports from it alone. -/
theorem testsAreIndependent : Obligations.TestsAreIndependent := by
  intro i s s' t test params blen const cells h
  have same : ReportsAs (exec i s') (exec i s) := by
    simp only [List.mem_cons, List.not_mem_nil, or_false] at test
    rcases test with rfl | rfl | rfl
    · exact statBody_reportsAs params blen const cells (freqTest_reportsAs blen const)
    · exact statBody_reportsAs params blen const cells (runsTest_reportsAs blen const)
    · exact statBody_reportsAs params blen const cells (excurTest_reportsAs params blen const)
  obtain ⟨t', h', report⟩ := same t h
  exact ⟨t', h', report.bank, report.verdict, report.rvalid, report.err, report.done⟩

/-! ## The round trip (R162) -/

/-- To write what a run of cells was read to hold changes no cell. -/
theorem memory_get_write_of_readRun {α : Type} {m : Memory α} {count : Nat} {vs : List α}
    (read : Memory.readRun m 0 count = .ok vs) (k : Nat) :
    Memory.get? (Memory.write m 0 vs) k = Memory.get? m k := by
  rcases lt_or_ge k vs.length with below | above
  · rw [memory_get_write_of_lt m vs below, memory_get_of_readRun read (by rwa [← memory_readRun_length read]),
      List.getElem?_eq_getElem below]
  · exact memory_get_write_of_ge m vs above

theorem memory_readRun_write_self {α : Type} (m : Memory α) {xs : List α} {count : Nat} (length : xs.length = count) :
    Memory.readRun (Memory.write m 0 xs) 0 count = .ok xs := by
  rw [memory_readRun_write m xs length.ge, ← length, List.take_length]

theorem invalidParameter_err_ne (s : State) : (raiseError .invalidParameter .nothing s).status.err ≠ 0#4 := by
  rw [raiseError_nothing_eq_failed]
  simp [State.failed, ErrCode.code]

/-- PACK that ends without an error has read the whole bytes and written them. -/
theorem exec_pack_well {s t : State} (h : exec .pack s = .next t) (err : t.status.err = 0#4) :
    ∃ bits, s.blen.toNat ≤ s.params.lmax ∧ Memory.readRun s.bbuf 0 (8 * (s.blen.toNat / 8)) = .ok bits ∧
      t = State.completed
        { s with
          pbuf := Memory.write s.pbuf 0 (packBits (s.blen.toNat / 8) bits)
          plen := BitVec.ofNat 32 (s.blen.toNat / 8) } false false := by
  rcases execPack_next h with rfl | ⟨bits, le, read, -, -⟩
  · exact absurd err (invalidParameter_err_ne s)
  · exact ⟨bits, le, read, Host.Outcome.next.inj (h.symm.trans (exec_pack_of_read le read))⟩

/-- UNPACK that ends without an error has read the bytes and written their bits. -/
theorem exec_unpack_well {s t : State} (h : exec .unpack s = .next t) (err : t.status.err = 0#4) :
    ∃ bytes, s.plen.toNat ≤ s.params.lmax / 8 ∧ Memory.readRun s.pbuf 0 s.plen.toNat = .ok bytes ∧
      t = State.completed
        { s with
          bbuf := Memory.write s.bbuf 0 (unpackBytes bytes)
          blen := BitVec.ofNat 32 (8 * s.plen.toNat) } false false := by
  rcases execUnpack_next h with rfl | ⟨bytes, le, read, -, -⟩
  · exact absurd err (invalidParameter_err_ne s)
  · exact ⟨bytes, le, read, Host.Outcome.next.inj (h.symm.trans (exec_unpack_of_read le read))⟩

theorem pack_then_unpack {s t : State} (admitted : configAdmitted s.params = true) (h : exec .pack s = .next t)
    (err : t.status.err = 0#4) :
    ∃ u, exec .unpack t = .next u ∧ u.status.err = 0#4 ∧ u.blen.toNat = 8 * (s.blen.toNat / 8) ∧
      ∀ k, Memory.get? u.bbuf k = Memory.get? s.bbuf k := by
  obtain ⟨bits, le, read, rfl⟩ := exec_pack_well h err
  have fits := length_lt_of_admitted admitted le
  have unpacked := unpackBytes_packBits_of_length (memory_readRun_length read)
  have plen : (BitVec.ofNat 32 (s.blen.toNat / 8)).toNat = s.blen.toNat / 8 := toNat_ofNat_of_lt (by omega)
  have bytes : Memory.readRun (Memory.write s.pbuf 0 (packBits (s.blen.toNat / 8) bits)) 0
      (BitVec.ofNat 32 (s.blen.toNat / 8)).toNat = .ok (packBits (s.blen.toNat / 8) bits) := by
    rw [plen, memory_readRun_write_self _ (packBits_length ..)]
  refine ⟨_, exec_unpack_of_read (plen.trans_le (Nat.div_le_div_right le)) bytes, rfl, ?_, fun k => ?_⟩
  · exact (toNat_ofNat_of_lt (by rw [State.completed, plen]; omega)).trans (congrArg (8 * ·) plen)
  · exact (congrArg (fun vs => Memory.get? (Memory.write s.bbuf 0 vs) k) unpacked).trans
      (memory_get_write_of_readRun read k)

theorem unpack_then_pack {s t : State} (admitted : configAdmitted s.params = true) (h : exec .unpack s = .next t)
    (err : t.status.err = 0#4) :
    ∃ u, exec .pack t = .next u ∧ u.status.err = 0#4 ∧ u.plen = s.plen ∧
      ∀ j, Memory.get? u.pbuf j = Memory.get? s.pbuf j := by
  obtain ⟨bytes, le, read, rfl⟩ := exec_unpack_well h err
  have length : bytes.length = s.plen.toNat := memory_readRun_length read
  have below : 8 * s.plen.toNat ≤ s.params.lmax := by omega
  have blen : (BitVec.ofNat 32 (8 * s.plen.toNat)).toNat = 8 * s.plen.toNat :=
    toNat_ofNat_of_lt (length_lt_of_admitted admitted below)
  have whole : (BitVec.ofNat 32 (8 * s.plen.toNat)).toNat / 8 = s.plen.toNat := by omega
  have packed : packBits ((BitVec.ofNat 32 (8 * s.plen.toNat)).toNat / 8) (unpackBytes bytes) = bytes := by
    rw [whole, ← length, packBits_unpackBytes]
  have bits : Memory.readRun (Memory.write s.bbuf 0 (unpackBytes bytes)) 0
      (8 * ((BitVec.ofNat 32 (8 * s.plen.toNat)).toNat / 8)) = .ok (unpackBytes bytes) := by
    rw [whole, memory_readRun_write_self _ (by rw [unpackBytes_length, length])]
  refine ⟨_, exec_pack_of_read (blen.trans_le below) bits, rfl, ?_, fun j => ?_⟩
  · exact (congrArg (BitVec.ofNat 32) whole).trans (by simp)
  · exact (congrArg (fun vs => Memory.get? (Memory.write s.pbuf 0 vs) j) packed).trans
      (memory_get_write_of_readRun read j)

/-- Settles O52: what the one command stores reads back as what the other needs, and packing and unpacking undo each
other. -/
theorem packUnpackRoundTrip : Obligations.PackUnpackRoundTrip :=
  fun _ _ admitted => ⟨pack_then_unpack admitted, unpack_then_pack admitted⟩

end Sys2Proof.Machine
end
